-- ==== Sys2Proof/Word.lean ====
section
/-! DEFINITION. The word and byte types of the PRB (00_scope.md R6 `REG_WIDTH`, R7, R9): bit 0 is the least
significant bit, every stored datum is an unsigned byte, every host-visible register is 32 bits. -/

namespace Sys2Proof

/-- One byte: every datum of every memory, every sample, every filter tag (R7, R61). -/
abbrev Byte := BitVec 8

/-- The contents of one host-visible register: `REG_WIDTH = 32` (R6). -/
abbrev Word := BitVec 32

end Sys2Proof
end

