-- ==== Sys2Proof/Config.lean ====
section
/-! DEFINITION. What an implementation of the PRB fixes (the OPEN parameters of 00_scope.md R6) and the free values,
each an uninterpreted constant: nothing in Lean can evaluate one or prove a value of it.

The capacities are carried in the machine's state as a constant field (`State.caps`, notes/assumptions/1.md), so that
every statement over all states is a statement over all capacities; `Config.caps` is what the reset state holds. -/

namespace Sys2Proof

/-- The eight byte-addressed memories (10_state.md R42). -/
inductive Space
  /-- the filtered stream, bytes `0 .. STREAM_LEN-1` -/
  | IN
  /-- the palette, entry `j` at `3j`, `3j+1`, `3j+2` -/
  | PLTE
  /-- the indexed transparency list, alpha of entry `j` at `j` -/
  | TRNS
  /-- the de-filtered samples, row-major (R63) -/
  | RASTER
  /-- the expanded palette, entry `j` at `4j .. 4j+3` -/
  | RGBA
  /-- the output image (R64) -/
  | OUT
  /-- the scanline being reconstructed (internal) -/
  | CUR
  /-- the previous reconstructed scanline of the same pass (internal) -/
  | PREV
  deriving DecidableEq, Repr

/-- The six windows, the memories the host can reach (R60); CUR and PREV are internal. -/
inductive Window
  | IN
  | PLTE
  | TRNS
  | RASTER
  | RGBA
  | OUT
  deriving DecidableEq, Repr

/-- The memory a window shows. -/
def Window.space : Window → Space
  | .IN => .IN
  | .PLTE => .PLTE
  | .TRNS => .TRNS
  | .RASTER => .RASTER
  | .RGBA => .RGBA
  | .OUT => .OUT

/-- What the platform places in its address map: the register file and the six host-visible windows (20_memory.md R69). -/
inductive Region
  | registers
  | window (w : Window)
  deriving DecidableEq, Repr

/-- The capacities an implementation fixes (00_scope.md R6, 92_eei_decisions.md D4), in bytes. -/
structure Caps where
  /-- capacity of IN -/
  inCap : Nat
  /-- capacity of RASTER -/
  rasterCap : Nat
  /-- capacity of OUT -/
  outCap : Nat
  /-- capacity of each of the line buffers CUR and PREV -/
  lineCap : Nat
  deriving DecidableEq, Repr

/-- The constraints R6 puts on the capacities. -/
abbrev Caps.wf (c : Caps) : Prop :=
  (2 ≤ c.inCap ∧ c.inCap ≤ 2 ^ 32 - 1) ∧ (4 ≤ c.rasterCap ∧ c.rasterCap ≤ 2 ^ 32 - 1) ∧
  (4 ≤ c.outCap ∧ c.outCap ≤ 2 ^ 32 - 1) ∧ (4 ≤ c.lineCap ∧ c.lineCap ≤ 2 ^ 32 - 1)

/-- The size of a space in bytes (R42): 768 = 3 · `PAL_CAP`, 256 = `TRNS_CAP`, 1024 = 4 · `PAL_CAP` (R6, D14). -/
def Caps.size (c : Caps) : Space → Nat
  | .IN => c.inCap
  | .PLTE => 768
  | .TRNS => 256
  | .RASTER => c.rasterCap
  | .RGBA => 1024
  | .OUT => c.outCap
  | .CUR => c.lineCap
  | .PREV => c.lineCap

namespace Config

/-- The implementation's choice of `IN_CAP` (OPEN, R6); `Config.caps` brings it into the range R6 allows. -/
opaque inCapChoice : Nat
/-- The implementation's choice of `RASTER_CAP` (OPEN, R6). -/
opaque rasterCapChoice : Nat
/-- The implementation's choice of `OUT_CAP` (OPEN, R6). -/
opaque outCapChoice : Nat
/-- The implementation's choice of `LINE_CAP` (OPEN, R6). -/
opaque lineCapChoice : Nat

/-- The capacities of the machine that `State.reset` is the reset state of: any values within the constraints of R6. -/
def caps : Caps where
  inCap := inCapChoice % (2 ^ 32 - 2) + 2
  rasterCap := rasterCapChoice % (2 ^ 32 - 4) + 4
  outCap := outCapChoice % (2 ^ 32 - 4) + 4
  lineCap := lineCapChoice % (2 ^ 32 - 4) + 4

/-- `PRB_BASE` (OPEN, R6, R69): where the platform maps the register file and each window. -/
opaque prbBase : Region → Nat

/-- The platform address of an offset into a region (R69). The accesses of `HostAccess` arrive already resolved to a
region and an offset (notes/assumptions/14.md). -/
def platformAddress (g : Region) (offset : Nat) : Nat := prbBase g + offset

/-- FREE VALUE: the byte that index `i` of a space holds after the `n`-th reset until something writes it (R42, R45;
93_implementation_defined.md U1, U2: any value). -/
opaque unwrittenByte : Space → Nat → Nat → Byte

/-- FREE VALUE: what a host read of a result byte outside the specified range returns while IDLE (U4, U5, U6: any
value), keyed by the space, the number of the draw and the index. -/
opaque undefinedByte : Space → Nat → Nat → Byte

/-- FREE VALUE: what a host read of RASTER, RGBA or OUT returns while BUSY (R241(d), U3: any value), one draw a read. -/
opaque busyByte : Nat → Byte

/-- FREE VALUE: what a host read of POS returns while BUSY (R241(d), U3: any value), one draw a read. -/
opaque busyWord : Nat → Word

end Config
end Sys2Proof
end

