-- ==== Sys2Proof/Syntax.lean ====
section
/-! DEFINITION. The instructions of the PRB: one constructor per row of spec/opcode_table.json (30_encoding.md R92,
R97). The five filter types are the tags of scanline records and carry no operand: a record has no register field and no
immediate, its data bytes are read from the stream one at a time as the row is reconstructed (R93, R121). The two host
commands carry the bits of the written CTRL value that their encoding leaves free, which R97 says are ignored. -/

namespace Sys2Proof

/-- The instructions of spec/opcode_table.json. -/
inductive Instr
  /-- NONE, tag 0 (R125) -/
  | filterNone
  /-- SUB, tag 1 (R126) -/
  | filterSub
  /-- UP, tag 2 (R127) -/
  | filterUp
  /-- AVG, tag 3 (R128) -/
  | filterAvg
  /-- PAETH, tag 4 (R130) -/
  | filterPaeth
  /-- START (R230): a write to CTRL of a value with bit 0 set; `rest` is its bits 31:1, all ignored. -/
  | start (rest : BitVec 31)
  /-- CLEAR (R231): a write to CTRL of a value with bits 1:0 = 0b10; `rest` is its bits 31:2, all ignored. -/
  | clear (rest : BitVec 30)
  deriving DecidableEq, Repr

/-- The instructions of format ROW (R97): the tags of scanline records. The others are of format HOSTCMD. -/
def Instr.isRow : Instr → Bool
  | .filterNone => true
  | .filterSub => true
  | .filterUp => true
  | .filterAvg => true
  | .filterPaeth => true
  | .start _ => false
  | .clear _ => false

/-- The name spec/opcode_table.json gives the instruction. -/
def Instr.mnemonic : Instr → String
  | .filterNone => "NONE"
  | .filterSub => "SUB"
  | .filterUp => "UP"
  | .filterAvg => "AVG"
  | .filterPaeth => "PAETH"
  | .start _ => "START"
  | .clear _ => "CLEAR"

/-- One scanline record (R90): its filter instruction and the filtered bytes that follow the tag in the stream. -/
structure Record where
  op : Instr
  data : List Byte
  deriving DecidableEq, Repr

end Sys2Proof
end

