-- ==== Sys2Proof/WellFormed.lean ====
section
/-! DEFINITION. Well-formedness of instructions and of scanline records. -/

namespace Sys2Proof

/-- Every term of `Instr` is a well-formed instruction: no field of an encoding has an illegal value that the types
admit (R91: the tag has no sub-field; R97: the ignored bits of a CTRL write may be anything). The illegal tags 5 to 255
are no term of `Instr`: the decoder refuses them by name. -/
def Instr.wellFormed : Instr → Bool
  | .filterNone => true
  | .filterSub => true
  | .filterUp => true
  | .filterAvg => true
  | .filterPaeth => true
  | .start _ => true
  | .clear _ => true

/-- A record fits a pass whose scanlines have `sl` bytes (R90, R94): it is tagged by a filter instruction (a host
command is no part of a stream) and it holds exactly `sl` filtered bytes. -/
def Record.wellFormed (sl : Nat) (r : Record) : Bool :=
  r.op.isRow && r.op.wellFormed && r.data.length == sl

end Sys2Proof
end

