-- ==== Sys2Proof/Decode.lean ====
section
/-! DEFINITION. The decoder, total on any bits and rejecting by name, and the encoder, both from the tables of
30_encoding.md R92 and R97; the assembler of scanline records (R90, R100). -/

namespace Sys2Proof

/-- The two formats of R97: the tag byte of a scanline record, and a 32-bit host write to CTRL. -/
inductive Encoded
  | tag (t : Byte)
  | ctrl (v : Word)
  deriving DecidableEq, Repr

/-- What the decoder answers. -/
inductive Decoded
  | instr (i : Instr)
  /-- a tag of 5 to 255 (R98): the row procedure raises INVALID_FILTER (R122) -/
  | illegalTag (t : Byte)
  /-- a CTRL value with bits 1:0 = 0b00 (R97): no command -/
  | noCommand (v : Word)
  deriving DecidableEq, Repr

/-- R92: all eight bits of the tag are compared as one unsigned number (R91). -/
def decodeTag (t : Byte) : Decoded :=
  match t.toNat with
  | 0 => .instr .filterNone
  | 1 => .instr .filterSub
  | 2 => .instr .filterUp
  | 3 => .instr .filterAvg
  | 4 => .instr .filterPaeth
  | _ => .illegalTag t

/-- R97: bit 0 set is START whatever bit 1 says; bits 1:0 = 0b10 is CLEAR; 0b00 is no command. -/
def decodeCtrl (v : Word) : Decoded :=
  if v.getLsbD 0 then .instr (.start (v.extractLsb' 1 31))
  else if v.getLsbD 1 then .instr (.clear (v.extractLsb' 2 30))
  else .noCommand v

/-- The decoder. -/
def decode : Encoded → Decoded
  | .tag t => decodeTag t
  | .ctrl v => decodeCtrl v

/-- The encoder, from R92 and R97. -/
def encode : Instr → Encoded
  | .filterNone => .tag 0x00#8
  | .filterSub => .tag 0x01#8
  | .filterUp => .tag 0x02#8
  | .filterAvg => .tag 0x03#8
  | .filterPaeth => .tag 0x04#8
  | .start rest => .ctrl (rest ++ 1#1)
  | .clear rest => .ctrl (rest ++ 2#2)

/-- One row of spec/opcode_table.json: a name, a format (ROW or HOSTCMD), and the bits its encoding fixes. -/
structure OpcodeRow where
  mnemonic : String
  isRow : Bool
  matchBits : Nat
  mask : Nat
  deriving DecidableEq, Repr

/-- spec/opcode_table.json, the machine-readable copy of R92 and R97. -/
def opcodeTable : List OpcodeRow :=
  [⟨"NONE", true, 0x00, 0xFF⟩, ⟨"SUB", true, 0x01, 0xFF⟩, ⟨"UP", true, 0x02, 0xFF⟩, ⟨"AVG", true, 0x03, 0xFF⟩,
   ⟨"PAETH", true, 0x04, 0xFF⟩, ⟨"START", false, 0x00000001, 0x00000001⟩, ⟨"CLEAR", false, 0x00000002, 0x00000003⟩]

/-- The bits of an encoding lie in a row of the table. -/
def OpcodeRow.covers (row : OpcodeRow) : Encoded → Bool
  | .tag t => row.isRow && (t &&& BitVec.ofNat 8 row.mask) == BitVec.ofNat 8 row.matchBits
  | .ctrl v => !row.isRow && (v &&& BitVec.ofNat 32 row.mask) == BitVec.ofNat 32 row.matchBits

/-- The instruction's bits as the table numbers them: the format ROW is one byte, the format HOSTCMD is 32 bits (R97);
the two formats share small numbers, so the row's width says which is meant (notes/assumptions/13.md). -/
def tableBits (nbits w : Nat) : Encoded :=
  if nbits ≤ 8 then .tag (BitVec.ofNat 8 w) else .ctrl (BitVec.ofNat 32 w)

/-- The instruction the decoder reads from a table row's word. -/
def decodeTableWord (nbits w : Nat) : Option Instr :=
  match decode (tableBits nbits w) with
  | .instr i => some i
  | .illegalTag _ => none
  | .noCommand _ => none

/-- The tag byte of a filter instruction in a stream; a host command has none. -/
def tagOf (i : Instr) : Option Byte :=
  match encode i with
  | .tag t => some t
  | .ctrl _ => none

/-- A row line of R100: the tag of the mnemonic, then the listed bytes, in order. -/
def assembleRecord (r : Record) : List Byte := (tagOf r.op).toList ++ r.data

/-- The records of a stream follow one another with no gap and no padding (R90). -/
def assemble (rs : List Record) : List Byte := rs.flatMap assembleRecord

end Sys2Proof
end

