-- ==== Sys2Proof/Machine/State.lean ====
section
/-! DEFINITION. The state of the PRB as plain data, its reset value, and the reasons a step can stop.

INVENTORY.md, '## State', lists every field with its rule and its reset value. The last seven fields are the MODEL's own
(capacities, the schedule of turns, the bus reply, the extent of the specified results, two counters behind the free
values, and the engine's place in the decode sequence). -/

namespace Sys2Proof.Machine

/-- One memory: (index, byte) pairs with strictly rising indices. An index that is not listed has not been written since
reset, and holds a value nobody knows (R45): it reads as a free value, never as a byte of the list's own. -/
abbrev Memory := List Host.Cell

/-- The eight memories of R42. -/
structure Memories where
  inp : Memory
  plte : Memory
  trns : Memory
  raster : Memory
  rgba : Memory
  out : Memory
  cur : Memory
  prev : Memory
  deriving DecidableEq, Repr

/-- The STATUS flags (R24, R28). -/
structure Status where
  /-- bit 0: a decode runs (R23: the phase, IDLE or BUSY) -/
  busy : Bool
  /-- bit 1: the last decode ended well -/
  done : Bool
  /-- bit 2: the last decode ended in a fault -/
  fault : Bool
  /-- bit 3: a host write was ignored because the engine was BUSY -/
  werr : Bool
  deriving DecidableEq, Repr

/-- FORMAT (R35): its three fields, each of which holds any value written; bits 31:24 hold nothing. -/
structure ImageFormat where
  /-- bits 7:0 BIT_DEPTH -/
  bitDepth : Byte
  /-- bits 15:8 COLOR_TYPE -/
  colorType : Byte
  /-- bits 23:16 INTERLACE -/
  interlace : Byte
  deriving DecidableEq, Repr

/-- GEOM (R40): its four fields; bits 31:12 hold nothing. -/
structure Geom where
  /-- bits 7:0 PIXEL_BYTES -/
  pixelBytes : Byte
  /-- bits 9:8 COLORS -/
  colors : BitVec 2
  /-- bit 10 HAS_ALPHA -/
  hasAlpha : Bool
  /-- bit 11 INDEXED -/
  indexed : Bool
  deriving DecidableEq, Repr

/-- The host-visible registers that have a name (R26); offsets 0x38 and 0x3C are reserved. -/
inductive Reg
  | CTRL
  | STATUS
  | IRQ_EN
  | ERR_CODE
  | ERR_POS
  | ERR_VAL
  | WIDTH
  | HEIGHT
  | FORMAT
  | STREAM_LEN
  | PAL_COUNT
  | TRNS_COUNT
  | POS
  | GEOM
  deriving DecidableEq, Repr

/-- How wide a host access to the register file is; only a word moves a register (R65). -/
inductive AccessWidth
  | byte
  | half
  | word
  deriving DecidableEq, Repr

/-- One access of the host (R65, R66). An offset into the register file has six bits because the file has 64 bytes. -/
inductive HostAccess
  | writeReg (offset : BitVec 6) (width : AccessWidth) (value : Word)
  | readReg (offset : BitVec 6) (width : AccessWidth)
  | writeWindow (w : Window) (index : Nat) (value : Byte)
  | readWindow (w : Window) (index : Nat)
  deriving DecidableEq, Repr

/-- Whose turn it is: one action of the engine, one access of the host (R25: the two agents), or the platform asserting
the reset input (R280). -/
inductive Turn
  | engine
  | host (a : HostAccess)
  | reset
  deriving DecidableEq, Repr

/-- What the last host read returned. -/
inductive Reply
  | word (v : Word)
  | byte (b : Byte)
  deriving DecidableEq, Repr

/-- Where a running decode stands in the sequence of R236 and in the loops of R120, R165 and R211. It means nothing
while IDLE. -/
inductive Stage
  /-- steps 1 to 3: the cursor, the configuration check, the derived parameters -/
  | configure
  /-- step 4: pass `pass` is about to begin, or the list of passes is over -/
  | beginPass
  /-- the record of row `r` of pass `pass` is about to be fetched -/
  | row
  /-- row `r` stands in CUR and its pixel `c` is about to be scattered -/
  | scatter
  /-- row `r` has been scattered and is about to become the previous row -/
  | retire
  /-- step 5, indexed: the RGBA table is about to be prepared -/
  | expand
  /-- step 5: output pixel `k` is about to be composited, or step 6 when there is none left -/
  | composite
  deriving DecidableEq, Repr

/-- The causes of a fault that end a decode (R250). -/
inductive FaultCause
  | corruptFile
  | invalidFilter
  | paletteIndexOutOfRange
  | configError
  deriving DecidableEq, Repr

/-- How many bytes of each result window, from index 0, hold what the spec says they hold (R238, R242). -/
structure Extent where
  raster : Nat
  rgba : Nat
  out : Nat
  deriving DecidableEq, Repr

/-- The PRB and the turns that are to come. -/
structure State where
  /-- STATUS (R28) -/
  status : Status
  /-- IRQ_EN.EN (R29) -/
  irqEn : Bool
  /-- ERR_CODE.CODE (R30) -/
  errCode : BitVec 8
  /-- ERR_POS (R31) -/
  errPos : Word
  /-- ERR_VAL (R32) -/
  errVal : Word
  /-- WIDTH (R33) -/
  width : Word
  /-- HEIGHT (R34) -/
  height : Word
  /-- FORMAT (R35) -/
  format : ImageFormat
  /-- STREAM_LEN (R36) -/
  streamLen : Word
  /-- PAL_COUNT.COUNT (R37) -/
  palCount : BitVec 9
  /-- TRNS_COUNT.COUNT (R38) -/
  trnsCount : BitVec 9
  /-- POS, the stream cursor (R21, R39) -/
  pos : Word
  /-- GEOM (R40) -/
  geom : Geom
  /-- RGBA_VALID (R43) -/
  rgbaValid : Bool
  /-- IN, PLTE, TRNS, RASTER, RGBA, OUT, CUR and PREV (R42) -/
  mem : Memories
  /-- the index into the pass list (R22) -/
  pass : Nat
  /-- the row within the pass (R22) -/
  r : Nat
  /-- the byte within the scanline (R22) -/
  i : Nat
  /-- the pixel column within the pass (R22) -/
  c : Nat
  /-- the output pixel (R22) -/
  k : Nat
  /-- MODEL: where the running decode stands -/
  stage : Stage
  /-- MODEL: the capacities; no step changes them (notes/assumptions/1.md) -/
  caps : Caps
  /-- MODEL: the turns to come, the next one first; when there is none it is always the engine's turn -/
  schedule : List Turn
  /-- MODEL: the reply of the last host read since reset -/
  bus : Option Reply
  /-- MODEL: the part of the result windows that the spec specifies -/
  shown : Extent
  /-- MODEL: how many resets there have been; keys the free values of bytes nothing has written -/
  resets : Nat
  /-- MODEL: how many draws there have been; keys the free values of unspecified reads -/
  draws : Nat
  deriving DecidableEq, Repr

/-- The reset state of a PRB with the given capacities (R45, R281): every register 0, the engine IDLE, RGBA_VALID 0, every
memory unspecified. R22 gives the counters no reset value (notes/assumptions/4.md). -/
def State.resetWith (caps : Caps) : State where
  status := ⟨false, false, false, false⟩
  irqEn := false
  errCode := 0
  errPos := 0
  errVal := 0
  width := 0
  height := 0
  format := ⟨0, 0, 0⟩
  streamLen := 0
  palCount := 0
  trnsCount := 0
  pos := 0
  geom := ⟨0, 0, false, false⟩
  rgbaValid := false
  mem := ⟨[], [], [], [], [], [], [], []⟩
  pass := 0
  r := 0
  i := 0
  c := 0
  k := 0
  stage := .configure
  caps := caps
  schedule := []
  bus := none
  shown := ⟨0, 0, 0⟩
  resets := 0
  draws := 0

/-- The PRB right after power-on, which is a reset (R280). -/
def State.reset : State := State.resetWith Config.caps

/-- No step of this model stops with a fault: the PRB's own faults end a decode, not the machine (R256, R261), and are
next states in which STATUS.FAULT is 1. -/
inductive Fault
  deriving DecidableEq, Repr

/-- The reasons a step can refuse. -/
inductive Refusal
  /-- An instruction that has no meaning yet (safe). No arm of `exec` raises it. -/
  | notModelled (mnemonic : String)
  deriving DecidableEq, Repr

end Sys2Proof.Machine
end

