-- ==== Sys2Proof/Machine/Ops.lean ====
section
/-! DEFINITION. The named operations over the memories, the registers and the stream, and the entry into a fault (R256)
with the operation that ends the report of one (R230, R231). -/

namespace Sys2Proof.Machine

/-- The canonical form of a memory: strictly rising indices. (An unlisted index reads as no byte of the list's own, so no
entry can equal what it reads as.) -/
abbrev Memory.wf (m : Memory) : Prop := m.Pairwise (fun x y => x.1 < y.1)

/-- The byte written at an index since reset, if any. -/
def Memory.get? : Memory → Nat → Option Byte
  | [], _ => none
  | x :: m, a => if x.1 = a then some x.2 else Memory.get? m a

/-- Write one byte; the canonical form is kept. -/
def Memory.set : Memory → Nat → Byte → Memory
  | [], a, v => [(a, v)]
  | x :: m, a, v =>
    if a < x.1 then (a, v) :: x :: m
    else if a = x.1 then (a, v) :: m
    else x :: Memory.set m a v

/-- The memory that holds a space (R60: the eight spaces are separate). -/
def Memories.get (ms : Memories) : Space → Memory
  | .IN => ms.inp
  | .PLTE => ms.plte
  | .TRNS => ms.trns
  | .RASTER => ms.raster
  | .RGBA => ms.rgba
  | .OUT => ms.out
  | .CUR => ms.cur
  | .PREV => ms.prev

/-- Replace the memory that holds a space. -/
def Memories.put (ms : Memories) (sp : Space) (m : Memory) : Memories :=
  match sp with
  | .IN => { ms with inp := m }
  | .PLTE => { ms with plte := m }
  | .TRNS => { ms with trns := m }
  | .RASTER => { ms with raster := m }
  | .RGBA => { ms with rgba := m }
  | .OUT => { ms with out := m }
  | .CUR => { ms with cur := m }
  | .PREV => { ms with prev := m }

/-- `MemRead(S, a, 1)` (R10, R67): the byte at an index of a space. A byte that nothing has written since the last reset
is unspecified, and stays what it is until something writes it (R45, U1, U2). -/
def State.load (s : State) (sp : Space) (a : Nat) : Byte :=
  ((s.mem.get sp).get? a).getD (Config.unwrittenByte sp s.resets a)

/-- `MemWrite(S, a, 1, v)` (R10, R67). -/
def State.store (s : State) (sp : Space) (a : Nat) (v : Byte) : State :=
  { s with mem := s.mem.put sp ((s.mem.get sp).set a v) }

/-- Copy `n` bytes from index `a` of one space to index `b` of another, in increasing order, one read and one write a
byte. -/
def State.copyBytes (s : State) (src dst : Space) (a b : Nat) : Nat → State
  | 0 => s
  | n + 1 =>
    let t := s.copyBytes src dst a b n
    t.store dst (b + n) (t.load src (a + n))

/-! The registers as the numbers the rules compute with (R7: exact, unbounded). -/

/-- `width` (R33). -/
def State.W (s : State) : Nat := s.width.toNat
/-- `height` (R34). -/
def State.H (s : State) : Nat := s.height.toNat
/-- `PAL_COUNT.COUNT` (R37). -/
def State.NP (s : State) : Nat := s.palCount.toNat
/-- `TRNS_COUNT.COUNT` (R38). -/
def State.NT (s : State) : Nat := s.trnsCount.toNat
/-- `STREAM_LEN` (R36). -/
def State.L (s : State) : Nat := s.streamLen.toNat
/-- `pixelBytes`, as the decode recorded it in GEOM (R234, R40). -/
def State.pb (s : State) : Nat := s.geom.pixelBytes.toNat

/-! The stream (R121). -/

/-- The next stream byte `IN[POS]`, if the cursor has not reached the end of the stream. -/
def State.streamByte? (s : State) : Option Byte :=
  if s.pos.toNat < s.L then some (s.load .IN s.pos.toNat) else none

/-- `POS <- POS + 1` (R21). -/
def State.advance (s : State) : State := { s with pos := s.pos + 1 }

/-! Fault entry, and what ends the report of a fault. -/

/-- The code of a fault (R250). -/
def FaultCause.code : FaultCause → BitVec 8
  | .corruptFile => 1
  | .invalidFilter => 2
  | .paletteIndexOutOfRange => 3
  | .configError => 4

/-- What a fault leaves specified of the result windows: nothing of RASTER and OUT (R256, U4); of RGBA the bytes that the
entries below PAL_COUNT hold, whether or not the decode reached their expansion (R71(d), R242, U4; notes/assumptions/6.md). -/
def State.extentAfterFault (s : State) : Extent := ⟨0, 4 * s.NP, 0⟩

/-- `raise Fault(code, errpos, errval)` (R256): the report is recorded, the engine becomes IDLE, STATUS.FAULT is set, and
the decode ends. POS, GEOM, every other register and every memory keep their values. -/
def raiseFault (f : FaultCause) (errpos errval : Word) (s : State) : State :=
  { s with
    errCode := f.code
    errPos := errpos
    errVal := errval
    status := { s.status with busy := false, fault := true }
    shown := s.extentAfterFault }

/-- The end of a fault's report, and of a decode's: DONE, FAULT, WERR and ERR_* become 0. START and CLEAR share it (R230,
R231, R261: the PRB has no other return from a fault). -/
def State.clearReport (s : State) : State :=
  { s with
    status := { s.status with done := false, fault := false, werr := false }
    errCode := 0
    errPos := 0
    errVal := 0 }

/-- `raise Fault(CORRUPT_FILE, STREAM_LEN, 0)` (R121, R251). -/
def corruptFile (s : State) : State := raiseFault .corruptFile s.streamLen 0 s

/-- `raise Fault(INVALID_FILTER, POS - 1, T)` (R122, R252), after the tag has been consumed. -/
def invalidFilter (t : Byte) (s : State) : State := raiseFault .invalidFilter (s.pos - 1) (t.setWidth 32) s

end Sys2Proof.Machine
end

