-- ==== Sys2Proof/Machine/Operands.lean ====
section
/-! DEFINITION. The implicit operands: the geometry of the passes (41_interlace.md R160 to R166), the length of a
scanline (R94), and the three neighbours of a byte (40_unfilter.md R123). -/

namespace Sys2Proof.Machine

/-- The geometry of a pass (R12). -/
structure PassGeometry where
  x0 : Nat
  y0 : Nat
  dx : Nat
  dy : Nat
  deriving DecidableEq, Repr

/-- The seven Adam7 passes, in their order (R160). -/
def adam7 : List PassGeometry :=
  [⟨0, 0, 8, 8⟩, ⟨4, 0, 8, 8⟩, ⟨0, 4, 4, 8⟩, ⟨2, 0, 4, 4⟩, ⟨0, 2, 2, 4⟩, ⟨1, 0, 2, 2⟩, ⟨0, 1, 1, 2⟩]

/-- Pass 0 of a non-interlaced image (R161). -/
def singlePass : PassGeometry := ⟨0, 0, 1, 1⟩

/-- `SubDim(n, o, s)` (R162). -/
def subDim (n o s : Nat) : Nat := if n ≤ o then 0 else (n - o + s - 1) / s

/-- The pass list (R161). -/
def passList (interlace : Byte) : List PassGeometry :=
  if interlace = 1 then adam7 else [singlePass]

/-- The adam7 coordinate mapper (R166): the image column and row of pixel `c` of row `r` of a pass. -/
def PassGeometry.map (g : PassGeometry) (r c : Nat) : Nat × Nat := (g.x0 + c * g.dx, g.y0 + r * g.dy)

/-- The index in RASTER of sample 0 of the pixel at column `x` and row `y` (R63). -/
def rasterIndex (width pb x y : Nat) : Nat := (y * width + x) * pb

/-- The pass list of the running decode. -/
def State.passes (s : State) : List PassGeometry := passList s.format.interlace

/-- The geometry of the pass the decode stands in. (Past the end of the list, where no decode stands, pass 0's.) -/
def State.geometry (s : State) : PassGeometry := s.passes.getD s.pass singlePass

/-- `subWidth` of the pass (R162). -/
def State.subWidth (s : State) : Nat := subDim s.W s.geometry.x0 s.geometry.dx

/-- `subHeight` of the pass (R163). -/
def State.subHeight (s : State) : Nat := subDim s.H s.geometry.y0 s.geometry.dy

/-- `SL`, the scanline length of the pass (R94, R165). -/
def State.SL (s : State) : Nat := s.pb * s.subWidth

/-- `left` of byte `i` (R123): the byte of the same lane in the previous pixel of the row. -/
def State.left (s : State) (i : Nat) : Byte := if s.pb ≤ i then s.load .CUR (i - s.pb) else 0

/-- `upper` of byte `i` (R123): the same byte of the previous row of the pass. -/
def State.upper (s : State) (i : Nat) : Byte := if 0 < s.r then s.load .PREV i else 0

/-- `upperLeft` of byte `i` (R123). -/
def State.upperLeft (s : State) (i : Nat) : Byte := if 0 < s.r ∧ s.pb ≤ i then s.load .PREV (i - s.pb) else 0

end Sys2Proof.Machine
end

