-- ==== Sys2Proof/Machine/Flags.lean ====
section
/-! DEFINITION. The STATUS flags as the host reads them, the interrupt output, and the flag that a lost write sets. No
filter instruction writes a flag (R24). -/

namespace Sys2Proof.Machine

/-- One flag in its bit of a register. -/
def flagBit (b : Bool) (n : Nat) : Word := if b then 1#32 <<< n else 0#32

/-- STATUS as a word (R28). -/
def Status.word (f : Status) : Word :=
  flagBit f.busy 0 ||| flagBit f.done 1 ||| flagBit f.fault 2 ||| flagBit f.werr 3

/-- The level of the interrupt output `irq` (R258). -/
def State.irq (s : State) : Bool := s.irqEn && (s.status.done || s.status.fault)

/-- A host write ignored while BUSY sets WERR (R241). -/
def State.lostWrite (s : State) : State := { s with status := { s.status with werr := true } }

/-- A host write that has no effect while IDLE and is lost while BUSY (R41, R65, R66, R241). -/
def State.ignoredWrite (s : State) : State := if s.status.busy then s.lostWrite else s

/-- The end of a decode in DONE (R236, step 6), with the extent of its results (R238). -/
def State.finish (s : State) : State :=
  { s with
    status := { s.status with busy := false, done := true }
    shown := ⟨s.W * s.H * s.pb, if s.geom.indexed then 4 * s.NP else 0, 4 * (s.W * s.H)⟩ }

end Sys2Proof.Machine
end

