-- ==== Sys2Proof/Machine/Command.lean ====
section
/-! DEFINITION. The host commands START and CLEAR (44_host_commands.md R230, R231). -/

namespace Sys2Proof.Machine

/-- What an accepted START does before the decode begins (R230): the report and GEOM are cleared and the engine is BUSY,
at the first step of R236. The draw moves on, because a new decode may change every byte that is unspecified to the
host. -/
def State.beginDecode (s : State) : State :=
  let t := s.clearReport
  { t with
    geom := ⟨0, 0, false, false⟩
    status := { t.status with busy := true }
    stage := .configure
    draws := t.draws + 1 }

/-- START (R230): ignored with WERR while BUSY (R241). The bits beside bit 0 of the written value have no effect (R97). -/
def execStart (_rest : BitVec 31) (s : State) : Host.Outcome State Fault Refusal :=
  .next (if s.status.busy then s.lostWrite else s.beginDecode)

/-- CLEAR (R231): ignored with WERR while BUSY (R241). Bits 31:2 of the written value have no effect (R97). -/
def execClear (_rest : BitVec 30) (s : State) : Host.Outcome State Fault Refusal :=
  .next (if s.status.busy then s.lostWrite else s.clearReport)

end Sys2Proof.Machine
end

