-- ==== Sys2Proof/Machine/Unfilter.lean ====
section
/-! DEFINITION. The ScanlineUnfilter: the predictors and the five filter instructions (40_unfilter.md). Each meaning
reconstructs the row whose tag has just been fetched; `Machine/Engine.lean` fetches the tag (R120) and scatters and
retires the row (R165). -/

namespace Sys2Proof.Machine

/-- `(f[i] + Pred) mod 256` (R124): one exact sum, reduced once. -/
def reconstruct (f p : Byte) : Byte := BitVec.ofNat 8 (f.toNat + p.toNat)

/-- `Pred(0, a, b, c) = 0` (R125). -/
def predNone (_a _b _c : Byte) : Byte := 0

/-- `Pred(1, a, b, c) = a` (R126). -/
def predSub (a _b _c : Byte) : Byte := a

/-- `Pred(2, a, b, c) = b` (R127). -/
def predUp (_a b _c : Byte) : Byte := b

/-- `Pred(3, a, b, c) = (a + b) div 2`, the sum exact (R128). -/
def predAvg (a b _c : Byte) : Byte := BitVec.ofNat 8 ((a.toNat + b.toNat) / 2)

/-- `PaethPredictor(a, b, c)` (R129), the deviations exact; ties go to left, then upper, then upperLeft. -/
def predPaeth (a b c : Byte) : Byte :=
  let p : Int := (a.toNat : Int) + b.toNat - c.toNat
  let pa := (p - a.toNat).natAbs
  let pb := (p - b.toNat).natAbs
  let pc := (p - c.toNat).natAbs
  if pa ≤ pb ∧ pa ≤ pc then a else if pb ≤ pc then b else c

/-- `CUR[i] <- (f + Pred(a, b, c)) mod 256` for the byte the counter `i` stands at, the stream byte `f` consumed and the
counter moved on (R120, R123, R124). -/
def State.putRaw (pred : Byte → Byte → Byte → Byte) (f : Byte) (s : State) : State :=
  { s.advance.store .CUR s.i (reconstruct f (pred (s.left s.i) (s.upper s.i) (s.upperLeft s.i))) with i := s.i + 1 }

/-- The loop of R120 over the next `n` bytes of the row. A missing stream byte ends it with CORRUPT_FILE (R121); the bytes
reconstructed before it stay written (R256). -/
def unfilterBytes (pred : Byte → Byte → Byte → Byte) : Nat → State → State
  | 0, s => s
  | n + 1, s =>
    match s.streamByte? with
    | none => corruptFile s
    | some f => unfilterBytes pred n (s.putRaw pred f)

/-- The row's bytes `0 .. SL-1`, all under one tag (R120). -/
def unfilterRow (pred : Byte → Byte → Byte → Byte) (s : State) : State :=
  unfilterBytes pred s.SL { s with i := 0 }

/-- NONE (R125). -/
def execFilterNone (s : State) : Host.Outcome State Fault Refusal := .next (unfilterRow predNone s)

/-- SUB (R126). -/
def execFilterSub (s : State) : Host.Outcome State Fault Refusal := .next (unfilterRow predSub s)

/-- UP (R127). -/
def execFilterUp (s : State) : Host.Outcome State Fault Refusal := .next (unfilterRow predUp s)

/-- AVG (R128). -/
def execFilterAvg (s : State) : Host.Outcome State Fault Refusal := .next (unfilterRow predAvg s)

/-- PAETH (R130). -/
def execFilterPaeth (s : State) : Host.Outcome State Fault Refusal := .next (unfilterRow predPaeth s)

end Sys2Proof.Machine
end

