-- ==== Sys2Proof/Machine/Dispatch.lean ====
section
/-! DEFINITION. The meaning of every instruction, one arm per constructor. -/

namespace Sys2Proof.Machine

def exec (i : Instr) (s : State) : Host.Outcome State Fault Refusal :=
  match i with
  | .filterNone => Sys2Proof.Machine.execFilterNone s
  | .filterSub => Sys2Proof.Machine.execFilterSub s
  | .filterUp => Sys2Proof.Machine.execFilterUp s
  | .filterAvg => Sys2Proof.Machine.execFilterAvg s
  | .filterPaeth => Sys2Proof.Machine.execFilterPaeth s
  | .start rest => Sys2Proof.Machine.execStart rest s
  | .clear rest => Sys2Proof.Machine.execClear rest s

end Sys2Proof.Machine
end

