-- ==== Sys2Proof/Machine/Engine.lean ====
section
/-! DEFINITION. The engine: the decode sequence of 44_host_commands.md R236 with the configuration check (R233) and the
derived parameters (R234), the pass procedure (R165), the palette expansion (R190, R191) and the compositor (R210 to
R215). One action of the engine is one pass through one stage; no host observation tells the actions of a decode apart
(R239). -/

namespace Sys2Proof.Machine

/-! Steps 1 to 3. -/

/-- `colors` and `hasAlpha` of a legal COLOR_TYPE (R95). -/
def colorInfo (colorType : Byte) : Option (Nat × Bool) :=
  match colorType.toNat with
  | 0 => some (1, false)
  | 2 => some (3, false)
  | 3 => some (1, false)
  | 4 => some (1, true)
  | 6 => some (3, true)
  | _ => none

/-- `pixelBytes = pixelBitlength / 8`, with `pixelBitlength = 8 × (colors + (hasAlpha ? 1 : 0))` (R234). -/
def pixelBytesOf (colors : Nat) (hasAlpha : Bool) : Nat := 8 * (colors + (if hasAlpha then 1 else 0)) / 8

/-- Check 7 (R233): a capacity that the configuration exceeds, all products exact. -/
def State.exceedsCapacity (s : State) (pb : Nat) : Bool :=
  decide (s.caps.inCap < s.L ∨ s.caps.rasterCap < s.W * s.H * pb ∨ s.caps.outCap < s.W * s.H * 4 ∨
    s.caps.lineCap < s.W * pb)

/-- The configuration check (R233): the number of the first check that fails. -/
def State.configCheck (s : State) : Option Nat :=
  if s.format.bitDepth ≠ 8 then some 1
  else
    match colorInfo s.format.colorType with
    | none => some 2
    | some (colors, hasAlpha) =>
      if s.format.interlace ≠ 0 ∧ s.format.interlace ≠ 1 then some 3
      else if s.W = 0 ∨ s.H = 0 then some 4
      else if s.format.colorType = 3 ∧ s.NP = 0 then some 5
      else if 256 < s.NP ∨ 256 < s.NT then some 6
      else if s.exceedsCapacity (pixelBytesOf colors hasAlpha) then some 7
      else none

/-- The derived parameters as GEOM holds them (R234); 0 for a COLOR_TYPE that check 2 refuses. -/
def State.derivedGeom (s : State) : Geom :=
  match colorInfo s.format.colorType with
  | none => ⟨0, 0, false, false⟩
  | some (colors, hasAlpha) =>
    ⟨BitVec.ofNat 8 (pixelBytesOf colors hasAlpha), BitVec.ofNat 2 colors, hasAlpha, decide (0 < s.NP)⟩

/-- Steps 1 to 3 of R236: `POS <- 0`, the configuration check, and GEOM. -/
def configure (s : State) : State :=
  let s0 := { s with pos := 0 }
  match s0.configCheck with
  | some n => raiseFault .configError 0 (BitVec.ofNat 32 n) s0
  | none => { s0 with geom := s0.derivedGeom, pass := 0, stage := .beginPass }

/-! Step 4: the passes. -/

/-- After the last pass, step 5: the table first if the decode is indexed (R236). -/
def afterPasses (s : State) : State :=
  { s with stage := if s.geom.indexed then .expand else .composite, k := 0 }

/-- The beginning of `RunPass` (R165): an empty pass is skipped entirely (R164); after the last pass comes step 5. -/
def beginPass (s : State) : State :=
  if s.pass < s.passes.length then
    if s.subWidth = 0 ∨ s.subHeight = 0 then { s with pass := s.pass + 1 }
    else { s with r := 0, stage := .row }
  else afterPasses s

/-- The row is in CUR: its scatter begins, unless the row ended the decode in a fault (R165). -/
def afterRow (s : State) : State :=
  if s.status.busy then { s with stage := .scatter, c := 0 } else s

/-- An outcome that goes on goes on with `f`. -/
def onNext (f : State → State) : Host.Outcome State Fault Refusal → Host.Outcome State Fault Refusal
  | .next s => .next (f s)
  | .fault e => .fault e
  | .refused e => .refused e

/-- `UnfilterRow` (R120): the tag is read at the cursor like every stream byte (R74, R121), refused if it is illegal
(R122), and otherwise executed. -/
def rowStage (s : State) : Host.Outcome State Fault Refusal :=
  match s.streamByte? with
  | none => .next (corruptFile s)
  | some t =>
    match decode (.tag t) with
    | .instr i => onNext afterRow (exec i s.advance)
    | .illegalTag _ => .next (invalidFilter t s.advance)
    | .noCommand _ => .next (invalidFilter t s.advance)

/-- Where the samples of pixel `c` of row `r` of the pass go (R165, R166). -/
def State.scatterIndex (s : State) : Nat :=
  rasterIndex s.W s.pb (s.geometry.map s.r s.c).1 (s.geometry.map s.r s.c).2

/-- The scatter of one pixel (R165); after the last one the row is retired. -/
def scatterStage (s : State) : State :=
  if s.c < s.subWidth then
    { s.copyBytes .CUR .RASTER (s.c * s.pb) s.scatterIndex s.pb with c := s.c + 1 }
  else { s with stage := .retire }

/-- Row retirement (R132): CUR becomes PREV, and the next row of the pass, or the next pass, begins. -/
def retireStage (s : State) : State :=
  let t := s.copyBytes .CUR .PREV 0 0 s.SL
  if s.r + 1 < s.subHeight then { t with r := s.r + 1, stage := .row }
  else { t with pass := s.pass + 1, stage := .beginPass }

/-! Step 5: the palette expander and the compositor. -/

/-- The alpha of entry `j` of the table (R190). -/
def State.alphaOf (s : State) (j : Nat) : Byte := if j < s.NT then s.load .TRNS j else 255

/-- Entry `j` of the table (R190). -/
def expandEntry (j : Nat) (s : State) : State :=
  let t := s.copyBytes .PLTE .RGBA (3 * j) (4 * j) 3
  t.store .RGBA (4 * j + 3) (t.alphaOf j)

/-- `Expand()` over the first `n` entries (R190). -/
def expandEntries : Nat → State → State
  | 0, s => s
  | n + 1, s => expandEntry n (expandEntries n s)

/-- The memoised expansion (R191): skipped when RGBA_VALID vouches for the table. -/
def expandStage (s : State) : State :=
  let t := if s.rgbaValid then s else { expandEntries s.NP s with rgbaValid := true }
  { t with stage := .composite }

/-- CompositeIndexed (R212, R215). -/
def compositeIndexed (k : Nat) (s : State) : State :=
  let idx := s.load .RASTER k
  if s.NP ≤ idx.toNat then
    raiseFault .paletteIndexOutOfRange (BitVec.ofNat 32 k) (idx.setWidth 32) s
  else s.copyBytes .RGBA .OUT (4 * idx.toNat) (4 * k) 4

/-- The alpha of a pixel that is not indexed (R213, R214): the sample at `a`, or 255. -/
def State.alphaSample (s : State) (a : Nat) : Byte := if s.geom.hasAlpha then s.load .RASTER a else 255

/-- CompositeGray (R213). -/
def compositeGray (k : Nat) (s : State) : State :=
  let v := s.load .RASTER (k * s.pb)
  let a := s.alphaSample (k * s.pb + 1)
  (((s.store .OUT (4 * k) v).store .OUT (4 * k + 1) v).store .OUT (4 * k + 2) v).store .OUT (4 * k + 3) a

/-- CompositeTrue (R214). -/
def compositeTrue (k : Nat) (s : State) : State :=
  let t := s.copyBytes .RASTER .OUT (k * s.pb) (4 * k) 3
  t.store .OUT (4 * k + 3) (t.alphaSample (k * s.pb + 3))

/-- One output pixel, in the mode GEOM records (R210, R211). -/
def compositePixel (k : Nat) (s : State) : State :=
  if s.geom.indexed then compositeIndexed k s
  else if s.geom.colors = 1 then compositeGray k s
  else compositeTrue k s

/-- The composite loop (R211) and, after the last pixel, the end in DONE (R236, step 6). -/
def compositeStage (s : State) : State :=
  if s.k < s.W * s.H then
    let t := compositePixel s.k s
    if t.status.busy then { t with k := s.k + 1 } else t
  else s.finish

/-! The engine's turn. -/

/-- One action of the engine. While IDLE it performs none (R269). -/
def engineAction (s : State) : Host.Outcome State Fault Refusal :=
  if s.status.busy then
    match s.stage with
    | .configure => .next (configure s)
    | .beginPass => .next (beginPass s)
    | .row => rowStage s
    | .scatter => .next (scatterStage s)
    | .retire => .next (retireStage s)
    | .expand => .next (expandStage s)
    | .composite => .next (compositeStage s)
  else .next s

end Sys2Proof.Machine
end

