-- ==== Sys2Proof/Machine/HostPort.lean ====
section
/-! DEFINITION. The host's accesses to the register file and the windows (20_memory.md R65, R66, R68; 44_host_commands.md
R232, R241), and the reset input (R280). -/

namespace Sys2Proof.Machine

/-- The register map (R26). A misaligned offset and the reserved offsets name no register. -/
def Reg.ofOffset (offset : BitVec 6) : Option Reg :=
  match offset.toNat with
  | 0x00 => some .CTRL
  | 0x04 => some .STATUS
  | 0x08 => some .IRQ_EN
  | 0x0C => some .ERR_CODE
  | 0x10 => some .ERR_POS
  | 0x14 => some .ERR_VAL
  | 0x18 => some .WIDTH
  | 0x1C => some .HEIGHT
  | 0x20 => some .FORMAT
  | 0x24 => some .STREAM_LEN
  | 0x28 => some .PAL_COUNT
  | 0x2C => some .TRNS_COUNT
  | 0x30 => some .POS
  | 0x34 => some .GEOM
  | _ => none

/-- The register an access reaches: only a whole-word access reaches one (R65). -/
def addressedReg (offset : BitVec 6) (width : AccessWidth) : Option Reg :=
  if width = .word then Reg.ofOffset offset else none

/-- FORMAT as a word (R35). -/
def ImageFormat.word (f : ImageFormat) : Word := 0#8 ++ f.interlace ++ f.colorType ++ f.bitDepth

/-- The fields of a written FORMAT; the reserved bits are dropped (R35, R232). -/
def ImageFormat.ofWord (v : Word) : ImageFormat := ⟨v.extractLsb' 0 8, v.extractLsb' 8 8, v.extractLsb' 16 8⟩

/-- GEOM as a word (R40, R234). -/
def Geom.word (g : Geom) : Word :=
  0#20 ++ BitVec.ofBool g.indexed ++ BitVec.ofBool g.hasAlpha ++ g.colors ++ g.pixelBytes

/-- What a register holds for a reader; CTRL reads 0 (R27). -/
def State.regWord (s : State) : Reg → Word
  | .CTRL => 0
  | .STATUS => s.status.word
  | .IRQ_EN => flagBit s.irqEn 0
  | .ERR_CODE => s.errCode.setWidth 32
  | .ERR_POS => s.errPos
  | .ERR_VAL => s.errVal
  | .WIDTH => s.width
  | .HEIGHT => s.height
  | .FORMAT => s.format.word
  | .STREAM_LEN => s.streamLen
  | .PAL_COUNT => s.palCount.setWidth 32
  | .TRNS_COUNT => s.trnsCount.setWidth 32
  | .POS => s.pos
  | .GEOM => s.geom.word

/-- An accepted write to a register (R232): the written bits of a read-write register's fields are stored, a read-only
register ignores it (R41), and the two counts also clear RGBA_VALID (R43). CTRL holds nothing (R27); its commands are
`hostCommand`. -/
def State.writeReg (s : State) (g : Reg) (v : Word) : State :=
  match g with
  | .CTRL => s
  | .STATUS => s
  | .IRQ_EN => { s with irqEn := v.getLsbD 0 }
  | .ERR_CODE => s
  | .ERR_POS => s
  | .ERR_VAL => s
  | .WIDTH => { s with width := v }
  | .HEIGHT => { s with height := v }
  | .FORMAT => { s with format := ImageFormat.ofWord v }
  | .STREAM_LEN => { s with streamLen := v }
  | .PAL_COUNT => { s with palCount := v.setWidth 9, rgbaValid := false }
  | .TRNS_COUNT => { s with trnsCount := v.setWidth 9, rgbaValid := false }
  | .POS => s
  | .GEOM => s

/-- A word written to CTRL (R97): a command is executed; no command has no effect, but is a lost write while BUSY. -/
def hostCommand (v : Word) (s : State) : Host.Outcome State Fault Refusal :=
  match decode (.ctrl v) with
  | .instr i => exec i s
  | .illegalTag _ => .next s.ignoredWrite
  | .noCommand _ => .next s.ignoredWrite

/-- A host write to the register file (R65, R232, R241): IRQ_EN is accepted in either phase, every other register only
while IDLE. -/
def hostWriteReg (offset : BitVec 6) (width : AccessWidth) (v : Word) (s : State) :
    Host.Outcome State Fault Refusal :=
  match addressedReg offset width with
  | none => .next s.ignoredWrite
  | some .CTRL => hostCommand v s
  | some .IRQ_EN => .next (s.writeReg .IRQ_EN v)
  | some g => .next (if s.status.busy then s.lostWrite else s.writeReg g v)

/-- One unspecified value has been drawn. -/
def State.drawn (s : State) : State := { s with draws := s.draws + 1 }

/-- The bus answers the host. -/
def State.reply (s : State) (a : Reply) : State := { s with bus := some a }

/-- A host read of the register file (R65, R241): 0 where no register is reached; while BUSY, POS reads as any value. -/
def hostReadReg (offset : BitVec 6) (width : AccessWidth) (s : State) : State :=
  match addressedReg offset width with
  | none => s.reply (.word 0)
  | some .POS => if s.status.busy then (s.reply (.word (Config.busyWord s.draws))).drawn else s.reply (.word s.pos)
  | some g => s.reply (.word (s.regWord g))

/-- An accepted write to a window at an index inside it (R232): IN, PLTE and TRNS store the byte, and PLTE and TRNS
clear RGBA_VALID (R43); the result windows are read-only to the host (R66). -/
def State.writeWindow (s : State) (w : Window) (a : Nat) (v : Byte) : State :=
  match w with
  | .IN => s.store .IN a v
  | .PLTE => { s.store .PLTE a v with rgbaValid := false }
  | .TRNS => { s.store .TRNS a v with rgbaValid := false }
  | .RASTER => s
  | .RGBA => s
  | .OUT => s

/-- A host write to a window (R66, R232, R241). -/
def hostWriteWindow (w : Window) (a : Nat) (v : Byte) (s : State) : State :=
  if s.status.busy then s.lostWrite
  else if a < s.caps.size w.space then s.writeWindow w a v
  else s

/-- How many bytes of a window the host may rely on: all of an input window; of a result window, what the last decode
left specified (R238, R242). -/
def State.specified (s : State) : Window → Nat
  | .IN => s.caps.inCap
  | .PLTE => 768
  | .TRNS => 256
  | .RASTER => s.shown.raster
  | .RGBA => s.shown.rgba
  | .OUT => s.shown.out

/-- Whether a window holds inputs, which the host can read in either phase (R241(e)). -/
def isInputWindow : Window → Bool
  | .IN => true
  | .PLTE => true
  | .TRNS => true
  | .RASTER => false
  | .RGBA => false
  | .OUT => false

/-- A host read of a window (R66, R241): 0 outside it; any value of a result window while BUSY; any value of a result
byte that the last decode left unspecified (U4, U5, U6); otherwise the byte it holds. -/
def hostReadWindow (w : Window) (a : Nat) (s : State) : State :=
  if s.caps.size w.space ≤ a then s.reply (.byte 0)
  else if s.status.busy ∧ isInputWindow w = false then (s.reply (.byte (Config.busyByte s.draws))).drawn
  else if a < s.specified w then s.reply (.byte (s.load w.space a))
  else s.reply (.byte (Config.undefinedByte w.space s.draws a))

/-- One access of the host. -/
def hostAccess (a : HostAccess) (s : State) : Host.Outcome State Fault Refusal :=
  match a with
  | .writeReg offset width v => hostWriteReg offset width v s
  | .readReg offset width => .next (hostReadReg offset width s)
  | .writeWindow w idx v => .next (hostWriteWindow w idx v s)
  | .readWindow w idx => .next (hostReadWindow w idx s)

/-- The reset input (R280): the reset state, whatever the PRB was doing; the turns to come stay, and every byte of memory
is unspecified anew. -/
def hardReset (s : State) : State :=
  { State.resetWith s.caps with schedule := s.schedule, resets := s.resets + 1, draws := s.draws + 1 }

end Sys2Proof.Machine
end

