-- ==== Sys2Proof/Machine/Step.lean ====
section
/-! DEFINITION. The step of the machine: the next turn of the schedule, or the engine's when there is none; and how the
host of this pipeline places one instruction where the next step runs it. -/

namespace Sys2Proof.Machine

/-- One step. The schedule says which agent moves next (R25): any number of host accesses may fall between START and the
end of a decode (R239, R291); when no turn is left the engine moves, so that every decode ends (R237). -/
def step (s : State) : Host.Outcome State Fault Refusal :=
  match s.schedule with
  | [] => engineAction s
  | .engine :: rest => engineAction { s with schedule := rest }
  | .host a :: rest => hostAccess a { s with schedule := rest }
  | .reset :: rest => .next (hardReset { s with schedule := rest })

/-- A decode of a 1×1 grayscale image (R161: pass 0) about to fetch the tag of its one record from `IN[0]`, the data byte
after it 0, and the engine's turn next. -/
def State.withRecord (s : State) (t : Byte) : State :=
  { s with
    schedule := .engine :: s.schedule
    status := { s.status with busy := true, done := false, fault := false }
    width := 1
    height := 1
    format := ⟨8, 0, 0⟩
    streamLen := 2
    pos := 0
    geom := ⟨1, 1, false, false⟩
    pass := 0
    r := 0
    stage := .row
    mem := s.mem.put .IN (((s.mem.get .IN).set 0 t).set 1 0) }

/-- The instruction of one word of the opcode table where the next step runs it: a tag in a stream that a decode is about
to fetch from, or a host write to CTRL as the next turn (notes/assumptions/13.md). -/
def State.withFetchWord (s : State) (nbits w : Nat) : State :=
  match tableBits nbits w with
  | .tag t => s.withRecord t
  | .ctrl v => { s with schedule := .host (.writeReg 0x00#6 .word v) :: s.schedule }

end Sys2Proof.Machine
end

