-- ==== Sys2Proof/Safety.lean ====
section
/-! DEFINITION. What the statements about this machine are said in: whose turn it is, the invariants of a running decode,
the count of stream bytes a decode consumes (R94), the forward filter (R134), and the rules that several statements share.
Nothing here is part of the machine. -/

namespace Sys2Proof.Machine

/-- The state from which the engine moves, when the next step is the engine's. -/
def State.engineTurn (s : State) : Option State :=
  match s.schedule with
  | [] => some s
  | .engine :: rest => some { s with schedule := rest }
  | .host _ :: _ => none
  | .reset :: _ => none

/-- The state from which the host moves and its access, when the next step is the host's. -/
def State.hostTurn (s : State) : Option (HostAccess × State) :=
  match s.schedule with
  | [] => none
  | .engine :: _ => none
  | .host a :: rest => some (a, { s with schedule := rest })
  | .reset :: _ => none

/-- A byte has been written since the last reset. -/
def State.written (s : State) (sp : Space) (a : Nat) : Prop := ((s.mem.get sp).get? a).isSome = true

/-! The invariant of the machine. -/

/-- Entry `j` of RGBA is the expansion of the palette and the transparency list (R190). -/
def State.EntryHolds (s : State) (j : Nat) : Prop :=
  s.load .RGBA (4 * j) = s.load .PLTE (3 * j) ∧
  s.load .RGBA (4 * j + 1) = s.load .PLTE (3 * j + 1) ∧
  s.load .RGBA (4 * j + 2) = s.load .PLTE (3 * j + 2) ∧
  s.load .RGBA (4 * j + 3) = (if j < s.NT then s.load .TRNS j else 255)

/-- RGBA holds the table of the current palette and transparency list (R43, R75). -/
def State.TableHolds (s : State) : Prop := ∀ j, j < s.NP → s.EntryHolds j

/-- The stage and the counters of a decode fit each other (R22, R165, R211). -/
def State.PlaceOk (s : State) : Prop :=
  match s.stage with
  | .configure => True
  | .beginPass => s.pass ≤ s.passes.length
  | .row => s.pass < s.passes.length ∧ 0 < s.subWidth ∧ s.r < s.subHeight
  | .scatter => s.pass < s.passes.length ∧ 0 < s.subWidth ∧ s.r < s.subHeight ∧ s.c ≤ s.subWidth
  | .retire => s.pass < s.passes.length ∧ 0 < s.subWidth ∧ s.r < s.subHeight
  | .expand => s.geom.indexed = true ∧ s.k = 0
  | .composite => s.k ≤ s.W * s.H ∧ (s.geom.indexed = true → s.rgbaValid = true)

/-- A decode past its configuration check: the check passes (its inputs are frozen, R241), GEOM is what step 3 wrote
(R234), and the cursor has not passed the end of the stream (R21). -/
structure State.Running (s : State) : Prop where
  checked : s.configCheck = none
  geom : s.geom = s.derivedGeom
  cursor : s.pos.toNat ≤ s.L
  place : s.PlaceOk

/-- At most one of BUSY, DONE and FAULT is 1 (R24). -/
def State.OneFlag (s : State) : Prop :=
  (s.status.busy && s.status.done) = false ∧ (s.status.busy && s.status.fault) = false ∧
    (s.status.done && s.status.fault) = false

/-- The invariant: the capacities meet R6, every memory is in canonical form and inside its size (R67), at most one flag
is up (R24), a running decode is well placed, and RGBA_VALID tells the truth (R43). -/
structure State.Inv (s : State) : Prop where
  caps : s.caps.wf
  canonical : ∀ sp, (s.mem.get sp).wf
  inside : ∀ sp x, x ∈ s.mem.get sp → x.1 < s.caps.size sp
  oneFlag : s.OneFlag
  running : s.status.busy = true → s.stage ≠ .configure → s.Running
  table : s.rgbaValid = true → s.TableHolds

/-! The stream bytes of a decode (R94). -/

/-- The stream bytes of one pass: none for an empty one (R164). -/
def passBytes (width height pb : Nat) (g : PassGeometry) : Nat :=
  if subDim width g.x0 g.dx = 0 ∨ subDim height g.y0 g.dy = 0 then 0
  else subDim height g.y0 g.dy * (1 + pb * subDim width g.x0 g.dx)

/-- `N` of R94 over a list of passes. -/
def streamBytes (width height pb : Nat) (gs : List PassGeometry) : Nat :=
  (gs.map (passBytes width height pb)).sum

/-- The IN index of the record of row `r` of pass `q`: the records of all passes follow one another with no gap (R62,
R90, R167). -/
def State.recordStart (s : State) (q r : Nat) : Nat :=
  streamBytes s.W s.H s.pb (s.passes.take q) +
    r * (1 + s.pb * subDim s.W (s.passes.getD q singlePass).x0 (s.passes.getD q singlePass).dx)

/-- The stream bytes a decode has consumed where it stands. -/
def State.consumed (s : State) : Nat :=
  match s.stage with
  | .configure => 0
  | .beginPass => s.recordStart s.pass 0
  | .row => s.recordStart s.pass s.r
  | .scatter => s.recordStart s.pass (s.r + 1)
  | .retire => s.recordStart s.pass (s.r + 1)
  | .expand => streamBytes s.W s.H s.pb s.passes
  | .composite => streamBytes s.W s.H s.pb s.passes

/-- The cursor of a running decode stands where the records end that it has consumed (R94, R167). -/
def State.CursorOk (s : State) : Prop :=
  s.status.busy = true → s.stage ≠ .configure → s.pos.toNat = s.consumed

/-! What a decode has written. -/

/-- Pixel `c` of row `r` of pass `q` has been scattered where the decode stands. -/
def State.Scattered (s : State) (q r c : Nat) : Prop :=
  match s.stage with
  | .configure => False
  | .beginPass => q < s.pass
  | .row => q < s.pass ∨ (q = s.pass ∧ r < s.r)
  | .scatter => q < s.pass ∨ (q = s.pass ∧ (r < s.r ∨ (r = s.r ∧ c < s.c)))
  | .retire => q < s.pass ∨ (q = s.pass ∧ r ≤ s.r)
  | .expand => True
  | .composite => True

/-- `g` is pass `q` of the list and has a pixel `c` in a row `r` (R162, R163). -/
def State.HasPixel (s : State) (q : Nat) (g : PassGeometry) (r c : Nat) : Prop :=
  s.passes[q]? = some g ∧ r < subDim s.H g.y0 g.dy ∧ c < subDim s.W g.x0 g.dx

/-- The RASTER index of sample 0 of pixel `c` of row `r` of a pass (R165). -/
def State.pixelIndex (s : State) (g : PassGeometry) (r c : Nat) : Nat :=
  ((g.y0 + r * g.dy) * s.W + (g.x0 + c * g.dx)) * s.pb

/-- Every sample a running decode has scattered, and every output byte of the pixels it has composited, is written (R168,
R211, R235). -/
def State.ResultsWritten (s : State) : Prop :=
  s.status.busy = true → s.stage ≠ .configure →
    (∀ q g r c j, s.HasPixel q g r c → s.Scattered q r c → j < s.pb → s.written .RASTER (s.pixelIndex g r c + j)) ∧
    (s.stage = .composite → ∀ a, a < 4 * s.k → s.written .OUT a)

/-! The forward filter (R134). -/

/-- The predictor of a filter instruction (R125 to R130). -/
def predictorOf : Instr → Byte → Byte → Byte → Byte
  | .filterNone => predNone
  | .filterSub => predSub
  | .filterUp => predUp
  | .filterAvg => predAvg
  | .filterPaeth => predPaeth
  | .start _ => predNone
  | .clear _ => predNone

/-- The filtered byte of byte `n` of a raw row, `above` being the raw row before it and 0 in a first row (R134). -/
def forwardByte (i : Instr) (pb : Nat) (raw above : Nat → Byte) (n : Nat) : Byte :=
  raw n - predictorOf i (if pb ≤ n then raw (n - pb) else 0) (above n) (if pb ≤ n then above (n - pb) else 0)

/-- Byte `n` of row `r` of a pass of a raw image, the sample `n mod pb` of its pixel `n div pb` (R63, R166). -/
def State.rawRow (s : State) (raw : Nat → Nat → Nat → Byte) (g : PassGeometry) (r n : Nat) : Byte :=
  raw (g.x0 + n / s.pb * g.dx) (g.y0 + r * g.dy) (n % s.pb)

/-- The raw row above a row of a pass; 0 above the first. -/
def State.rawAbove (s : State) (raw : Nat → Nat → Nat → Byte) (g : PassGeometry) (r n : Nat) : Byte :=
  if 0 < r then s.rawRow raw g (r - 1) n else 0

/-- IN holds the forward-filtered records of a raw image, pass by pass, each row under a tag of its own (R90, R134). -/
def State.EncodedStream (s : State) (raw : Nat → Nat → Nat → Byte) (filter : Nat → Nat → Instr) : Prop :=
  streamBytes s.W s.H s.pb s.passes ≤ s.L ∧
  ∀ q g r, s.passes[q]? = some g → r < subDim s.H g.y0 g.dy → 0 < subDim s.W g.x0 g.dx →
    (filter q r).isRow = true ∧
    tagOf (filter q r) = some (s.load .IN (s.recordStart q r)) ∧
    ∀ n, n < s.pb * subDim s.W g.x0 g.dx →
      s.load .IN (s.recordStart q r + 1 + n) =
        forwardByte (filter q r) s.pb (s.rawRow raw g r) (s.rawAbove raw g r) n

/-- Where a running decode stands, the line buffers and the scattered samples are those of the raw image. -/
def State.Reconstructs (s : State) (raw : Nat → Nat → Nat → Byte) : Prop :=
  (s.stage = .scatter ∨ s.stage = .retire → ∀ n, n < s.SL → s.load .CUR n = s.rawRow raw s.geometry s.r n) ∧
  (s.stage = .row ∨ s.stage = .scatter ∨ s.stage = .retire → 0 < s.r →
    ∀ n, n < s.SL → s.load .PREV n = s.rawRow raw s.geometry (s.r - 1) n) ∧
  (∀ q g r c j, s.HasPixel q g r c → s.Scattered q r c → j < s.pb →
    s.load .RASTER (s.pixelIndex g r c + j) = raw (g.x0 + c * g.dx) (g.y0 + r * g.dy) j)

/-! What two states share. -/

/-- The inputs of a decode (R238) and everything a host can configure, but for IRQ_EN. -/
def SameInputs (s t : State) : Prop :=
  t.width = s.width ∧ t.height = s.height ∧ t.format = s.format ∧ t.streamLen = s.streamLen ∧
  t.palCount = s.palCount ∧ t.trnsCount = s.trnsCount ∧ t.caps = s.caps ∧
  ∀ sp, sp = .IN ∨ sp = .PLTE ∨ sp = .TRNS → ∀ a, t.load sp a = s.load sp a

/-! The tables of the rules, as the statements read them. -/

/-- The tile of R168: the number of the pass that covers column `x mod 8` (within a row of the list) of row `y mod 8`. -/
def tileMap : List (List Nat) :=
  [[1, 6, 4, 6, 2, 6, 4, 6], [7, 7, 7, 7, 7, 7, 7, 7], [5, 6, 5, 6, 5, 6, 5, 6], [7, 7, 7, 7, 7, 7, 7, 7],
   [3, 6, 4, 6, 3, 6, 4, 6], [7, 7, 7, 7, 7, 7, 7, 7], [5, 6, 5, 6, 5, 6, 5, 6], [7, 7, 7, 7, 7, 7, 7, 7]]

/-- One row of the table of R95: `COLOR_TYPE`, `colors`, `hasAlpha`, `pixelBytes`. -/
structure ColorRow where
  colorType : Byte
  colors : Nat
  hasAlpha : Bool
  pixelBytes : Nat
  deriving DecidableEq, Repr

/-- The legal rows of the table of R95. -/
def colorTable : List ColorRow :=
  [⟨0, 1, false, 1⟩, ⟨2, 3, false, 3⟩, ⟨3, 1, false, 1⟩, ⟨4, 1, true, 2⟩, ⟨6, 3, true, 4⟩]

/-- Check `n` of R233 fails, the checks before it passing. -/
def State.CheckFails (s : State) : Nat → Prop
  | 1 => s.format.bitDepth ≠ 8
  | 2 => ∀ row, row ∈ colorTable → s.format.colorType ≠ row.colorType
  | 3 => ¬(s.format.interlace = 0 ∨ s.format.interlace = 1)
  | 4 => s.W = 0 ∨ s.H = 0
  | 5 => s.format.colorType = 3 ∧ s.NP = 0
  | 6 => 256 < s.NP ∨ 256 < s.NT
  | 7 => ∃ row, row ∈ colorTable ∧ s.format.colorType = row.colorType ∧
      (s.caps.inCap < s.L ∨ s.caps.rasterCap < s.W * s.H * row.pixelBytes ∨ s.caps.outCap < s.W * s.H * 4 ∨
        s.caps.lineCap < s.W * row.pixelBytes)
  | _ => False

/-- The four output bytes of pixel `k` are what the mode of the decode makes of RASTER and RGBA (R212 to R214). -/
def State.PixelOk (s : State) (k : Nat) : Prop :=
  if s.geom.indexed = true then
    (s.load .RASTER k).toNat < s.NP ∧
      ∀ n, n < 4 → s.load .OUT (4 * k + n) = s.load .RGBA (4 * (s.load .RASTER k).toNat + n)
  else
    (∀ n, n < 3 → s.load .OUT (4 * k + n) = s.load .RASTER (if s.geom.colors = 1 then k * s.pb else k * s.pb + n)) ∧
    s.load .OUT (4 * k + 3) =
      (if s.geom.hasAlpha = true then s.load .RASTER (if s.geom.colors = 1 then k * s.pb + 1 else k * s.pb + 3)
       else 255)

/-- While a decode composites, the pixels before `k` are done. -/
def State.Composited (s : State) : Prop :=
  s.status.busy = true → s.stage = .composite → ∀ k, k < s.k → s.PixelOk k

/-- Two states at the beginning of a decode with the same inputs, each in the range that R238 gives it, and no turn but the
engine's to come. -/
def SameDecode (s t : State) : Prop :=
  t.width = s.width ∧ t.height = s.height ∧ t.format = s.format ∧ t.streamLen = s.streamLen ∧
  t.palCount = s.palCount ∧ t.trnsCount = s.trnsCount ∧ t.caps = s.caps ∧
  (∀ a, a < s.L → t.load .IN a = s.load .IN a) ∧
  (∀ a, a < 3 * s.NP → t.load .PLTE a = s.load .PLTE a) ∧
  (∀ a, a < min s.NT s.NP → t.load .TRNS a = s.load .TRNS a) ∧
  t.status = s.status ∧ t.stage = s.stage ∧ t.geom = s.geom ∧ t.errCode = s.errCode ∧
  t.errPos = s.errPos ∧ t.errVal = s.errVal ∧ s.schedule = [] ∧ t.schedule = []

/-- The rule that the five filter instructions share (R120 to R124): the row of `SL` bytes at the cursor, with the
predictor given as an exact number. If the stream holds the whole row, every byte is reconstructed and the cursor has
passed the row; if not, the decode ends in CORRUPT_FILE with the cursor at the end of the stream (R251), and the bytes
before the missing one are reconstructed. -/
def RowRule (i : Instr) (predict : Byte → Byte → Byte → Nat) : Prop :=
  ∀ s : State, s.pos.toNat ≤ s.L → ∃ t, exec i s = .next t ∧
    (∀ n, n < s.SL → s.pos.toNat + n < s.L →
      (t.load .CUR n).toNat =
        ((s.load .IN (s.pos.toNat + n)).toNat +
          predict (if s.pb ≤ n then t.load .CUR (n - s.pb) else 0)
            (if 0 < s.r then s.load .PREV n else 0)
            (if 0 < s.r ∧ s.pb ≤ n then s.load .PREV (n - s.pb) else 0)) % 256) ∧
    (s.pos.toNat + s.SL ≤ s.L → t.pos.toNat = s.pos.toNat + s.SL ∧ t.status = s.status ∧
      t.errCode = s.errCode ∧ t.errPos = s.errPos ∧ t.errVal = s.errVal) ∧
    (s.L < s.pos.toNat + s.SL → t.pos = s.streamLen ∧ t.status = { s.status with busy := false, fault := true } ∧
      t.errCode = 1 ∧ t.errPos = s.streamLen ∧ t.errVal = 0)

end Sys2Proof.Machine
end

