-- ==== Sys2Proof/Certificates/Slice0/Obligations.lean ====
section
/-! DEFINITION. The statements about this model, for the provers. Each docstring names the rules of spec/ it comes from. A
statement whose basis is 'derived' rests on a rule in part, or on the model's own form of it; those that rest on a choice
of the model name its log entry. -/

open Sys2Proof Sys2Proof.Machine

/-! Encoding. -/

/-- R92: the five legal tags, and every other tag illegal. -/
def Obligations.TagsDecode : Prop :=
  decode (.tag 0x00#8) = .instr .filterNone ∧ decode (.tag 0x01#8) = .instr .filterSub ∧
  decode (.tag 0x02#8) = .instr .filterUp ∧ decode (.tag 0x03#8) = .instr .filterAvg ∧
  decode (.tag 0x04#8) = .instr .filterPaeth ∧
  ∀ t : Byte, 5 ≤ t.toNat → decode (.tag t) = .illegalTag t

/-- R97: bit 0 set is START, bits 1:0 = 0b10 is CLEAR, 0b00 is no command, whatever bits 31:2 hold. -/
def Obligations.CtrlValuesDecode : Prop :=
  ∀ v : Word,
    (v.toNat % 2 = 1 → ∃ rest, decode (.ctrl v) = .instr (.start rest)) ∧
    (v.toNat % 4 = 2 → ∃ rest, decode (.ctrl v) = .instr (.clear rest)) ∧
    (v.toNat % 4 = 0 → decode (.ctrl v) = .noCommand v)

/-- R92, R97: the decoder reads exactly the encoder's word as a well-formed instruction, with every ignored bit of a
command at every value. -/
def Obligations.DecodeEncodeAgree : Prop :=
  ∀ (i : Instr) (e : Encoded), i.wellFormed = true → (decode e = .instr i ↔ encode i = e)

/-- R90, R94: the assembled records of a pass stand one after another, `1 + SL` bytes each, the tag first. -/
def Obligations.RecordsFollowOneAnother : Prop :=
  ∀ (sl : Nat) (rs : List Record), (∀ x, x ∈ rs → x.wellFormed sl = true) →
    (assemble rs).length = rs.length * (1 + sl) ∧
    ∀ j x, rs[j]? = some x →
      (assemble rs)[j * (1 + sl)]? = tagOf x.op ∧
      ∀ n, n < sl → (assemble rs)[j * (1 + sl) + 1 + n]? = x.data[n]?

/-! The step. -/

/-- A step whose turn is the engine's, at the beginning of a record, runs the instruction that the tag at the cursor
decodes to, with the cursor past the tag, and then goes on to the scatter (R120, R74, R165). -/
def Obligations.StepRunsFetchedTag : Prop :=
  ∀ (s s' : State) (i : Instr), s.engineTurn = some s' → s'.status.busy = true → s'.stage = .row →
    s'.pos.toNat < s'.L → decode (.tag (s'.load .IN s'.pos.toNat)) = .instr i → i.wellFormed = true →
    step s = onNext afterRow (exec i { s' with pos := s'.pos + 1 })

/-- A step whose turn is a host write of a word to CTRL runs the command that the word decodes to (R97). -/
def Obligations.StepRunsWrittenCommand : Prop :=
  ∀ (s s' : State) (v : Word) (i : Instr), s.hostTurn = some (.writeReg 0x00#6 .word v, s') →
    decode (.ctrl v) = .instr i → i.wellFormed = true → step s = exec i s'

/-- R122: an illegal tag is consumed, no byte is written, and the decode ends in INVALID_FILTER with the tag's index and
value. -/
def Obligations.IllegalTagFaults : Prop :=
  ∀ s s' : State, s.engineTurn = some s' → s'.status.busy = true → s'.stage = .row → s'.pos.toNat < s'.L →
    5 ≤ (s'.load .IN s'.pos.toNat).toNat →
    ∃ t, step s = .next t ∧ t.errCode = 2 ∧ t.errPos = s'.pos ∧
      t.errVal.toNat = (s'.load .IN s'.pos.toNat).toNat ∧ t.pos.toNat = s'.pos.toNat + 1 ∧ t.mem = s'.mem ∧
      t.status = { s'.status with busy := false, fault := true }

/-- R121, R251, R260: a record whose tag is missing ends the decode in CORRUPT_FILE, and nothing is written. -/
def Obligations.MissingTagFaults : Prop :=
  ∀ s s' : State, s.engineTurn = some s' → s'.status.busy = true → s'.stage = .row → s'.L ≤ s'.pos.toNat →
    ∃ t, step s = .next t ∧ t.errCode = 1 ∧ t.errPos = s'.streamLen ∧ t.errVal = 0 ∧ t.pos = s'.pos ∧
      t.mem = s'.mem ∧ t.status = { s'.status with busy := false, fault := true }

/-- No step of this machine stops: the faults of the PRB end a decode and leave the engine IDLE (R256, R261, R237). -/
def Obligations.EveryStepGoesOn : Prop := ∀ s : State, ∃ t, step s = .next t

/-! The filter instructions. -/

/-- R125: `CUR[i] <- f[i]`. -/
def Obligations.NoneRow : Prop :=
  encode .filterNone = .tag 0x00#8 ∧ RowRule .filterNone (fun _ _ _ => 0)

/-- R126: `CUR[i] <- (f[i] + left) mod 256`. -/
def Obligations.SubRow : Prop :=
  encode .filterSub = .tag 0x01#8 ∧ RowRule .filterSub (fun a _ _ => a.toNat)

/-- R127: `CUR[i] <- (f[i] + upper) mod 256`. -/
def Obligations.UpRow : Prop :=
  encode .filterUp = .tag 0x02#8 ∧ RowRule .filterUp (fun _ b _ => b.toNat)

/-- R128: `CUR[i] <- (f[i] + (left + upper) div 2) mod 256`, the sum exact. -/
def Obligations.AvgRow : Prop :=
  encode .filterAvg = .tag 0x03#8 ∧ RowRule .filterAvg (fun a b _ => (a.toNat + b.toNat) / 2)

/-- R130: `CUR[i] <- (f[i] + PaethPredictor(left, upper, upperLeft)) mod 256`. -/
def Obligations.PaethRow : Prop :=
  encode .filterPaeth = .tag 0x04#8 ∧ RowRule .filterPaeth (fun a b c => (predPaeth a b c).toNat)

/-- R129, with the deviations as R133 writes them: `|b - c|`, `|a - c|` and `|a + b - 2c|`; ties go to left, then upper. -/
def Obligations.PaethPredictorTieBreak : Prop :=
  ∀ a b c : Byte,
    let pa := ((b.toNat : Int) - c.toNat).natAbs
    let pb := ((a.toNat : Int) - c.toNat).natAbs
    let pc := ((a.toNat : Int) + b.toNat - 2 * c.toNat).natAbs
    (pa ≤ pb ∧ pa ≤ pc → predPaeth a b c = a) ∧
    (¬(pa ≤ pb ∧ pa ≤ pc) ∧ pb ≤ pc → predPaeth a b c = b) ∧
    (¬(pa ≤ pb ∧ pa ≤ pc) ∧ ¬pb ≤ pc → predPaeth a b c = c)

/-- R130, corner cases: in a first row PAETH predicts left like SUB, in a first pixel it predicts upper like UP. -/
def Obligations.PaethAtTheEdges : Prop :=
  ∀ a b : Byte, predPaeth a 0 0 = predSub a 0 0 ∧ predPaeth 0 b 0 = predUp 0 b 0

/-- R24, R67, R120: the frame of the five filter instructions. Only the first `SL` bytes of CUR, the cursor and the byte
counter change; the report and BUSY and FAULT change only when the stream does not hold the row. -/
def Obligations.FilterFrame : Prop :=
  ∀ (i : Instr) (s t : State), i.isRow = true → exec i s = .next t →
    t = { s with
            mem := t.mem, pos := t.pos, i := t.i, status := t.status, errCode := t.errCode, errPos := t.errPos,
            errVal := t.errVal, shown := t.shown } ∧
    (∀ sp a, ¬(sp = .CUR ∧ a < s.SL) → t.load sp a = s.load sp a) ∧
    t.status.done = s.status.done ∧ t.status.werr = s.status.werr ∧
    (s.pos.toNat + s.SL ≤ s.L → t.status = s.status ∧ t.errCode = s.errCode ∧ t.errPos = s.errPos ∧
      t.errVal = s.errVal ∧ t.shown = s.shown)

/-- R134: a row that the forward filter made from raw bytes is reconstructed exactly, under every filter type. -/
def Obligations.ForwardFilterIsUndone : Prop :=
  ∀ (i : Instr) (s : State) (raw : Nat → Byte), i.isRow = true → s.pos.toNat + s.SL ≤ s.L →
    (∀ n, n < s.SL → s.load .IN (s.pos.toNat + n) = forwardByte i s.pb raw s.upper n) →
    ∃ t, exec i s = .next t ∧ ∀ n, n < s.SL → t.load .CUR n = raw n

/-- R131: a lane of a row depends on that lane of the stream and, below row 0, of the previous row alone. -/
def Obligations.LanesAreIndependent : Prop :=
  ∀ (i : Instr) (s₁ s₂ : State) (lane : Nat), i.isRow = true → s₁.pb = s₂.pb → s₁.SL = s₂.SL → s₁.r = s₂.r →
    s₁.pos.toNat + s₁.SL ≤ s₁.L → s₂.pos.toNat + s₂.SL ≤ s₂.L →
    (∀ n, n < s₁.SL → n % s₁.pb = lane →
      s₁.load .IN (s₁.pos.toNat + n) = s₂.load .IN (s₂.pos.toNat + n) ∧
      (0 < s₁.r → s₁.load .PREV n = s₂.load .PREV n)) →
    ∃ t₁ t₂, exec i s₁ = .next t₁ ∧ exec i s₂ = .next t₂ ∧
      ∀ n, n < s₁.SL → n % s₁.pb = lane → t₁.load .CUR n = t₂.load .CUR n

/-! The passes. -/

/-- R162, R163: the size of a pass is the exact ceiling, and 0 where there is nothing. -/
def Obligations.SubDimIsTheCeiling : Prop :=
  (∀ s : State, s.subWidth = subDim s.W s.geometry.x0 s.geometry.dx ∧
    s.subHeight = subDim s.H s.geometry.y0 s.geometry.dy) ∧
  (∀ n o d : Nat, n ≤ o → subDim n o d = 0) ∧
  (∀ n o d : Nat, 0 < d → o < n → n - o ≤ subDim n o d * d ∧ (subDim n o d - 1) * d < n - o ∧ 0 < subDim n o d)

/-- R166, with what it derives from R162 and R163: the coordinate mapper, its results inside the image, the samples inside RASTER's range, and the identity for
the single pass. -/
def Obligations.MapStaysInsideTheImage : Prop :=
  (∀ (il : Byte) (g : PassGeometry) (w h r c : Nat), g ∈ passList il →
    r < subDim h g.y0 g.dy → c < subDim w g.x0 g.dx →
    g.map r c = (g.x0 + c * g.dx, g.y0 + r * g.dy) ∧ (g.map r c).1 < w ∧ (g.map r c).2 < h ∧
    ∀ pb j, j < pb → rasterIndex w pb (g.map r c).1 (g.map r c).2 + j < w * h * pb) ∧
  (∀ r c, singlePass.map r c = (c, r))

/-- R168: every pixel of an image belongs to exactly one pixel of one Adam7 pass, the pass the tile names. -/
def Obligations.Adam7Partition : Prop :=
  ∀ w h x y : Nat, x < w → y < h →
    (∃ q r c g, adam7[q]? = some g ∧ r < subDim h g.y0 g.dy ∧ c < subDim w g.x0 g.dx ∧ g.map r c = (x, y) ∧
      (tileMap[y % 8]?.bind (fun row => row[x % 8]?)) = some (q + 1)) ∧
    (∀ (q r c : Nat) (g : PassGeometry) (q' r' c' : Nat) (g' : PassGeometry), adam7[q]? = some g →
      adam7[q']? = some g' → g.map r c = (x, y) → g'.map r' c' = (x, y) → q = q' ∧ r = r' ∧ c = c')

/-- R164: an empty pass is skipped: nothing is read, nothing is written, the cursor stays. -/
def Obligations.EmptyPassIsSkipped : Prop :=
  ∀ s s' : State, s.engineTurn = some s' → s'.status.busy = true → s'.stage = .beginPass →
    s'.pass < s'.passes.length → s'.subWidth = 0 ∨ s'.subHeight = 0 → step s = .next { s' with pass := s'.pass + 1 }

/-- R161, R165, R167, R236: a pass that is not empty begins with row 0, and after the last pass comes step 5. -/
def Obligations.PassesRunInOrder : Prop :=
  (passList 1 = [⟨0, 0, 8, 8⟩, ⟨4, 0, 8, 8⟩, ⟨0, 4, 4, 8⟩, ⟨2, 0, 4, 4⟩, ⟨0, 2, 2, 4⟩, ⟨1, 0, 2, 2⟩, ⟨0, 1, 1, 2⟩] ∧
    passList 0 = [⟨0, 0, 1, 1⟩]) ∧
  ∀ s s' : State, s.engineTurn = some s' → s'.status.busy = true → s'.stage = .beginPass →
    (s'.pass < s'.passes.length → 0 < s'.subWidth → 0 < s'.subHeight →
      step s = .next { s' with r := 0, stage := .row }) ∧
    (s'.passes.length ≤ s'.pass →
      step s = .next { s' with stage := if s'.geom.indexed then .expand else .composite, k := 0 })

/-- R165, the scatter of one pixel: its `pb` samples go to `((y0 + r*dy) * width + (x0 + c*dx)) * pb`, and nothing else
changes. -/
def Obligations.ScatterPlacesPixel : Prop :=
  ∀ s s' : State, s.engineTurn = some s' → s'.status.busy = true → s'.stage = .scatter → s'.c < s'.subWidth →
    ∃ t, step s = .next t ∧ t = { s' with mem := t.mem, c := s'.c + 1 } ∧
      (∀ j, j < s'.pb →
        t.load .RASTER (((s'.geometry.y0 + s'.r * s'.geometry.dy) * s'.W +
          (s'.geometry.x0 + s'.c * s'.geometry.dx)) * s'.pb + j) = s'.load .CUR (s'.c * s'.pb + j)) ∧
      (∀ sp a, ¬(sp = .RASTER ∧
          ((s'.geometry.y0 + s'.r * s'.geometry.dy) * s'.W + (s'.geometry.x0 + s'.c * s'.geometry.dx)) * s'.pb ≤ a ∧
          a < ((s'.geometry.y0 + s'.r * s'.geometry.dy) * s'.W + (s'.geometry.x0 + s'.c * s'.geometry.dx)) * s'.pb +
            s'.pb) →
        t.load sp a = s'.load sp a)

/-- R132: after the scatter, `PREV[i] <- CUR[i]` for the whole row, and then the next row or the next pass. -/
def Obligations.RowIsRetired : Prop :=
  ∀ s s' : State, s.engineTurn = some s' → s'.status.busy = true →
    (s'.stage = .scatter → s'.subWidth ≤ s'.c → step s = .next { s' with stage := .retire }) ∧
    (s'.stage = .retire → ∃ t, step s = .next t ∧
      (∀ n, n < s'.SL → t.load .PREV n = s'.load .CUR n) ∧
      (∀ sp a, ¬(sp = .PREV ∧ a < s'.SL) → t.load sp a = s'.load sp a) ∧
      (s'.r + 1 < s'.subHeight → t = { s' with mem := t.mem, r := s'.r + 1, stage := .row }) ∧
      (s'.subHeight ≤ s'.r + 1 → t = { s' with mem := t.mem, pass := s'.pass + 1, stage := .beginPass }))

/-! The palette. -/

/-- R190, R192: the expansion writes the entries `0 .. PAL_COUNT-1` of RGBA and no other byte, and sets RGBA_VALID. -/
def Obligations.ExpansionWritesTheTable : Prop :=
  ∀ s s' : State, s.engineTurn = some s' → s'.status.busy = true → s'.stage = .expand → s'.rgbaValid = false →
    ∃ t, step s = .next t ∧ t = { s' with mem := t.mem, rgbaValid := true, stage := .composite } ∧
      (∀ j, j < s'.NP →
        t.load .RGBA (4 * j) = s'.load .PLTE (3 * j) ∧ t.load .RGBA (4 * j + 1) = s'.load .PLTE (3 * j + 1) ∧
        t.load .RGBA (4 * j + 2) = s'.load .PLTE (3 * j + 2) ∧
        t.load .RGBA (4 * j + 3) = if j < s'.NT then s'.load .TRNS j else 255) ∧
      (∀ sp a, ¬(sp = .RGBA ∧ a < 4 * s'.NP) → t.load sp a = s'.load sp a)

/-- R191, R75: whether the expansion runs or is skipped, the table the compositor will read is that of the decode's palette
and transparency list. -/
def Obligations.SkippedExpansionIsCurrent : Prop :=
  ∀ s s' : State, s.Inv → s.engineTurn = some s' → s'.status.busy = true → s'.stage = .expand →
    ∃ t, step s = .next t ∧ t.TableHolds ∧ t.rgbaValid = true ∧ (s'.rgbaValid = true → t.mem = s'.mem)

/-! The compositor. -/

/-- R212: a pixel in indexed mode. -/
def Obligations.IndexedPixel : Prop :=
  ∀ s s' : State, s.engineTurn = some s' → s'.status.busy = true → s'.stage = .composite → s'.k < s'.W * s'.H →
    s'.geom.indexed = true →
    ((s'.load .RASTER s'.k).toNat < s'.NP → ∃ t, step s = .next t ∧ t = { s' with mem := t.mem, k := s'.k + 1 } ∧
      (∀ n, n < 4 → t.load .OUT (4 * s'.k + n) = s'.load .RGBA (4 * (s'.load .RASTER s'.k).toNat + n)) ∧
      (∀ sp a, ¬(sp = .OUT ∧ 4 * s'.k ≤ a ∧ a < 4 * s'.k + 4) → t.load sp a = s'.load sp a)) ∧
    (s'.NP ≤ (s'.load .RASTER s'.k).toNat → ∃ t, step s = .next t ∧ t.errCode = 3 ∧
      t.errPos = BitVec.ofNat 32 s'.k ∧ t.errVal.toNat = (s'.load .RASTER s'.k).toNat ∧ t.mem = s'.mem ∧
      t.pos = s'.pos ∧ t.status = { s'.status with busy := false, fault := true })

/-- R213: a pixel in grayscale mode. -/
def Obligations.GrayPixel : Prop :=
  ∀ s s' : State, s.engineTurn = some s' → s'.status.busy = true → s'.stage = .composite → s'.k < s'.W * s'.H →
    s'.geom.indexed = false → s'.geom.colors = 1 →
    ∃ t, step s = .next t ∧ t = { s' with mem := t.mem, k := s'.k + 1 } ∧
      (∀ n, n < 3 → t.load .OUT (4 * s'.k + n) = s'.load .RASTER (s'.k * s'.pb)) ∧
      t.load .OUT (4 * s'.k + 3) = (if s'.geom.hasAlpha = true then s'.load .RASTER (s'.k * s'.pb + 1) else 255) ∧
      (∀ sp a, ¬(sp = .OUT ∧ 4 * s'.k ≤ a ∧ a < 4 * s'.k + 4) → t.load sp a = s'.load sp a)

/-- R214: a pixel in truecolor mode. -/
def Obligations.TruecolorPixel : Prop :=
  ∀ s s' : State, s.engineTurn = some s' → s'.status.busy = true → s'.stage = .composite → s'.k < s'.W * s'.H →
    s'.geom.indexed = false → s'.geom.colors = 3 →
    ∃ t, step s = .next t ∧ t = { s' with mem := t.mem, k := s'.k + 1 } ∧
      (∀ n, n < 3 → t.load .OUT (4 * s'.k + n) = s'.load .RASTER (s'.k * s'.pb + n)) ∧
      t.load .OUT (4 * s'.k + 3) = (if s'.geom.hasAlpha = true then s'.load .RASTER (s'.k * s'.pb + 3) else 255) ∧
      (∀ sp a, ¬(sp = .OUT ∧ 4 * s'.k ≤ a ∧ a < 4 * s'.k + 4) → t.load sp a = s'.load sp a)

/-- R211, R236 step 6, R242: after the last pixel the decode ends in DONE, with every memory and every register but STATUS
as it was. The extent of the specified results, `shown`, is the model's own form of R238 and R242 (notes/assumptions/6.md). -/
def Obligations.DecodeEndsInDone : Prop :=
  ∀ s s' : State, s.engineTurn = some s' → s'.status.busy = true → s'.stage = .composite → s'.W * s'.H ≤ s'.k →
    step s = .next { s' with
      status := { s'.status with busy := false, done := true }
      shown := ⟨s'.W * s'.H * s'.pb, if s'.geom.indexed then 4 * s'.NP else 0, 4 * (s'.W * s'.H)⟩ }

/-- R211 to R215: while a decode composites, every pixel before `k` is what its mode makes of RASTER and RGBA. -/
def Obligations.CompositedPixelsStay : Prop :=
  ∀ s t : State, s.Inv → s.Composited → step s = .next t → t.Composited

/-! The configuration. -/

/-- R233, R257: the first check that fails ends the decode in CONFIG_ERROR with its number; nothing is read or written, the
cursor is 0 and GEOM stays. -/
def Obligations.FirstFailingCheckIsReported : Prop :=
  ∀ (s s' : State) (n : Nat), s.engineTurn = some s' → s'.status.busy = true → s'.stage = .configure →
    s'.CheckFails n → (∀ m, m < n → ¬s'.CheckFails m) →
    ∃ t, step s = .next t ∧ t.errCode = 4 ∧ t.errPos = 0 ∧ t.errVal.toNat = n ∧ t.pos = 0 ∧ t.geom = s'.geom ∧
      t.mem = s'.mem ∧ t.status = { s'.status with busy := false, fault := true }

/-- R234, R95, R236 steps 1 to 4: when every check passes, GEOM holds the derived parameters, the cursor is 0, and pass
0 of the list begins. -/
def Obligations.DerivedParameters : Prop :=
  ∀ (s s' : State) (row : ColorRow), s.engineTurn = some s' → s'.status.busy = true → s'.stage = .configure →
    (∀ n, ¬s'.CheckFails n) → row ∈ colorTable → s'.format.colorType = row.colorType →
    ∃ t, step s = .next t ∧ t = { s' with geom := t.geom, pos := 0, pass := 0, stage := .beginPass } ∧
      t.geom.pixelBytes.toNat = row.pixelBytes ∧ t.geom.colors.toNat = row.colors ∧ t.geom.hasAlpha = row.hasAlpha ∧
      (t.geom.indexed = true ↔ 0 < s'.NP) ∧
      t.geom.word.toNat = row.pixelBytes + 256 * row.colors + 1024 * (if row.hasAlpha then 1 else 0) +
        2048 * (if 0 < s'.NP then 1 else 0)

/-! The host commands. -/

/-- R230: START, encoded in bit 0 of the word written to CTRL. That the decode then stands before its step 1 is the model's
field `stage`. -/
def Obligations.StartCommand : Prop :=
  (∀ v : Word, v.toNat % 2 = 1 → ∃ rest, decode (.ctrl v) = .instr (.start rest)) ∧
  ∀ (rest : BitVec 31) (s : State),
    (s.status.busy = true → exec (.start rest) s = .next { s with status := { s.status with werr := true } }) ∧
    (s.status.busy = false → ∃ t, exec (.start rest) s = .next t ∧
      t = { s with
              status := ⟨true, false, false, false⟩, errCode := 0, errPos := 0, errVal := 0,
              geom := ⟨0, 0, false, false⟩, stage := .configure, draws := t.draws })

/-- R231: CLEAR, encoded in bits 1:0 of the word written to CTRL. -/
def Obligations.ClearCommand : Prop :=
  (∀ v : Word, v.toNat % 4 = 2 → ∃ rest, decode (.ctrl v) = .instr (.clear rest)) ∧
  ∀ (rest : BitVec 30) (s : State),
    (s.status.busy = true → exec (.clear rest) s = .next { s with status := { s.status with werr := true } }) ∧
    (s.status.busy = false → exec (.clear rest) s = .next { s with
      status := ⟨false, false, false, false⟩, errCode := 0, errPos := 0, errVal := 0 })

/-! The host's accesses. -/

/-- R241(a), (b): while BUSY every host write is lost and sets WERR, but for a whole-word write to IRQ_EN. -/
def Obligations.BusyWritesAreLost : Prop :=
  ∀ s s' : State, s'.status.busy = true →
    (∀ o w v, s.hostTurn = some (.writeReg o w v, s') → ¬(o = 0x08#6 ∧ w = .word) →
      step s = .next { s' with status := { s'.status with werr := true } }) ∧
    (∀ w a v, s.hostTurn = some (.writeWindow w a v, s') →
      step s = .next { s' with status := { s'.status with werr := true } }) ∧
    (∀ v, s.hostTurn = some (.writeReg 0x08#6 .word v, s') → step s = .next { s' with irqEn := v.getLsbD 0 })

/-- R232, R97, R41, R43, R65, R66: what a host write does while IDLE, register by register and window by window. The words of
CTRL that are commands are StepRunsWrittenCommand, StartCommand and ClearCommand. That an ignored write past the end of PLTE
or TRNS leaves RGBA_VALID as it was is the model's reading (notes/assumptions/9.md). -/
def Obligations.IdleWrites : Prop :=
  ∀ (s s' : State) (v : Word), s'.status.busy = false →
    (s.hostTurn = some (.writeReg 0x00#6 .word v, s') → v.toNat % 4 = 0 → step s = .next s') ∧
    (s.hostTurn = some (.writeReg 0x08#6 .word v, s') → step s = .next { s' with irqEn := v.getLsbD 0 }) ∧
    (s.hostTurn = some (.writeReg 0x18#6 .word v, s') → step s = .next { s' with width := v }) ∧
    (s.hostTurn = some (.writeReg 0x1C#6 .word v, s') → step s = .next { s' with height := v }) ∧
    (s.hostTurn = some (.writeReg 0x20#6 .word v, s') → ∃ t, step s = .next t ∧ t = { s' with format := t.format } ∧
      t.format.bitDepth.toNat = v.toNat % 256 ∧ t.format.colorType.toNat = v.toNat / 256 % 256 ∧
      t.format.interlace.toNat = v.toNat / 65536 % 256) ∧
    (s.hostTurn = some (.writeReg 0x24#6 .word v, s') → step s = .next { s' with streamLen := v }) ∧
    (s.hostTurn = some (.writeReg 0x28#6 .word v, s') →
      step s = .next { s' with palCount := v.setWidth 9, rgbaValid := false }) ∧
    (s.hostTurn = some (.writeReg 0x2C#6 .word v, s') →
      step s = .next { s' with trnsCount := v.setWidth 9, rgbaValid := false }) ∧
    (∀ o w, s.hostTurn = some (.writeReg o w v, s') →
      o ∉ [0x00#6, 0x08#6, 0x18#6, 0x1C#6, 0x20#6, 0x24#6, 0x28#6, 0x2C#6] ∨ w ≠ .word → step s = .next s') ∧
    (∀ a b, s.hostTurn = some (.writeWindow .IN a b, s') → a < s'.caps.inCap → step s = .next (s'.store .IN a b)) ∧
    (∀ a b, s.hostTurn = some (.writeWindow .PLTE a b, s') → a < 768 →
      step s = .next { s'.store .PLTE a b with rgbaValid := false }) ∧
    (∀ a b, s.hostTurn = some (.writeWindow .TRNS a b, s') → a < 256 →
      step s = .next { s'.store .TRNS a b with rgbaValid := false }) ∧
    (∀ w a b, s.hostTurn = some (.writeWindow w a b, s') →
      w = .RASTER ∨ w = .RGBA ∨ w = .OUT ∨ s'.caps.size w.space ≤ a → step s = .next s')

/-- R26 to R41, R65, R68, R241(c), (d): what a host read of the register file returns, and that it changes nothing but
the bus reply (and, for POS while BUSY, the count of draws: notes/assumptions/5.md). -/
def Obligations.RegisterReads : Prop :=
  ∀ (s s' : State) (o : BitVec 6) (w : AccessWidth), s.hostTurn = some (.readReg o w, s') →
    (w ≠ .word ∨ o.toNat % 4 ≠ 0 ∨ o = 0x00#6 ∨ o = 0x38#6 ∨ o = 0x3C#6 → step s = .next (s'.reply (.word 0))) ∧
    (o = 0x30#6 → w = .word → s'.status.busy = false → step s = .next (s'.reply (.word s'.pos))) ∧
    (o = 0x30#6 → w = .word → s'.status.busy = true →
      step s = .next { s'.reply (.word (Config.busyWord s'.draws)) with draws := s'.draws + 1 }) ∧
    (w = .word → ∀ f x, (f, x) ∈
        [(0x04#6, s'.status.busy.toNat + 2 * s'.status.done.toNat + 4 * s'.status.fault.toNat +
            8 * s'.status.werr.toNat),
         (0x08#6, s'.irqEn.toNat), (0x0C#6, s'.errCode.toNat), (0x10#6, s'.errPos.toNat), (0x14#6, s'.errVal.toNat),
         (0x18#6, s'.W), (0x1C#6, s'.H),
         (0x20#6, s'.format.bitDepth.toNat + 256 * s'.format.colorType.toNat + 65536 * s'.format.interlace.toNat),
         (0x24#6, s'.L), (0x28#6, s'.NP), (0x2C#6, s'.NT),
         (0x34#6, s'.geom.pixelBytes.toNat + 256 * s'.geom.colors.toNat + 1024 * s'.geom.hasAlpha.toNat +
            2048 * s'.geom.indexed.toNat)] →
      o = f → step s = .next (s'.reply (.word (BitVec.ofNat 32 x))) ∧ x < 2 ^ 32)

/-- R66, R71(d), R241(d), (e), U4 to U6: what a host read of a window returns. That a read past a result window's end returns
0 while BUSY too is the model's reading of R66 beside R241(d) (notes/assumptions/8.md); the free values and the extent `shown`
are its form of R241(d) and of U4 to U6 (notes/assumptions/5.md, notes/assumptions/6.md). -/
def Obligations.WindowReads : Prop :=
  ∀ (s s' : State) (w : Window) (a : Nat), s.hostTurn = some (.readWindow w a, s') →
    (s'.caps.size w.space ≤ a → step s = .next (s'.reply (.byte 0))) ∧
    (a < s'.caps.size w.space → w = .IN ∨ w = .PLTE ∨ w = .TRNS →
      step s = .next (s'.reply (.byte (s'.load w.space a)))) ∧
    (a < s'.caps.size w.space → w = .RASTER ∨ w = .RGBA ∨ w = .OUT → s'.status.busy = true →
      step s = .next { s'.reply (.byte (Config.busyByte s'.draws)) with draws := s'.draws + 1 }) ∧
    (a < s'.caps.size w.space → s'.status.busy = false →
      (w = .RASTER ∧ a < s'.shown.raster) ∨ (w = .RGBA ∧ a < s'.shown.rgba) ∨ (w = .OUT ∧ a < s'.shown.out) →
      step s = .next (s'.reply (.byte (s'.load w.space a)))) ∧
    (a < s'.caps.size w.space → s'.status.busy = false →
      (w = .RASTER ∧ s'.shown.raster ≤ a) ∨ (w = .RGBA ∧ s'.shown.rgba ≤ a) ∨ (w = .OUT ∧ s'.shown.out ≤ a) →
      step s = .next (s'.reply (.byte (Config.undefinedByte w.space s'.draws a))))

/-! Faults, the interrupt output and reset. -/

/-- R256, R250: fault entry. The extent of what stays specified, the RGBA entries below PAL_COUNT, is the model's own form of
R71(d), R242 and U4 (notes/assumptions/6.md). -/
def Obligations.FaultEntry : Prop :=
  ∀ (f : FaultCause) (p v : Word) (s : State),
    (raiseFault f p v s).errCode.toNat = (match f with
      | .corruptFile => 1 | .invalidFilter => 2 | .paletteIndexOutOfRange => 3 | .configError => 4) ∧
    raiseFault f p v s = { s with
      errCode := (raiseFault f p v s).errCode, errPos := p, errVal := v,
      status := { s.status with busy := false, fault := true }, shown := ⟨0, 4 * s.NP, 0⟩ }

/-- R24, R250, R262: STATUS.FAULT rises only at the end of a running decode, with a code of 1 to 4. -/
def Obligations.OnlyADecodeFaults : Prop :=
  ∀ s t : State, step s = .next t → t.status.fault = true → s.status.fault = false →
    s.status.busy = true ∧ t.status.busy = false ∧ 1 ≤ t.errCode.toNat ∧ t.errCode.toNat ≤ 4

/-- R258: the interrupt output. -/
def Obligations.InterruptLevel : Prop :=
  (∀ s : State, s.irq = true ↔ s.irqEn = true ∧ (s.status.done = true ∨ s.status.fault = true)) ∧
  (∀ (s t : State) (rest : BitVec 31), s.status.busy = false → exec (.start rest) s = .next t → t.irq = false) ∧
  (∀ (s t : State) (rest : BitVec 30), s.status.busy = false → exec (.clear rest) s = .next t → t.irq = false) ∧
  (∀ (s s' t : State) (v : Word), s.hostTurn = some (.writeReg 0x08#6 .word v, s') → v.getLsbD 0 = false →
    step s = .next t → t.irq = false) ∧
  State.reset.irq = false

/-- R281: the state after reset, piece by piece; no memory byte is specified. -/
def Obligations.ResetState : Prop :=
  State.reset.status = ⟨false, false, false, false⟩ ∧ (∀ g, State.reset.regWord g = 0) ∧
  State.reset.rgbaValid = false ∧ State.reset.irq = false ∧ ∀ sp a, ¬State.reset.written sp a

/-- R280: the reset input takes the PRB to the reset state, whatever it was doing; the memories are unspecified anew. -/
def Obligations.ResetInput : Prop :=
  ∀ (s : State) (rest : List Turn), s.schedule = .reset :: rest →
    ∃ t, step s = .next t ∧
      t = { State.resetWith s.caps with schedule := rest, resets := s.resets + 1, draws := t.draws } ∧
      ∀ sp a, ¬t.written sp a

/-- R282, R257: a START right after reset ends in CONFIG_ERROR with check 1. -/
def Obligations.ResetConfigurationCannotDecode : Prop :=
  ∀ rest : BitVec 31, ∃ t u, exec (.start rest) State.reset = .next t ∧ step t = .next u ∧
    u.status = ⟨false, false, true, false⟩ ∧ u.errCode = 4 ∧ u.errPos = 0 ∧ u.errVal = 1 ∧ u.pos = 0

/-! Invariants and rules of the whole machine. -/

/-- The invariant holds at reset. -/
def Obligations.InvariantAtReset : Prop := State.reset.Inv

/-- Every step keeps the invariant: memories canonical and inside their sizes (R67), at most one flag (R24), a running decode
well placed with its inputs checked (R233), and RGBA_VALID true to the table (R43, R75). -/
def Obligations.EveryStepKeepsTheInvariant : Prop := ∀ s t : State, s.Inv → step s = .next t → t.Inv

/-- R24: at most one of BUSY, DONE and FAULT is 1. -/
def Obligations.AtMostOneFlag : Prop :=
  State.reset.OneFlag ∧ ∀ s t : State, s.OneFlag → step s = .next t → t.OneFlag

/-- R74, R71(b), R70: while BUSY, no step but the reset input changes an input of the decode. -/
def Obligations.InputsAreFrozenWhileBusy : Prop :=
  ∀ s t : State, s.status.busy = true → (∀ rest, s.schedule ≠ .reset :: rest) → step s = .next t → SameInputs s t

/-- R21: within a decode the cursor never goes back and never passes STREAM_LEN. -/
def Obligations.CursorAdvances : Prop :=
  ∀ s t : State, s.status.busy = true → s.stage ≠ .configure → (∀ rest, s.schedule ≠ .reset :: rest) →
    s.pos.toNat ≤ s.L → step s = .next t → s.pos.toNat ≤ t.pos.toNat ∧ t.pos.toNat ≤ t.L

/-- R94, R167: where a running decode stands, its cursor is the number of stream bytes of the records before. -/
def Obligations.CursorCountsTheRecords : Prop :=
  ∀ s t : State, s.Inv → s.CursorOk → step s = .next t → t.CursorOk

/-- R169, R94: a decode that ends in DONE has consumed `N` bytes. -/
def Obligations.DoneReadsAllRecords : Prop :=
  ∀ s t : State, s.Inv → s.CursorOk → s.status.done = false → step s = .next t → t.status.done = true →
    t.pos.toNat = streamBytes t.W t.H t.pb t.passes

/-- R168, R211, R235: every scattered sample and every composited output byte is written. -/
def Obligations.ResultsAreWritten : Prop :=
  ∀ s t : State, s.Inv → s.ResultsWritten → step s = .next t → t.ResultsWritten

/-- R168, R235: RASTER is fully written before it is composited, so no unspecified byte reaches OUT. -/
def Obligations.RasterCompleteBeforeCompositing : Prop :=
  ∀ s : State, s.Inv → s.ResultsWritten → s.status.busy = true → s.stage = .expand ∨ s.stage = .composite →
    ∀ a, a < s.W * s.H * s.pb → s.written .RASTER a

/-- R134, R165, R170: over a stream that the forward filter made from a raw image, every step of the passes keeps the line
buffers and the scattered samples equal to the raw image, under any tags, interlaced or not. -/
def Obligations.PassesReconstructTheImage : Prop :=
  ∀ (s t : State) (raw : Nat → Nat → Nat → Byte) (filter : Nat → Nat → Instr), s.Inv → s.CursorOk →
    s.status.busy = true → s.stage ≠ .configure → (∀ rest, s.schedule ≠ .reset :: rest) →
    s.EncodedStream raw filter → s.Reconstructs raw → step s = .next t → t.status.busy = true →
    t.EncodedStream raw filter ∧ t.Reconstructs raw

/-- R134, R168, R170: after the passes RASTER is the raw image, sample by sample. -/
def Obligations.RasterIsTheImage : Prop :=
  ∀ (s : State) (raw : Nat → Nat → Nat → Byte), s.Inv → s.status.busy = true →
    s.stage = .expand ∨ s.stage = .composite → s.Reconstructs raw →
    ∀ x y j, x < s.W → y < s.H → j < s.pb → s.load .RASTER ((y * s.W + x) * s.pb + j) = raw x y j

/-- R237, R242, R291: every decode ends, in exactly one of DONE and FAULT, whatever host accesses fall in between, unless the
reset input abandons it (R280). -/
def Obligations.EveryDecodeEnds : Prop :=
  ∀ s : State, .reset ∉ s.schedule → s.status.busy = true → s.OneFlag →
    ∃ n t, Sys2Proof.core.run n s = .next t ∧ t.status.busy = false ∧ (t.status.done ^^ t.status.fault) = true

/-- R238: two decodes with the same inputs and no host access in between end alike, whatever RGBA_VALID and every other byte hold: step by step the same
status, report, cursor and GEOM, and in DONE the same RASTER, OUT and RGBA entries. -/
def Obligations.InputsDetermineTheResult : Prop :=
  ∀ (s₁ s₂ t₁ : State) (n : Nat), s₁.Inv → s₂.Inv → s₁.status.busy = true → s₁.stage = .configure →
    SameDecode s₁ s₂ → Sys2Proof.core.run n s₁ = .next t₁ →
    ∃ t₂, Sys2Proof.core.run n s₂ = .next t₂ ∧ t₂.status = t₁.status ∧ t₂.errCode = t₁.errCode ∧
      t₂.errPos = t₁.errPos ∧ t₂.errVal = t₁.errVal ∧ t₂.geom = t₁.geom ∧ (0 < n → t₂.pos = t₁.pos) ∧
      (t₁.status.done = true →
        (∀ a, a < t₁.W * t₁.H * t₁.pb → t₂.load .RASTER a = t₁.load .RASTER a) ∧
        (∀ a, a < 4 * (t₁.W * t₁.H) → t₂.load .OUT a = t₁.load .OUT a) ∧
        (∀ a, a < 4 * t₁.NP → t₂.load .RGBA a = t₁.load .RGBA a))
end

