-- ==== Sys2Proof/Laws/Decode.lean ====
section
/-! SUPPORT. The bits of the encoded host commands. -/

namespace Sys2Proof

/-- The bits of an encoded START: bit 0 set, then the ignored bits. -/
theorem start_getLsbD (rest : BitVec 31) (n : Nat) :
    BitVec.getLsbD (rest ++ 1#1 : Word) n = if n = 0 then true else rest.getLsbD (n - 1) := by
  have h : (rest ++ 1#1).getLsbD n = _ := BitVec.getLsbD_append
  rw [show BitVec.getLsbD (rest ++ 1#1 : Word) n = (rest ++ 1#1).getLsbD n from rfl, h]
  rcases n with _ | n <;> simp

/-- The bits of an encoded CLEAR: bits 1:0 = 0b10, then the ignored bits. -/
theorem clear_getLsbD (rest : BitVec 30) (n : Nat) :
    BitVec.getLsbD (rest ++ 2#2 : Word) n = if n < 2 then decide (n = 1) else rest.getLsbD (n - 2) := by
  have h : (rest ++ 2#2).getLsbD n = _ := BitVec.getLsbD_append
  rw [show BitVec.getLsbD (rest ++ 2#2 : Word) n = (rest ++ 2#2).getLsbD n from rfl, h]
  rcases n with _ | _ | n <;> simp

theorem bits_of_one : ∀ n, n < 32 → (1#32).getLsbD n = decide (n = 0) := by decide

theorem bits_of_two : ∀ n, n < 32 → (2#32).getLsbD n = decide (n = 1) := by decide

theorem bits_of_three : ∀ n, n < 32 → (3#32).getLsbD n = decide (n < 2) := by decide

/-- An encoded START meets START's row of the opcode table and not CLEAR's (R97). -/
theorem start_bits (rest : BitVec 31) :
    ((rest ++ 1#1 : Word) &&& 1#32) = 1#32 ∧ ((rest ++ 1#1 : Word) &&& 3#32) ≠ 2#32 := by
  constructor
  · refine BitVec.eq_of_getLsbD_eq fun n hn => ?_
    rw [BitVec.getLsbD_and, start_getLsbD, bits_of_one n hn]
    by_cases h : n = 0 <;> simp [h]
  · intro h
    have h0 : BitVec.getLsbD _ 0 = BitVec.getLsbD _ 0 := congrArg (fun v => BitVec.getLsbD v 0) h
    rw [BitVec.getLsbD_and, start_getLsbD, bits_of_two 0 (by omega), bits_of_three 0 (by omega)] at h0
    simp at h0

/-- An encoded CLEAR meets CLEAR's row of the opcode table and not START's (R97). -/
theorem clear_bits (rest : BitVec 30) :
    ((rest ++ 2#2 : Word) &&& 1#32) ≠ 1#32 ∧ ((rest ++ 2#2 : Word) &&& 3#32) = 2#32 := by
  constructor
  · intro h
    have h0 : BitVec.getLsbD _ 0 = BitVec.getLsbD _ 0 := congrArg (fun v => BitVec.getLsbD v 0) h
    rw [BitVec.getLsbD_and, clear_getLsbD, bits_of_one 0 (by omega)] at h0
    simp at h0
  · refine BitVec.eq_of_getLsbD_eq fun n hn => ?_
    rw [BitVec.getLsbD_and, clear_getLsbD, bits_of_two n hn, bits_of_three n hn]
    by_cases h : n < 2
    · simp [h]
    · simp [h, show n ≠ 1 by omega]

end Sys2Proof
end

