-- ==== Sys2Proof/Laws/State.lean ====
section
/-! SUPPORT. One lemma per field per update of `State`: what each named update does to each field. -/

namespace Sys2Proof.Machine

variable (s : State)

/-! `store` -/

@[simp] theorem store_status (sp : Space) (a : Nat) (v : Byte) : (s.store sp a v).status = s.status := rfl
@[simp] theorem store_irqEn (sp : Space) (a : Nat) (v : Byte) : (s.store sp a v).irqEn = s.irqEn := rfl
@[simp] theorem store_errCode (sp : Space) (a : Nat) (v : Byte) : (s.store sp a v).errCode = s.errCode := rfl
@[simp] theorem store_errPos (sp : Space) (a : Nat) (v : Byte) : (s.store sp a v).errPos = s.errPos := rfl
@[simp] theorem store_errVal (sp : Space) (a : Nat) (v : Byte) : (s.store sp a v).errVal = s.errVal := rfl
@[simp] theorem store_width (sp : Space) (a : Nat) (v : Byte) : (s.store sp a v).width = s.width := rfl
@[simp] theorem store_height (sp : Space) (a : Nat) (v : Byte) : (s.store sp a v).height = s.height := rfl
@[simp] theorem store_format (sp : Space) (a : Nat) (v : Byte) : (s.store sp a v).format = s.format := rfl
@[simp] theorem store_streamLen (sp : Space) (a : Nat) (v : Byte) : (s.store sp a v).streamLen = s.streamLen := rfl
@[simp] theorem store_palCount (sp : Space) (a : Nat) (v : Byte) : (s.store sp a v).palCount = s.palCount := rfl
@[simp] theorem store_trnsCount (sp : Space) (a : Nat) (v : Byte) : (s.store sp a v).trnsCount = s.trnsCount := rfl
@[simp] theorem store_pos (sp : Space) (a : Nat) (v : Byte) : (s.store sp a v).pos = s.pos := rfl
@[simp] theorem store_geom (sp : Space) (a : Nat) (v : Byte) : (s.store sp a v).geom = s.geom := rfl
@[simp] theorem store_rgbaValid (sp : Space) (a : Nat) (v : Byte) : (s.store sp a v).rgbaValid = s.rgbaValid := rfl
@[simp] theorem store_mem (sp : Space) (a : Nat) (v : Byte) : (s.store sp a v).mem = s.mem.put sp ((s.mem.get sp).set a v) := rfl
@[simp] theorem store_pass (sp : Space) (a : Nat) (v : Byte) : (s.store sp a v).pass = s.pass := rfl
@[simp] theorem store_r (sp : Space) (a : Nat) (v : Byte) : (s.store sp a v).r = s.r := rfl
@[simp] theorem store_i (sp : Space) (a : Nat) (v : Byte) : (s.store sp a v).i = s.i := rfl
@[simp] theorem store_c (sp : Space) (a : Nat) (v : Byte) : (s.store sp a v).c = s.c := rfl
@[simp] theorem store_k (sp : Space) (a : Nat) (v : Byte) : (s.store sp a v).k = s.k := rfl
@[simp] theorem store_stage (sp : Space) (a : Nat) (v : Byte) : (s.store sp a v).stage = s.stage := rfl
@[simp] theorem store_caps (sp : Space) (a : Nat) (v : Byte) : (s.store sp a v).caps = s.caps := rfl
@[simp] theorem store_schedule (sp : Space) (a : Nat) (v : Byte) : (s.store sp a v).schedule = s.schedule := rfl
@[simp] theorem store_bus (sp : Space) (a : Nat) (v : Byte) : (s.store sp a v).bus = s.bus := rfl
@[simp] theorem store_shown (sp : Space) (a : Nat) (v : Byte) : (s.store sp a v).shown = s.shown := rfl
@[simp] theorem store_resets (sp : Space) (a : Nat) (v : Byte) : (s.store sp a v).resets = s.resets := rfl
@[simp] theorem store_draws (sp : Space) (a : Nat) (v : Byte) : (s.store sp a v).draws = s.draws := rfl

/-! `advance` -/

@[simp] theorem advance_status : (s.advance).status = s.status := rfl
@[simp] theorem advance_irqEn : (s.advance).irqEn = s.irqEn := rfl
@[simp] theorem advance_errCode : (s.advance).errCode = s.errCode := rfl
@[simp] theorem advance_errPos : (s.advance).errPos = s.errPos := rfl
@[simp] theorem advance_errVal : (s.advance).errVal = s.errVal := rfl
@[simp] theorem advance_width : (s.advance).width = s.width := rfl
@[simp] theorem advance_height : (s.advance).height = s.height := rfl
@[simp] theorem advance_format : (s.advance).format = s.format := rfl
@[simp] theorem advance_streamLen : (s.advance).streamLen = s.streamLen := rfl
@[simp] theorem advance_palCount : (s.advance).palCount = s.palCount := rfl
@[simp] theorem advance_trnsCount : (s.advance).trnsCount = s.trnsCount := rfl
@[simp] theorem advance_pos : (s.advance).pos = s.pos + 1 := rfl
@[simp] theorem advance_geom : (s.advance).geom = s.geom := rfl
@[simp] theorem advance_rgbaValid : (s.advance).rgbaValid = s.rgbaValid := rfl
@[simp] theorem advance_mem : (s.advance).mem = s.mem := rfl
@[simp] theorem advance_pass : (s.advance).pass = s.pass := rfl
@[simp] theorem advance_r : (s.advance).r = s.r := rfl
@[simp] theorem advance_i : (s.advance).i = s.i := rfl
@[simp] theorem advance_c : (s.advance).c = s.c := rfl
@[simp] theorem advance_k : (s.advance).k = s.k := rfl
@[simp] theorem advance_stage : (s.advance).stage = s.stage := rfl
@[simp] theorem advance_caps : (s.advance).caps = s.caps := rfl
@[simp] theorem advance_schedule : (s.advance).schedule = s.schedule := rfl
@[simp] theorem advance_bus : (s.advance).bus = s.bus := rfl
@[simp] theorem advance_shown : (s.advance).shown = s.shown := rfl
@[simp] theorem advance_resets : (s.advance).resets = s.resets := rfl
@[simp] theorem advance_draws : (s.advance).draws = s.draws := rfl

/-! `putRaw` -/

@[simp] theorem putRaw_status (pred : Byte → Byte → Byte → Byte) (f : Byte) : (s.putRaw pred f).status = s.status := rfl
@[simp] theorem putRaw_irqEn (pred : Byte → Byte → Byte → Byte) (f : Byte) : (s.putRaw pred f).irqEn = s.irqEn := rfl
@[simp] theorem putRaw_errCode (pred : Byte → Byte → Byte → Byte) (f : Byte) : (s.putRaw pred f).errCode = s.errCode := rfl
@[simp] theorem putRaw_errPos (pred : Byte → Byte → Byte → Byte) (f : Byte) : (s.putRaw pred f).errPos = s.errPos := rfl
@[simp] theorem putRaw_errVal (pred : Byte → Byte → Byte → Byte) (f : Byte) : (s.putRaw pred f).errVal = s.errVal := rfl
@[simp] theorem putRaw_width (pred : Byte → Byte → Byte → Byte) (f : Byte) : (s.putRaw pred f).width = s.width := rfl
@[simp] theorem putRaw_height (pred : Byte → Byte → Byte → Byte) (f : Byte) : (s.putRaw pred f).height = s.height := rfl
@[simp] theorem putRaw_format (pred : Byte → Byte → Byte → Byte) (f : Byte) : (s.putRaw pred f).format = s.format := rfl
@[simp] theorem putRaw_streamLen (pred : Byte → Byte → Byte → Byte) (f : Byte) : (s.putRaw pred f).streamLen = s.streamLen := rfl
@[simp] theorem putRaw_palCount (pred : Byte → Byte → Byte → Byte) (f : Byte) : (s.putRaw pred f).palCount = s.palCount := rfl
@[simp] theorem putRaw_trnsCount (pred : Byte → Byte → Byte → Byte) (f : Byte) : (s.putRaw pred f).trnsCount = s.trnsCount := rfl
@[simp] theorem putRaw_pos (pred : Byte → Byte → Byte → Byte) (f : Byte) : (s.putRaw pred f).pos = s.pos + 1 := rfl
@[simp] theorem putRaw_geom (pred : Byte → Byte → Byte → Byte) (f : Byte) : (s.putRaw pred f).geom = s.geom := rfl
@[simp] theorem putRaw_rgbaValid (pred : Byte → Byte → Byte → Byte) (f : Byte) : (s.putRaw pred f).rgbaValid = s.rgbaValid := rfl
@[simp] theorem putRaw_pass (pred : Byte → Byte → Byte → Byte) (f : Byte) : (s.putRaw pred f).pass = s.pass := rfl
@[simp] theorem putRaw_r (pred : Byte → Byte → Byte → Byte) (f : Byte) : (s.putRaw pred f).r = s.r := rfl
@[simp] theorem putRaw_i (pred : Byte → Byte → Byte → Byte) (f : Byte) : (s.putRaw pred f).i = s.i + 1 := rfl
@[simp] theorem putRaw_c (pred : Byte → Byte → Byte → Byte) (f : Byte) : (s.putRaw pred f).c = s.c := rfl
@[simp] theorem putRaw_k (pred : Byte → Byte → Byte → Byte) (f : Byte) : (s.putRaw pred f).k = s.k := rfl
@[simp] theorem putRaw_stage (pred : Byte → Byte → Byte → Byte) (f : Byte) : (s.putRaw pred f).stage = s.stage := rfl
@[simp] theorem putRaw_caps (pred : Byte → Byte → Byte → Byte) (f : Byte) : (s.putRaw pred f).caps = s.caps := rfl
@[simp] theorem putRaw_schedule (pred : Byte → Byte → Byte → Byte) (f : Byte) : (s.putRaw pred f).schedule = s.schedule := rfl
@[simp] theorem putRaw_bus (pred : Byte → Byte → Byte → Byte) (f : Byte) : (s.putRaw pred f).bus = s.bus := rfl
@[simp] theorem putRaw_shown (pred : Byte → Byte → Byte → Byte) (f : Byte) : (s.putRaw pred f).shown = s.shown := rfl
@[simp] theorem putRaw_resets (pred : Byte → Byte → Byte → Byte) (f : Byte) : (s.putRaw pred f).resets = s.resets := rfl
@[simp] theorem putRaw_draws (pred : Byte → Byte → Byte → Byte) (f : Byte) : (s.putRaw pred f).draws = s.draws := rfl

/-! `raiseFault` -/

@[simp] theorem raiseFault_status (f : FaultCause) (p v : Word) : (raiseFault f p v s).status = { s.status with busy := false, fault := true } := rfl
@[simp] theorem raiseFault_irqEn (f : FaultCause) (p v : Word) : (raiseFault f p v s).irqEn = s.irqEn := rfl
@[simp] theorem raiseFault_errCode (f : FaultCause) (p v : Word) : (raiseFault f p v s).errCode = f.code := rfl
@[simp] theorem raiseFault_errPos (f : FaultCause) (p v : Word) : (raiseFault f p v s).errPos = p := rfl
@[simp] theorem raiseFault_errVal (f : FaultCause) (p v : Word) : (raiseFault f p v s).errVal = v := rfl
@[simp] theorem raiseFault_width (f : FaultCause) (p v : Word) : (raiseFault f p v s).width = s.width := rfl
@[simp] theorem raiseFault_height (f : FaultCause) (p v : Word) : (raiseFault f p v s).height = s.height := rfl
@[simp] theorem raiseFault_format (f : FaultCause) (p v : Word) : (raiseFault f p v s).format = s.format := rfl
@[simp] theorem raiseFault_streamLen (f : FaultCause) (p v : Word) : (raiseFault f p v s).streamLen = s.streamLen := rfl
@[simp] theorem raiseFault_palCount (f : FaultCause) (p v : Word) : (raiseFault f p v s).palCount = s.palCount := rfl
@[simp] theorem raiseFault_trnsCount (f : FaultCause) (p v : Word) : (raiseFault f p v s).trnsCount = s.trnsCount := rfl
@[simp] theorem raiseFault_pos (f : FaultCause) (p v : Word) : (raiseFault f p v s).pos = s.pos := rfl
@[simp] theorem raiseFault_geom (f : FaultCause) (p v : Word) : (raiseFault f p v s).geom = s.geom := rfl
@[simp] theorem raiseFault_rgbaValid (f : FaultCause) (p v : Word) : (raiseFault f p v s).rgbaValid = s.rgbaValid := rfl
@[simp] theorem raiseFault_mem (f : FaultCause) (p v : Word) : (raiseFault f p v s).mem = s.mem := rfl
@[simp] theorem raiseFault_pass (f : FaultCause) (p v : Word) : (raiseFault f p v s).pass = s.pass := rfl
@[simp] theorem raiseFault_r (f : FaultCause) (p v : Word) : (raiseFault f p v s).r = s.r := rfl
@[simp] theorem raiseFault_i (f : FaultCause) (p v : Word) : (raiseFault f p v s).i = s.i := rfl
@[simp] theorem raiseFault_c (f : FaultCause) (p v : Word) : (raiseFault f p v s).c = s.c := rfl
@[simp] theorem raiseFault_k (f : FaultCause) (p v : Word) : (raiseFault f p v s).k = s.k := rfl
@[simp] theorem raiseFault_stage (f : FaultCause) (p v : Word) : (raiseFault f p v s).stage = s.stage := rfl
@[simp] theorem raiseFault_caps (f : FaultCause) (p v : Word) : (raiseFault f p v s).caps = s.caps := rfl
@[simp] theorem raiseFault_schedule (f : FaultCause) (p v : Word) : (raiseFault f p v s).schedule = s.schedule := rfl
@[simp] theorem raiseFault_bus (f : FaultCause) (p v : Word) : (raiseFault f p v s).bus = s.bus := rfl
@[simp] theorem raiseFault_shown (f : FaultCause) (p v : Word) : (raiseFault f p v s).shown = s.extentAfterFault := rfl
@[simp] theorem raiseFault_resets (f : FaultCause) (p v : Word) : (raiseFault f p v s).resets = s.resets := rfl
@[simp] theorem raiseFault_draws (f : FaultCause) (p v : Word) : (raiseFault f p v s).draws = s.draws := rfl

/-! `clearReport` -/

@[simp] theorem clearReport_status : (s.clearReport).status = { s.status with done := false, fault := false, werr := false } := rfl
@[simp] theorem clearReport_irqEn : (s.clearReport).irqEn = s.irqEn := rfl
@[simp] theorem clearReport_errCode : (s.clearReport).errCode = 0 := rfl
@[simp] theorem clearReport_errPos : (s.clearReport).errPos = 0 := rfl
@[simp] theorem clearReport_errVal : (s.clearReport).errVal = 0 := rfl
@[simp] theorem clearReport_width : (s.clearReport).width = s.width := rfl
@[simp] theorem clearReport_height : (s.clearReport).height = s.height := rfl
@[simp] theorem clearReport_format : (s.clearReport).format = s.format := rfl
@[simp] theorem clearReport_streamLen : (s.clearReport).streamLen = s.streamLen := rfl
@[simp] theorem clearReport_palCount : (s.clearReport).palCount = s.palCount := rfl
@[simp] theorem clearReport_trnsCount : (s.clearReport).trnsCount = s.trnsCount := rfl
@[simp] theorem clearReport_pos : (s.clearReport).pos = s.pos := rfl
@[simp] theorem clearReport_geom : (s.clearReport).geom = s.geom := rfl
@[simp] theorem clearReport_rgbaValid : (s.clearReport).rgbaValid = s.rgbaValid := rfl
@[simp] theorem clearReport_mem : (s.clearReport).mem = s.mem := rfl
@[simp] theorem clearReport_pass : (s.clearReport).pass = s.pass := rfl
@[simp] theorem clearReport_r : (s.clearReport).r = s.r := rfl
@[simp] theorem clearReport_i : (s.clearReport).i = s.i := rfl
@[simp] theorem clearReport_c : (s.clearReport).c = s.c := rfl
@[simp] theorem clearReport_k : (s.clearReport).k = s.k := rfl
@[simp] theorem clearReport_stage : (s.clearReport).stage = s.stage := rfl
@[simp] theorem clearReport_caps : (s.clearReport).caps = s.caps := rfl
@[simp] theorem clearReport_schedule : (s.clearReport).schedule = s.schedule := rfl
@[simp] theorem clearReport_bus : (s.clearReport).bus = s.bus := rfl
@[simp] theorem clearReport_shown : (s.clearReport).shown = s.shown := rfl
@[simp] theorem clearReport_resets : (s.clearReport).resets = s.resets := rfl
@[simp] theorem clearReport_draws : (s.clearReport).draws = s.draws := rfl

/-! `lostWrite` -/

@[simp] theorem lostWrite_status : (s.lostWrite).status = { s.status with werr := true } := rfl
@[simp] theorem lostWrite_irqEn : (s.lostWrite).irqEn = s.irqEn := rfl
@[simp] theorem lostWrite_errCode : (s.lostWrite).errCode = s.errCode := rfl
@[simp] theorem lostWrite_errPos : (s.lostWrite).errPos = s.errPos := rfl
@[simp] theorem lostWrite_errVal : (s.lostWrite).errVal = s.errVal := rfl
@[simp] theorem lostWrite_width : (s.lostWrite).width = s.width := rfl
@[simp] theorem lostWrite_height : (s.lostWrite).height = s.height := rfl
@[simp] theorem lostWrite_format : (s.lostWrite).format = s.format := rfl
@[simp] theorem lostWrite_streamLen : (s.lostWrite).streamLen = s.streamLen := rfl
@[simp] theorem lostWrite_palCount : (s.lostWrite).palCount = s.palCount := rfl
@[simp] theorem lostWrite_trnsCount : (s.lostWrite).trnsCount = s.trnsCount := rfl
@[simp] theorem lostWrite_pos : (s.lostWrite).pos = s.pos := rfl
@[simp] theorem lostWrite_geom : (s.lostWrite).geom = s.geom := rfl
@[simp] theorem lostWrite_rgbaValid : (s.lostWrite).rgbaValid = s.rgbaValid := rfl
@[simp] theorem lostWrite_mem : (s.lostWrite).mem = s.mem := rfl
@[simp] theorem lostWrite_pass : (s.lostWrite).pass = s.pass := rfl
@[simp] theorem lostWrite_r : (s.lostWrite).r = s.r := rfl
@[simp] theorem lostWrite_i : (s.lostWrite).i = s.i := rfl
@[simp] theorem lostWrite_c : (s.lostWrite).c = s.c := rfl
@[simp] theorem lostWrite_k : (s.lostWrite).k = s.k := rfl
@[simp] theorem lostWrite_stage : (s.lostWrite).stage = s.stage := rfl
@[simp] theorem lostWrite_caps : (s.lostWrite).caps = s.caps := rfl
@[simp] theorem lostWrite_schedule : (s.lostWrite).schedule = s.schedule := rfl
@[simp] theorem lostWrite_bus : (s.lostWrite).bus = s.bus := rfl
@[simp] theorem lostWrite_shown : (s.lostWrite).shown = s.shown := rfl
@[simp] theorem lostWrite_resets : (s.lostWrite).resets = s.resets := rfl
@[simp] theorem lostWrite_draws : (s.lostWrite).draws = s.draws := rfl

/-! `finish` -/

@[simp] theorem finish_status : (s.finish).status = { s.status with busy := false, done := true } := rfl
@[simp] theorem finish_irqEn : (s.finish).irqEn = s.irqEn := rfl
@[simp] theorem finish_errCode : (s.finish).errCode = s.errCode := rfl
@[simp] theorem finish_errPos : (s.finish).errPos = s.errPos := rfl
@[simp] theorem finish_errVal : (s.finish).errVal = s.errVal := rfl
@[simp] theorem finish_width : (s.finish).width = s.width := rfl
@[simp] theorem finish_height : (s.finish).height = s.height := rfl
@[simp] theorem finish_format : (s.finish).format = s.format := rfl
@[simp] theorem finish_streamLen : (s.finish).streamLen = s.streamLen := rfl
@[simp] theorem finish_palCount : (s.finish).palCount = s.palCount := rfl
@[simp] theorem finish_trnsCount : (s.finish).trnsCount = s.trnsCount := rfl
@[simp] theorem finish_pos : (s.finish).pos = s.pos := rfl
@[simp] theorem finish_geom : (s.finish).geom = s.geom := rfl
@[simp] theorem finish_rgbaValid : (s.finish).rgbaValid = s.rgbaValid := rfl
@[simp] theorem finish_mem : (s.finish).mem = s.mem := rfl
@[simp] theorem finish_pass : (s.finish).pass = s.pass := rfl
@[simp] theorem finish_r : (s.finish).r = s.r := rfl
@[simp] theorem finish_i : (s.finish).i = s.i := rfl
@[simp] theorem finish_c : (s.finish).c = s.c := rfl
@[simp] theorem finish_k : (s.finish).k = s.k := rfl
@[simp] theorem finish_stage : (s.finish).stage = s.stage := rfl
@[simp] theorem finish_caps : (s.finish).caps = s.caps := rfl
@[simp] theorem finish_schedule : (s.finish).schedule = s.schedule := rfl
@[simp] theorem finish_bus : (s.finish).bus = s.bus := rfl
@[simp] theorem finish_shown : (s.finish).shown = ⟨s.W * s.H * s.pb, if s.geom.indexed then 4 * s.NP else 0, 4 * (s.W * s.H)⟩ := rfl
@[simp] theorem finish_resets : (s.finish).resets = s.resets := rfl
@[simp] theorem finish_draws : (s.finish).draws = s.draws := rfl

/-! `beginDecode` -/

@[simp] theorem beginDecode_status : (s.beginDecode).status = ⟨true, false, false, false⟩ := rfl
@[simp] theorem beginDecode_irqEn : (s.beginDecode).irqEn = s.irqEn := rfl
@[simp] theorem beginDecode_errCode : (s.beginDecode).errCode = 0 := rfl
@[simp] theorem beginDecode_errPos : (s.beginDecode).errPos = 0 := rfl
@[simp] theorem beginDecode_errVal : (s.beginDecode).errVal = 0 := rfl
@[simp] theorem beginDecode_width : (s.beginDecode).width = s.width := rfl
@[simp] theorem beginDecode_height : (s.beginDecode).height = s.height := rfl
@[simp] theorem beginDecode_format : (s.beginDecode).format = s.format := rfl
@[simp] theorem beginDecode_streamLen : (s.beginDecode).streamLen = s.streamLen := rfl
@[simp] theorem beginDecode_palCount : (s.beginDecode).palCount = s.palCount := rfl
@[simp] theorem beginDecode_trnsCount : (s.beginDecode).trnsCount = s.trnsCount := rfl
@[simp] theorem beginDecode_pos : (s.beginDecode).pos = s.pos := rfl
@[simp] theorem beginDecode_geom : (s.beginDecode).geom = ⟨0, 0, false, false⟩ := rfl
@[simp] theorem beginDecode_rgbaValid : (s.beginDecode).rgbaValid = s.rgbaValid := rfl
@[simp] theorem beginDecode_mem : (s.beginDecode).mem = s.mem := rfl
@[simp] theorem beginDecode_pass : (s.beginDecode).pass = s.pass := rfl
@[simp] theorem beginDecode_r : (s.beginDecode).r = s.r := rfl
@[simp] theorem beginDecode_i : (s.beginDecode).i = s.i := rfl
@[simp] theorem beginDecode_c : (s.beginDecode).c = s.c := rfl
@[simp] theorem beginDecode_k : (s.beginDecode).k = s.k := rfl
@[simp] theorem beginDecode_stage : (s.beginDecode).stage = .configure := rfl
@[simp] theorem beginDecode_caps : (s.beginDecode).caps = s.caps := rfl
@[simp] theorem beginDecode_schedule : (s.beginDecode).schedule = s.schedule := rfl
@[simp] theorem beginDecode_bus : (s.beginDecode).bus = s.bus := rfl
@[simp] theorem beginDecode_shown : (s.beginDecode).shown = s.shown := rfl
@[simp] theorem beginDecode_resets : (s.beginDecode).resets = s.resets := rfl
@[simp] theorem beginDecode_draws : (s.beginDecode).draws = s.draws + 1 := rfl

/-! `reply` -/

@[simp] theorem reply_status (a : Reply) : (s.reply a).status = s.status := rfl
@[simp] theorem reply_irqEn (a : Reply) : (s.reply a).irqEn = s.irqEn := rfl
@[simp] theorem reply_errCode (a : Reply) : (s.reply a).errCode = s.errCode := rfl
@[simp] theorem reply_errPos (a : Reply) : (s.reply a).errPos = s.errPos := rfl
@[simp] theorem reply_errVal (a : Reply) : (s.reply a).errVal = s.errVal := rfl
@[simp] theorem reply_width (a : Reply) : (s.reply a).width = s.width := rfl
@[simp] theorem reply_height (a : Reply) : (s.reply a).height = s.height := rfl
@[simp] theorem reply_format (a : Reply) : (s.reply a).format = s.format := rfl
@[simp] theorem reply_streamLen (a : Reply) : (s.reply a).streamLen = s.streamLen := rfl
@[simp] theorem reply_palCount (a : Reply) : (s.reply a).palCount = s.palCount := rfl
@[simp] theorem reply_trnsCount (a : Reply) : (s.reply a).trnsCount = s.trnsCount := rfl
@[simp] theorem reply_pos (a : Reply) : (s.reply a).pos = s.pos := rfl
@[simp] theorem reply_geom (a : Reply) : (s.reply a).geom = s.geom := rfl
@[simp] theorem reply_rgbaValid (a : Reply) : (s.reply a).rgbaValid = s.rgbaValid := rfl
@[simp] theorem reply_mem (a : Reply) : (s.reply a).mem = s.mem := rfl
@[simp] theorem reply_pass (a : Reply) : (s.reply a).pass = s.pass := rfl
@[simp] theorem reply_r (a : Reply) : (s.reply a).r = s.r := rfl
@[simp] theorem reply_i (a : Reply) : (s.reply a).i = s.i := rfl
@[simp] theorem reply_c (a : Reply) : (s.reply a).c = s.c := rfl
@[simp] theorem reply_k (a : Reply) : (s.reply a).k = s.k := rfl
@[simp] theorem reply_stage (a : Reply) : (s.reply a).stage = s.stage := rfl
@[simp] theorem reply_caps (a : Reply) : (s.reply a).caps = s.caps := rfl
@[simp] theorem reply_schedule (a : Reply) : (s.reply a).schedule = s.schedule := rfl
@[simp] theorem reply_bus (a : Reply) : (s.reply a).bus = some a := rfl
@[simp] theorem reply_shown (a : Reply) : (s.reply a).shown = s.shown := rfl
@[simp] theorem reply_resets (a : Reply) : (s.reply a).resets = s.resets := rfl
@[simp] theorem reply_draws (a : Reply) : (s.reply a).draws = s.draws := rfl

/-! `drawn` -/

@[simp] theorem drawn_status : (s.drawn).status = s.status := rfl
@[simp] theorem drawn_irqEn : (s.drawn).irqEn = s.irqEn := rfl
@[simp] theorem drawn_errCode : (s.drawn).errCode = s.errCode := rfl
@[simp] theorem drawn_errPos : (s.drawn).errPos = s.errPos := rfl
@[simp] theorem drawn_errVal : (s.drawn).errVal = s.errVal := rfl
@[simp] theorem drawn_width : (s.drawn).width = s.width := rfl
@[simp] theorem drawn_height : (s.drawn).height = s.height := rfl
@[simp] theorem drawn_format : (s.drawn).format = s.format := rfl
@[simp] theorem drawn_streamLen : (s.drawn).streamLen = s.streamLen := rfl
@[simp] theorem drawn_palCount : (s.drawn).palCount = s.palCount := rfl
@[simp] theorem drawn_trnsCount : (s.drawn).trnsCount = s.trnsCount := rfl
@[simp] theorem drawn_pos : (s.drawn).pos = s.pos := rfl
@[simp] theorem drawn_geom : (s.drawn).geom = s.geom := rfl
@[simp] theorem drawn_rgbaValid : (s.drawn).rgbaValid = s.rgbaValid := rfl
@[simp] theorem drawn_mem : (s.drawn).mem = s.mem := rfl
@[simp] theorem drawn_pass : (s.drawn).pass = s.pass := rfl
@[simp] theorem drawn_r : (s.drawn).r = s.r := rfl
@[simp] theorem drawn_i : (s.drawn).i = s.i := rfl
@[simp] theorem drawn_c : (s.drawn).c = s.c := rfl
@[simp] theorem drawn_k : (s.drawn).k = s.k := rfl
@[simp] theorem drawn_stage : (s.drawn).stage = s.stage := rfl
@[simp] theorem drawn_caps : (s.drawn).caps = s.caps := rfl
@[simp] theorem drawn_schedule : (s.drawn).schedule = s.schedule := rfl
@[simp] theorem drawn_bus : (s.drawn).bus = s.bus := rfl
@[simp] theorem drawn_shown : (s.drawn).shown = s.shown := rfl
@[simp] theorem drawn_resets : (s.drawn).resets = s.resets := rfl
@[simp] theorem drawn_draws : (s.drawn).draws = s.draws + 1 := rfl

end Sys2Proof.Machine
end

