-- ==== Sys2Proof/Laws/Memory.lean ====
section
/-! SUPPORT. The laws of the memories: a read after a write, the canonical form, and what every memory operation keeps. -/

namespace Sys2Proof.Machine

/-! One memory. -/

@[simp] theorem Memory.get?_nil (a : Nat) : Memory.get? [] a = none := rfl

theorem Memory.get?_set (m : Memory) (a b : Nat) (v : Byte) :
    (m.set a v).get? b = if b = a then some v else m.get? b := by
  induction m with
  | nil => simp only [Memory.set, Memory.get?, eq_comm]
  | cons x m ih =>
    simp only [Memory.set]
    split_ifs with h1 h2 h3 h3 h3 <;> simp_all [Memory.get?, eq_comm]

/-- An address listed after a write is the written one or was listed before. -/
theorem Memory.mem_set {m : Memory} {a : Nat} {v : Byte} {x : Host.Cell} (h : x ∈ m.set a v) :
    x = (a, v) ∨ x ∈ m := by
  induction m with
  | nil => simpa [Memory.set] using h
  | cons y m ih =>
    simp only [Memory.set] at h
    split_ifs at h with h1 h2
    · simpa using h
    · simp only [List.mem_cons] at h ⊢
      tauto
    · simp only [List.mem_cons] at h ⊢
      rcases h with h | h
      · tauto
      · rcases ih h with h | h <;> tauto

/-- Every write keeps the canonical form. -/
theorem Memory.wf_set {m : Memory} (h : m.wf) (a : Nat) (v : Byte) : (m.set a v).wf := by
  induction m with
  | nil => simp [Memory.set, Memory.wf]
  | cons y m ih =>
    have hy := List.pairwise_cons.mp h
    simp only [Memory.set]
    split_ifs with h1 h2
    · refine List.pairwise_cons.mpr ⟨fun x hx => ?_, h⟩
      rcases List.mem_cons.mp hx with rfl | hx
      · exact h1
      · exact lt_trans h1 (hy.1 x hx)
    · subst h2
      exact List.pairwise_cons.mpr ⟨hy.1, hy.2⟩
    · refine List.pairwise_cons.mpr ⟨fun x hx => ?_, ih hy.2⟩
      rcases Memory.mem_set hx with rfl | hx
      · show y.1 < a
        omega
      · exact hy.1 x hx

/-! The eight memories. -/

@[simp] theorem Memories.get_put (ms : Memories) (sp : Space) (m : Memory) : (ms.put sp m).get sp = m := by
  cases sp <;> rfl

theorem Memories.get_put_ne (ms : Memories) {sp sp' : Space} (m : Memory) (h : sp' ≠ sp) :
    (ms.put sp m).get sp' = ms.get sp' := by
  cases sp <;> cases sp' <;> first | rfl | exact absurd rfl h

theorem Memories.get_put_if (ms : Memories) (sp sp' : Space) (m : Memory) :
    (ms.put sp m).get sp' = if sp' = sp then m else ms.get sp' := by
  split_ifs with h
  · subst h; exact ms.get_put sp' m
  · exact ms.get_put_ne m h

/-! The byte a state holds. -/

/-- What a byte reads as depends on the memories and on the count of resets alone. -/
theorem load_congr {s t : State} (hm : t.mem = s.mem) (hr : t.resets = s.resets) (sp : Space) (a : Nat) :
    t.load sp a = s.load sp a := by
  simp only [State.load, hm, hr]

/-- A read after a write: the written byte at its index, every other byte as before. -/
theorem load_store (s : State) (sp sp' : Space) (a b : Nat) (v : Byte) :
    (s.store sp a v).load sp' b = if sp' = sp ∧ b = a then v else s.load sp' b := by
  simp only [State.load, store_mem, store_resets, Memories.get_put_if]
  by_cases h : sp' = sp
  · subst h
    simp only [if_true, Memory.get?_set, true_and]
    split_ifs <;> simp_all
  · simp [h]

@[simp] theorem load_store_same (s : State) (sp : Space) (a : Nat) (v : Byte) :
    (s.store sp a v).load sp a = v := by simp [load_store]

theorem load_store_ne (s : State) (sp sp' : Space) (a b : Nat) (v : Byte) (h : sp' ≠ sp ∨ b ≠ a) :
    (s.store sp a v).load sp' b = s.load sp' b := by
  rw [load_store, if_neg (by tauto)]

/-- A byte is written after a store if it is the stored one or was written before. -/
theorem written_store (s : State) (sp sp' : Space) (a b : Nat) (v : Byte) :
    (s.store sp a v).written sp' b ↔ (sp' = sp ∧ b = a) ∨ s.written sp' b := by
  simp only [State.written, store_mem, Memories.get_put_if]
  by_cases h : sp' = sp
  · subst h
    by_cases hb : b = a <;> simp [Memory.get?_set, hb]
  · simp [h]

/-- Every memory of a state in canonical form, and inside its size. -/
structure State.MemoryOk (s : State) : Prop where
  canonical : ∀ sp, (s.mem.get sp).wf
  inside : ∀ sp x, x ∈ s.mem.get sp → x.1 < s.caps.size sp

theorem State.MemoryOk.congr {s t : State} (h : s.MemoryOk) (hm : t.mem = s.mem) (hc : t.caps = s.caps) : t.MemoryOk :=
  ⟨fun sp => by rw [hm]; exact h.canonical sp, fun sp x hx => by rw [hc]; exact h.inside sp x (by rwa [hm] at hx)⟩

/-- A store inside a space keeps both. -/
theorem State.MemoryOk.store {s : State} (h : s.MemoryOk) {sp : Space} {a : Nat} (ha : a < s.caps.size sp) (v : Byte) :
    (s.store sp a v).MemoryOk := by
  constructor
  · intro sp'
    simp only [store_mem, Memories.get_put_if]
    split_ifs with hs
    · subst hs; exact Memory.wf_set (h.canonical sp') a v
    · exact h.canonical sp'
  · intro sp' x hx
    simp only [store_mem, Memories.get_put_if] at hx
    rw [store_caps]
    split_ifs at hx with hs
    · subst hs
      rcases Memory.mem_set hx with rfl | hx
      · exact ha
      · exact h.inside sp' x hx
    · exact h.inside sp' x hx

theorem resetWith_memoryOk (c : Caps) : (State.resetWith c).MemoryOk :=
  ⟨fun sp => by cases sp <;> exact List.Pairwise.nil, fun sp x hx => by cases sp <;> cases hx⟩

/-! Copying. -/

section Copy

variable (s : State) (src dst : Space) (a b : Nat)

@[simp] theorem copyBytes_zero : s.copyBytes src dst a b 0 = s := rfl

theorem copyBytes_succ (n : Nat) :
    s.copyBytes src dst a b (n + 1) =
      (s.copyBytes src dst a b n).store dst (b + n) ((s.copyBytes src dst a b n).load src (a + n)) := rfl

/-- Copying changes the memories alone. -/
theorem copyBytes_eq (n : Nat) :
    s.copyBytes src dst a b n = { s with mem := (s.copyBytes src dst a b n).mem } := by
  induction n with
  | zero => rfl
  | succ n ih => rw [copyBytes_succ, State.store, ih]

/-- Copying between two spaces: each copied byte is its source, every other byte is as before. -/
theorem load_copyBytes (h : src ≠ dst) (n : Nat) (sp : Space) (d : Nat) :
    (s.copyBytes src dst a b n).load sp d =
      if sp = dst ∧ b ≤ d ∧ d < b + n then s.load src (a + (d - b)) else s.load sp d := by
  induction n generalizing sp d with
  | zero =>
    rw [copyBytes_zero, if_neg (by omega)]
  | succ n ih =>
    rw [copyBytes_succ, load_store]
    by_cases h1 : sp = dst ∧ d = b + n
    · obtain ⟨rfl, rfl⟩ := h1
      rw [if_pos ⟨rfl, rfl⟩, if_pos ⟨rfl, by omega, by omega⟩, ih src, if_neg (fun h' => h h'.1)]
      congr 1
      omega
    · rw [if_neg h1, ih]
      congr 1
      refine propext ⟨fun h2 => ⟨h2.1, h2.2.1, by omega⟩, fun h2 => ⟨h2.1, h2.2.1, ?_⟩⟩
      have : d ≠ b + n := fun h3 => h1 ⟨h2.1, h3⟩
      omega

theorem written_copyBytes (n : Nat) (sp : Space) (d : Nat) :
    (s.copyBytes src dst a b n).written sp d ↔ (sp = dst ∧ b ≤ d ∧ d < b + n) ∨ s.written sp d := by
  induction n with
  | zero => simp only [copyBytes_zero]; constructor <;> intro h <;> [exact .inr h; (rcases h with h | h <;> [omega; exact h])]
  | succ n ih =>
    rw [copyBytes_succ, written_store, ih]
    constructor
    · rintro (⟨h, rfl⟩ | ⟨h, h1, h2⟩ | h)
      · exact .inl ⟨h, by omega, by omega⟩
      · exact .inl ⟨h, h1, by omega⟩
      · exact .inr h
    · rintro (⟨h, h1, h2⟩ | h)
      · by_cases h3 : d = b + n
        · exact .inl ⟨h, h3⟩
        · exact .inr (.inl ⟨h, h1, by omega⟩)
      · exact .inr (.inr h)

theorem State.MemoryOk.copyBytes {s : State} (h : s.MemoryOk) {dst : Space} {b n : Nat}
    (hb : b + n ≤ s.caps.size dst) : (s.copyBytes src dst a b n).MemoryOk := by
  induction n with
  | zero => exact h
  | succ n ih =>
    have h0 := ih (by omega)
    have hc : (s.copyBytes src dst a b n).caps = s.caps := by rw [copyBytes_eq]
    rw [copyBytes_succ]
    exact h0.store (by rw [hc]; omega) _

end Copy

end Sys2Proof.Machine
end

