-- ==== Sys2Proof/Laws/Ops.lean ====
section
/-! SUPPORT. The laws of the stream cursor, of fault entry and of the updates that leave the memories alone. -/

namespace Sys2Proof.Machine

variable (s : State)

/-! What a byte reads as after an update of registers. -/

@[simp] theorem load_advance (sp : Space) (a : Nat) : s.advance.load sp a = s.load sp a := rfl
@[simp] theorem load_raiseFault (f : FaultCause) (p v : Word) (sp : Space) (a : Nat) :
    (raiseFault f p v s).load sp a = s.load sp a := rfl
@[simp] theorem load_clearReport (sp : Space) (a : Nat) : s.clearReport.load sp a = s.load sp a := rfl
@[simp] theorem load_beginDecode (sp : Space) (a : Nat) : s.beginDecode.load sp a = s.load sp a := rfl
@[simp] theorem load_lostWrite (sp : Space) (a : Nat) : s.lostWrite.load sp a = s.load sp a := rfl
@[simp] theorem load_finish (sp : Space) (a : Nat) : s.finish.load sp a = s.load sp a := rfl
@[simp] theorem load_reply (x : Reply) (sp : Space) (a : Nat) : (s.reply x).load sp a = s.load sp a := rfl
@[simp] theorem load_drawn (sp : Space) (a : Nat) : s.drawn.load sp a = s.load sp a := rfl

/-! The stream. -/

theorem streamByte?_some (h : s.pos.toNat < s.L) : s.streamByte? = some (s.load .IN s.pos.toNat) := by
  rw [State.streamByte?, if_pos h]

theorem streamByte?_none (h : s.L ≤ s.pos.toNat) : s.streamByte? = none := by
  rw [State.streamByte?, if_neg (by omega)]

theorem streamByte?_eq_some {s : State} {f : Byte} (h : s.streamByte? = some f) :
    s.pos.toNat < s.L ∧ f = s.load .IN s.pos.toNat := by
  unfold State.streamByte? at h
  split at h
  · exact ⟨‹_›, by simpa using h.symm⟩
  · cases h

theorem streamByte?_eq_none {s : State} (h : s.streamByte? = none) : s.L ≤ s.pos.toNat := by
  unfold State.streamByte? at h
  split at h
  · cases h
  · omega

theorem L_lt : s.L < 2 ^ 32 := s.streamLen.isLt

/-- The cursor never wraps: it is below the length of the stream when it moves on (R21). -/
theorem advance_pos_toNat (h : s.pos.toNat < s.L) : s.advance.pos.toNat = s.pos.toNat + 1 := by
  have := L_lt s
  simp only [advance_pos, BitVec.toNat_add]
  exact Nat.mod_eq_of_lt (by simpa using by omega)

/-- A cursor at the end of the stream is STREAM_LEN. -/
theorem pos_eq_streamLen (h : s.pos.toNat = s.L) : s.pos = s.streamLen := BitVec.eq_of_toNat_eq h

/-! Whose turn it is. -/

/-- The step of a state whose turn is the engine's. -/
theorem step_of_engineTurn {s s' : State} (h : s.engineTurn = some s') : step s = engineAction s' := by
  unfold State.engineTurn at h
  unfold step
  split at h <;> simp_all

/-- The step of a state whose turn is the host's. -/
theorem step_of_hostTurn {s s' : State} {a : HostAccess} (h : s.hostTurn = some (a, s')) :
    step s = hostAccess a s' := by
  unfold State.hostTurn at h
  unfold step
  split at h <;> simp_all

/-- Every state has a turn: the engine's, the host's, or the reset input's. -/
theorem turn_cases (s : State) :
    (∃ s', s.engineTurn = some s') ∨ (∃ a s', s.hostTurn = some (a, s')) ∨
      (∃ rest, s.schedule = .reset :: rest) := by
  unfold State.engineTurn State.hostTurn
  rcases h : s.schedule with _ | ⟨t, rest⟩
  · exact .inl ⟨s, rfl⟩
  · cases t with
    | engine => exact .inl ⟨_, rfl⟩
    | host a => exact .inr (.inl ⟨a, _, rfl⟩)
    | reset => exact .inr (.inr ⟨rest, rfl⟩)

/-- Taking a turn off the schedule changes nothing else. -/
theorem engineTurn_eq {s s' : State} (h : s.engineTurn = some s') : s' = { s with schedule := s'.schedule } := by
  unfold State.engineTurn at h
  split at h <;> simp_all; subst h; rfl

theorem hostTurn_eq {s s' : State} {a : HostAccess} (h : s.hostTurn = some (a, s')) :
    s' = { s with schedule := s'.schedule } := by
  unfold State.hostTurn at h
  split at h <;> simp_all
  obtain ⟨rfl, rfl⟩ := h
  rfl

end Sys2Proof.Machine
end

