-- ==== Sys2Proof/Laws/Unfilter.lean ====
section
/-! SUPPORT. What the loop of a filter instruction can do: with the whole row in the stream, and with less. -/

namespace Sys2Proof.Machine

variable (pred : Byte → Byte → Byte → Byte)

theorem unfilterBytes_zero (s : State) : unfilterBytes pred 0 s = s := rfl

theorem unfilterBytes_succ (n : Nat) {s : State} (h : s.pos.toNat < s.L) :
    unfilterBytes pred (n + 1) s = unfilterBytes pred n (s.putRaw pred (s.load .IN s.pos.toNat)) := by
  simp only [unfilterBytes, streamByte?_some s h]

theorem unfilterBytes_end (n : Nat) {s : State} (h : s.L ≤ s.pos.toNat) :
    unfilterBytes pred (n + 1) s = corruptFile s := by
  simp only [unfilterBytes, streamByte?_none s h]

/-- A row that the stream does not hold whole ends in CORRUPT_FILE after the bytes it does hold (R121, R251). -/
theorem unfilterBytes_short (n : Nat) (s : State) (h0 : s.pos.toNat ≤ s.L) (h : s.L < s.pos.toNat + n) :
    unfilterBytes pred n s = corruptFile (unfilterBytes pred (s.L - s.pos.toNat) s) := by
  induction n generalizing s with
  | zero => omega
  | succ n ih =>
    rcases Nat.lt_or_ge s.pos.toNat s.L with h1 | h1
    · have hp : (s.putRaw pred (s.load .IN s.pos.toNat)).pos.toNat = s.pos.toNat + 1 := advance_pos_toNat s h1
      have hl : (s.putRaw pred (s.load .IN s.pos.toNat)).L = s.L := rfl
      have e : s.L - s.pos.toNat = (s.L - (s.pos.toNat + 1)) + 1 := by omega
      rw [e, unfilterBytes_succ pred n h1, unfilterBytes_succ pred _ h1, ih _ (by omega) (by omega), hl, hp]
    · rw [unfilterBytes_end pred n h1, Nat.sub_eq_zero_of_le h1, unfilterBytes_zero]

/-- The three operands of a byte do not change when bytes are written elsewhere. -/
theorem load_putRaw (s : State) (f : Byte) (sp : Space) (a : Nat) :
    (s.putRaw pred f).load sp a =
      if sp = .CUR ∧ a = s.i then reconstruct f (pred (s.left s.i) (s.upper s.i) (s.upperLeft s.i))
      else s.load sp a := by
  show (s.advance.store .CUR s.i _).load sp a = _
  rw [load_store]
  rfl

/-- What the loop does when the stream holds its `n` bytes (R120 to R124): the cursor and the counter move past them,
only bytes `i .. i+n-1` of CUR change, each is its stream byte plus its predictor, and no other field changes. -/
theorem unfilterBytes_spec (n : Nat) (s : State) (hpb : 0 < s.pb) (h : s.pos.toNat + n ≤ s.L) :
    let t := unfilterBytes pred n s
    t = { s with mem := t.mem, pos := t.pos, i := s.i + n } ∧ t.pos.toNat = s.pos.toNat + n ∧
    (∀ sp a, ¬(sp = .CUR ∧ s.i ≤ a ∧ a < s.i + n) → t.load sp a = s.load sp a) ∧
    (∀ d, d < n → t.load .CUR (s.i + d) =
      reconstruct (s.load .IN (s.pos.toNat + d))
        (pred (if s.pb ≤ s.i + d then t.load .CUR (s.i + d - s.pb) else 0) (s.upper (s.i + d)) (s.upperLeft (s.i + d)))) := by
  induction n generalizing s with
  | zero => exact ⟨rfl, rfl, fun _ _ _ => rfl, fun d hd => absurd hd (Nat.not_lt_zero d)⟩
  | succ n ih =>
    have h1 : s.pos.toNat < s.L := by omega
    rw [unfilterBytes_succ pred n h1]
    generalize hu : s.putRaw pred (s.load .IN s.pos.toNat) = u
    have up : u.pos.toNat = s.pos.toNat + 1 := by rw [← hu]; exact advance_pos_toNat s h1
    have ui : u.i = s.i + 1 := by rw [← hu]; rfl
    have ul : ∀ sp a, u.load sp a = if sp = .CUR ∧ a = s.i then
        reconstruct (s.load .IN s.pos.toNat) (pred (s.left s.i) (s.upper s.i) (s.upperLeft s.i)) else s.load sp a := by
      intro sp a; rw [← hu]; exact load_putRaw pred s _ sp a
    have uin : ∀ a, u.load .IN a = s.load .IN a := fun a => by rw [ul, if_neg (by simp)]
    have uprev : ∀ a, u.load .PREV a = s.load .PREV a := fun a => by rw [ul, if_neg (by simp)]
    have upb : u.pb = s.pb := by rw [← hu]; rfl
    have ur : u.r = s.r := by rw [← hu]; rfl
    have uL : u.L = s.L := by rw [← hu]; rfl
    have uup : ∀ a, u.upper a = s.upper a := fun a => by simp only [State.upper, ur, uprev]
    have uul : ∀ a, u.upperLeft a = s.upperLeft a := fun a => by simp only [State.upperLeft, ur, uprev, upb]
    obtain ⟨e, hp, hf, hv⟩ := ih u (by omega) (by omega)
    rw [ui] at e hf hv
    refine ⟨?_, by omega, ?_, ?_⟩
    · rw [e, ← hu]
      simp only [State.putRaw, State.store, State.advance]
      congr 1
      omega
    · intro sp a ha
      rw [hf sp a (by intro hc; exact ha ⟨hc.1, by omega, by omega⟩), ul, if_neg]
      rintro ⟨rfl, rfl⟩
      exact ha ⟨rfl, by omega, by omega⟩
    · intro d hd
      rcases d with _ | d
      · have hlow : ∀ a, a ≤ s.i → (unfilterBytes pred n u).load .CUR a = u.load .CUR a :=
          fun a ha => hf .CUR a (by omega)
        simp only [Nat.add_zero]
        rw [hlow s.i le_rfl, ul, if_pos ⟨rfl, rfl⟩]
        congr 2
        simp only [State.left]
        split_ifs with hq
        · rw [hlow _ (by omega), ul, if_neg (by omega)]
        · rfl
      · have := hv d (by omega)
        rw [show s.i + 1 + d = s.i + (d + 1) by omega] at this
        rw [this, uin, up, upb, uup, uul, show s.pos.toNat + 1 + d = s.pos.toNat + (d + 1) by omega]

/-- The loop never leaves the row: with or without a fault, only CUR changes, and of it only bytes `i .. i+n-1`. -/
theorem unfilterBytes_frame (n : Nat) (s : State) (sp : Space) (a : Nat)
    (h : ¬(sp = .CUR ∧ s.i ≤ a ∧ a < s.i + n)) : (unfilterBytes pred n s).load sp a = s.load sp a := by
  induction n generalizing s with
  | zero => rfl
  | succ n ih =>
    rcases Nat.lt_or_ge s.pos.toNat s.L with h1 | h1
    · rw [unfilterBytes_succ pred n h1, ih, load_putRaw, if_neg]
      · rintro ⟨rfl, rfl⟩; exact h ⟨rfl, le_rfl, by omega⟩
      · rintro ⟨rfl, h2, h3⟩
        simp only [putRaw_i] at h2 h3
        exact h ⟨rfl, by omega, by omega⟩
    · rw [unfilterBytes_end pred n h1]; rfl

/-- The registers that the loop can change. -/
theorem unfilterBytes_eq (n : Nat) (s : State) :
    let t := unfilterBytes pred n s
    t = { s with mem := t.mem, pos := t.pos, i := t.i, status := t.status, errCode := t.errCode, errPos := t.errPos,
                 errVal := t.errVal, shown := t.shown } := by
  induction n generalizing s with
  | zero => rfl
  | succ n ih =>
    rcases Nat.lt_or_ge s.pos.toNat s.L with h1 | h1
    · rw [unfilterBytes_succ pred n h1, ih]; rfl
    · rw [unfilterBytes_end pred n h1]; rfl

/-- No filter instruction writes DONE or WERR, even where it ends in CORRUPT_FILE (R24). -/
theorem unfilterBytes_flags (n : Nat) (s : State) :
    (unfilterBytes pred n s).status.done = s.status.done ∧ (unfilterBytes pred n s).status.werr = s.status.werr := by
  induction n generalizing s with
  | zero => exact ⟨rfl, rfl⟩
  | succ n ih =>
    rcases Nat.lt_or_ge s.pos.toNat s.L with h | h
    · rw [unfilterBytes_succ pred n h]
      exact ih _
    · rw [unfilterBytes_end pred n h]
      exact ⟨rfl, rfl⟩

/-- A row without bytes, or a pixel with some. -/
theorem SL_eq_zero_or_pb_pos (s : State) : s.SL = 0 ∨ 0 < s.pb := by
  rcases Nat.eq_zero_or_pos s.pb with h | h
  · exact .inl (by simp [State.SL, h])
  · exact .inr h

/-- What a filter instruction does when the stream holds its whole row. -/
theorem unfilterRow_spec (s : State) (h : s.pos.toNat + s.SL ≤ s.L) :
    let t := unfilterRow pred s
    t = { s with mem := t.mem, pos := t.pos, i := t.i } ∧ t.pos.toNat = s.pos.toNat + s.SL ∧
    (∀ sp a, ¬(sp = .CUR ∧ a < s.SL) → t.load sp a = s.load sp a) ∧
    (∀ d, d < s.SL → t.load .CUR d =
      reconstruct (s.load .IN (s.pos.toNat + d))
        (pred (if s.pb ≤ d then t.load .CUR (d - s.pb) else 0) (s.upper d) (s.upperLeft d))) := by
  intro t
  rcases SL_eq_zero_or_pb_pos s with h0 | h0
  · have ht : t = { s with i := 0 } := by
      show unfilterBytes pred s.SL _ = _
      rw [h0, unfilterBytes_zero]
    rw [ht, h0]
    exact ⟨rfl, rfl, fun _ _ _ => rfl, fun d hd => absurd hd (Nat.not_lt_zero d)⟩
  · obtain ⟨e, hp, hf, hv⟩ := unfilterBytes_spec pred s.SL { s with i := 0 } h0 h
    refine ⟨?_, hp, fun sp a ha => hf sp a (by simpa using ha), fun d hd => ?_⟩
    · have ht : t = unfilterBytes pred s.SL { s with i := 0 } := rfl
      rw [← ht] at e
      have hi : t.i = 0 + s.SL := by rw [e]
      rw [hi]
      exact e
    · have hd' := hv d hd
      simp only [Nat.zero_add] at hd'
      exact hd'

/-- What a filter instruction does when the stream ends inside its row. -/
theorem unfilterRow_short (s : State) (h0 : s.pos.toNat ≤ s.L) (h : s.L < s.pos.toNat + s.SL) :
    unfilterRow pred s = corruptFile (unfilterBytes pred (s.L - s.pos.toNat) { s with i := 0 }) :=
  unfilterBytes_short pred s.SL { s with i := 0 } h0 h

/-- The meaning of a filter instruction is the row loop with its predictor. -/
theorem exec_row (i : Instr) (h : i.isRow = true) (s : State) :
    exec i s = .next (unfilterRow (predictorOf i) s) := by
  cases i <;> first | rfl | cases h

/-- The row loop keeps the memories in canonical form and inside their sizes, when the row fits the line buffers. -/
theorem unfilterBytes_memoryOk (n : Nat) {s : State} (h : s.MemoryOk) (hn : s.i + n ≤ s.caps.lineCap) :
    (unfilterBytes pred n s).MemoryOk := by
  induction n generalizing s with
  | zero => exact h
  | succ n ih =>
    rcases Nat.lt_or_ge s.pos.toNat s.L with h1 | h1
    · rw [unfilterBytes_succ pred n h1]
      refine ih ?_ (by simp only [putRaw_i, putRaw_caps]; omega)
      exact ((h.congr rfl rfl : s.advance.MemoryOk).store (sp := .CUR) (a := s.i)
        (by simp only [advance_caps, Caps.size]; omega) _).congr rfl rfl
    · rw [unfilterBytes_end pred n h1]; exact h.congr rfl rfl

end Sys2Proof.Machine
end

