-- ==== Sys2Proof/Laws/Engine.lean ====
section
/-! SUPPORT. The small laws of the engine's other stages, of the host's accesses and of the reset input: each says once what
its operation can change. -/

namespace Sys2Proof.Machine

variable (s : State)

/-! The engine's turn, stage by stage. -/

theorem engineAction_idle (h : s.status.busy = false) : engineAction s = .next s := by
  simp only [engineAction, h, Bool.false_eq_true, if_false]

theorem engineAction_configure (h : s.status.busy = true) (g : s.stage = .configure) :
    engineAction s = .next (configure s) := by simp only [engineAction, h, g, if_true]

theorem engineAction_beginPass (h : s.status.busy = true) (g : s.stage = .beginPass) :
    engineAction s = .next (beginPass s) := by simp only [engineAction, h, g, if_true]

theorem engineAction_row (h : s.status.busy = true) (g : s.stage = .row) :
    engineAction s = rowStage s := by simp only [engineAction, h, g, if_true]

theorem engineAction_scatter (h : s.status.busy = true) (g : s.stage = .scatter) :
    engineAction s = .next (scatterStage s) := by simp only [engineAction, h, g, if_true]

theorem engineAction_retire (h : s.status.busy = true) (g : s.stage = .retire) :
    engineAction s = .next (retireStage s) := by simp only [engineAction, h, g, if_true]

theorem engineAction_expand (h : s.status.busy = true) (g : s.stage = .expand) :
    engineAction s = .next (expandStage s) := by simp only [engineAction, h, g, if_true]

theorem engineAction_composite (h : s.status.busy = true) (g : s.stage = .composite) :
    engineAction s = .next (compositeStage s) := by simp only [engineAction, h, g, if_true]

/-! The tags. -/

/-- The decoder reads a filter instruction from a tag of 0 to 4 and nothing else. -/
theorem decodeTag_cases (t : Byte) :
    (∃ i, decode (.tag t) = .instr i ∧ i.isRow = true) ∨ decode (.tag t) = .illegalTag t := by
  simp only [decode, decodeTag]
  split <;> simp [Instr.isRow]

/-- What the fetch of a record can do (R120). -/
theorem rowStage_cases :
    (s.L ≤ s.pos.toNat ∧ rowStage s = .next (corruptFile s)) ∨
    (s.pos.toNat < s.L ∧ decode (.tag (s.load .IN s.pos.toNat)) = .illegalTag (s.load .IN s.pos.toNat) ∧
      rowStage s = .next (invalidFilter (s.load .IN s.pos.toNat) s.advance)) ∨
    (∃ i, s.pos.toNat < s.L ∧ i.isRow = true ∧ decode (.tag (s.load .IN s.pos.toNat)) = .instr i ∧
      rowStage s = .next (afterRow (unfilterRow (predictorOf i) s.advance))) := by
  rcases Nat.lt_or_ge s.pos.toNat s.L with h | h
  · simp only [rowStage, streamByte?_some s h]
    rcases decodeTag_cases (s.load .IN s.pos.toNat) with ⟨i, hd, hi⟩ | hd
    · exact .inr (.inr ⟨i, h, hi, hd, by simp only [hd, exec_row i hi, onNext]⟩)
    · exact .inr (.inl ⟨h, hd, by simp only [hd]⟩)
  · exact .inl ⟨h, by simp only [rowStage, streamByte?_none s h]⟩

/-! The palette. -/

theorem expandEntry_eq (j : Nat) : expandEntry j s = { s with mem := (expandEntry j s).mem } := by
  simp only [expandEntry]
  rw [copyBytes_eq]
  rfl

theorem expandEntries_eq (n : Nat) : expandEntries n s = { s with mem := (expandEntries n s).mem } := by
  induction n with
  | zero => rfl
  | succ n ih => rw [expandEntries, expandEntry_eq, ih]

/-- Entry `j` is written to RGBA, and nothing else (R190). -/
theorem load_expandEntry (j : Nat) (sp : Space) (a : Nat) :
    (expandEntry j s).load sp a =
      if sp = .RGBA ∧ 4 * j ≤ a ∧ a < 4 * j + 3 then s.load .PLTE (3 * j + (a - 4 * j))
      else if sp = .RGBA ∧ a = 4 * j + 3 then s.alphaOf j
      else s.load sp a := by
  have hne : Space.PLTE ≠ Space.RGBA := by decide
  have ha : (s.copyBytes .PLTE .RGBA (3 * j) (4 * j) 3).alphaOf j = s.alphaOf j := by
    have hN : (s.copyBytes .PLTE .RGBA (3 * j) (4 * j) 3).NT = s.NT := by rw [copyBytes_eq]; rfl
    simp only [State.alphaOf, hN, load_copyBytes s _ _ _ _ hne, reduceCtorEq, false_and, if_false]
  simp only [expandEntry, load_store, load_copyBytes s _ _ _ _ hne, ha]
  by_cases h1 : sp = .RGBA ∧ 4 * j ≤ a ∧ a < 4 * j + 3
  · rw [if_pos h1, if_neg (by omega), if_pos h1]
  · rw [if_neg h1, if_neg h1]

/-! The host and the reset input. -/

theorem hardReset_memoryOk : (hardReset s).MemoryOk := (resetWith_memoryOk s.caps).congr rfl rfl

/-- A host read changes the bus reply and the count of draws alone (R68). -/
theorem hostReadReg_eq (o : BitVec 6) (w : AccessWidth) :
    hostReadReg o w s = { s with bus := (hostReadReg o w s).bus, draws := (hostReadReg o w s).draws } := by
  unfold hostReadReg
  split
  · rfl
  · split <;> rfl
  · rfl

theorem hostReadWindow_eq (w : Window) (a : Nat) :
    hostReadWindow w a s = { s with bus := (hostReadWindow w a s).bus, draws := (hostReadWindow w a s).draws } := by
  unfold hostReadWindow
  split_ifs <;> rfl

end Sys2Proof.Machine
end

