-- ==== Sys2Proof/Laws/Passes.lean ====
section
/-! SUPPORT. The laws of the pass geometry: which pixels a pass has, how the passes of a list look, and that two pixels of an
image share no sample. -/

namespace Sys2Proof.Machine

/-- Index `r` lies in a pass exactly when the image has its row or column (R162, R163, R166). -/
theorem lt_subDim_iff {n o d r : Nat} (hd : 0 < d) : r < subDim n o d ↔ o + r * d < n := by
  unfold subDim
  split_ifs with h
  · have := Nat.zero_le (r * d)
    omega
  · rw [Nat.lt_iff_add_one_le, Nat.le_div_iff_mul_le hd, Nat.add_mul]
    omega

/-- The strides of a pass are positive, whichever list it stands in. -/
theorem passList_stride_pos {il : Byte} {g : PassGeometry} (h : g ∈ passList il) : 0 < g.dx ∧ 0 < g.dy := by
  unfold passList at h
  split_ifs at h
  · simp only [adam7, List.mem_cons, List.not_mem_nil, or_false] at h
    rcases h with rfl | rfl | rfl | rfl | rfl | rfl | rfl <;> exact ⟨by decide, by decide⟩
  · simp only [List.mem_singleton] at h
    subst h
    exact ⟨by decide, by decide⟩

/-- The pass a decode stands in is an entry of its list. -/
theorem geometry_getElem? {s : State} (h : s.pass < s.passes.length) : s.passes[s.pass]? = some s.geometry := by
  simp only [State.geometry, List.getD_eq_getElem?_getD, List.getElem?_eq_getElem h, Option.getD_some]

theorem geometry_mem {s : State} (h : s.pass < s.passes.length) : s.geometry ∈ s.passes :=
  List.mem_of_getElem? (geometry_getElem? h)

theorem getD_of_getElem? {gs : List PassGeometry} {q : Nat} {g : PassGeometry} (h : gs[q]? = some g) :
    gs.getD q singlePass = g := by
  simp only [List.getD_eq_getElem?_getD, h, Option.getD_some]

/-- A sample of a pixel lies among the samples of the image. -/
theorem sample_lt {w h pb x y j : Nat} (hx : x < w) (hy : y < h) (hj : j < pb) :
    (y * w + x) * pb + j < w * h * pb := by
  have h1 : y * w + x + 1 ≤ w * h := by nlinarith
  have h2 := Nat.mul_le_mul_right pb h1
  rw [Nat.add_mul] at h2
  omega

/-- Two samples of an image at one place are one sample of one pixel. -/
theorem sample_inj {w pb x y j x' y' j' : Nat} (hx : x < w) (hx' : x' < w) (hj : j < pb) (hj' : j' < pb)
    (h : (y * w + x) * pb + j = (y' * w + x') * pb + j') : x = x' ∧ y = y' ∧ j = j' := by
  have key : ∀ a b d m n : Nat, m < d → n < d → a * d + m = b * d + n → a = b ∧ m = n := by
    intro a b d m n hm hn he
    have hd : 0 < d := by omega
    have h1 : (a * d + m) / d = a := by
      rw [Nat.add_comm, Nat.add_mul_div_right _ _ hd, Nat.div_eq_of_lt hm, Nat.zero_add]
    have h2 : (b * d + n) / d = b := by
      rw [Nat.add_comm, Nat.add_mul_div_right _ _ hd, Nat.div_eq_of_lt hn, Nat.zero_add]
    have hab : a = b := by rw [← h1, he, h2]
    subst hab
    exact ⟨rfl, by omega⟩
  obtain ⟨h1, h2⟩ := key _ _ _ _ _ hj hj' h
  obtain ⟨h3, h4⟩ := key _ _ _ _ _ hx hx' h1
  exact ⟨h4, h3, h2⟩

/-- The stream bytes of the passes up to and with one (R94). -/
theorem streamBytes_take_succ {w h pb q : Nat} {gs : List PassGeometry} {g : PassGeometry} (hq : gs[q]? = some g) :
    streamBytes w h pb (gs.take (q + 1)) = streamBytes w h pb (gs.take q) + passBytes w h pb g := by
  simp only [streamBytes, List.take_add_one, hq, Option.toList_some, List.map_append, List.sum_append, List.map_cons,
    List.map_nil, List.sum_cons, List.sum_nil, Nat.add_zero]

/-- The stream bytes of some of the passes are no more than those of all. -/
theorem streamBytes_take_le (w h pb q : Nat) (gs : List PassGeometry) :
    streamBytes w h pb (gs.take q) ≤ streamBytes w h pb gs := by
  conv_rhs => rw [← List.take_append_drop q gs]
  simp only [streamBytes, List.map_append, List.sum_append]
  omega

/-- What a passed configuration check says of a decode (R233). -/
theorem configCheck_none {s : State} (h : s.configCheck = none) :
    ∃ colors hasAlpha, colorInfo s.format.colorType = some (colors, hasAlpha) ∧
      s.L ≤ s.caps.inCap ∧ s.W * s.H * pixelBytesOf colors hasAlpha ≤ s.caps.rasterCap ∧
      s.W * s.H * 4 ≤ s.caps.outCap ∧ s.W * pixelBytesOf colors hasAlpha ≤ s.caps.lineCap ∧
      s.NP ≤ 256 ∧ s.NT ≤ 256 ∧ 0 < s.W ∧ 0 < s.H ∧
      s.derivedGeom = ⟨BitVec.ofNat 8 (pixelBytesOf colors hasAlpha), BitVec.ofNat 2 colors, hasAlpha, decide (0 < s.NP)⟩ := by
  unfold State.configCheck at h
  rcases hc : colorInfo s.format.colorType with _ | ⟨colors, hasAlpha⟩
  · rw [hc] at h
    split_ifs at h
  · simp only [hc] at h
    split_ifs at h with h1 h3 h4 h5 h6 h7
    refine ⟨colors, hasAlpha, rfl, ?_, ?_, ?_, ?_, ?_, ?_, ?_, ?_, ?_⟩
    all_goals first
      | (simp only [State.exceedsCapacity, decide_eq_true_eq] at h7; omega)
      | (simp only [State.derivedGeom, hc])

/-- The pixel of a legal color type has 1 to 4 bytes (R95, R234). -/
theorem pixelBytesOf_le {colorType : Byte} {colors : Nat} {hasAlpha : Bool}
    (h : colorInfo colorType = some (colors, hasAlpha)) :
    0 < pixelBytesOf colors hasAlpha ∧ pixelBytesOf colors hasAlpha ≤ 4 := by
  unfold colorInfo at h
  split at h <;> cases h <;> exact ⟨by decide, by decide⟩

/-- The memory bounds of a decode past its check. -/
theorem State.Running.bounds {s : State} (h : s.Running) :
    0 < s.pb ∧ s.pb ≤ 4 ∧ s.L ≤ s.caps.inCap ∧ s.W * s.H * s.pb ≤ s.caps.rasterCap ∧ s.W * s.H * 4 ≤ s.caps.outCap ∧
      s.W * s.pb ≤ s.caps.lineCap ∧ s.NP ≤ 256 ∧ s.NT ≤ 256 ∧ 0 < s.W ∧ 0 < s.H := by
  obtain ⟨colors, hasAlpha, hc, h1, h2, h3, h4, h5, h6, h7, h8, hg⟩ := configCheck_none h.checked
  have hp := pixelBytesOf_le hc
  have hpb : s.pb = pixelBytesOf colors hasAlpha := by
    simp only [State.pb, h.geom, hg, BitVec.toNat_ofNat]
    omega
  rw [hpb]
  exact ⟨hp.1, hp.2, h1, h2, h3, h4, h5, h6, h7, h8⟩

end Sys2Proof.Machine
end

