-- ==== Sys2Proof/Laws/PerInstr.lean ====
section
/-! SUPPORT. Statements made of every instruction, one lemma per constructor. -/

namespace Sys2Proof.Laws.InTable

/-- The encoding of the instruction lies in exactly one row of spec/opcode_table.json, the row of its mnemonic. -/
def Statement (i : Instr) : Prop :=
  (opcodeTable.filter (fun row => row.covers (encode i))).map (fun row => row.mnemonic) = [i.mnemonic]

theorem filterNone : Statement .filterNone := by unfold Statement; decide
theorem filterSub : Statement .filterSub := by unfold Statement; decide
theorem filterUp : Statement .filterUp := by unfold Statement; decide
theorem filterAvg : Statement .filterAvg := by unfold Statement; decide
theorem filterPaeth : Statement .filterPaeth := by unfold Statement; decide

theorem start (rest : BitVec 31) : Statement (.start rest) := by
  have h := start_bits rest
  simp [Statement, opcodeTable, OpcodeRow.covers, encode, Instr.mnemonic, h.1, h.2]

theorem clear (rest : BitVec 30) : Statement (.clear rest) := by
  have h := clear_bits rest
  simp [Statement, opcodeTable, OpcodeRow.covers, encode, Instr.mnemonic, h.1, h.2]

end Sys2Proof.Laws.InTable
end

