-- ==== Sys2Proof/Laws/Stages.lean ====
section
/-! SUPPORT. The laws of the engine's stages that write memory: what each writes, and that it changes nothing else. -/

namespace Sys2Proof.Machine

variable (s : State)

/-! Scatter and retirement. -/

/-- The scatter of a pixel changes RASTER and the counter of columns alone (R165). -/
theorem scatterStage_pixel (h : s.c < s.subWidth) :
    scatterStage s = { s with mem := (scatterStage s).mem, c := s.c + 1 } := by
  simp only [scatterStage, if_pos h]
  rw [copyBytes_eq]

/-- The samples of the pixel go to their place (R165). -/
theorem load_scatterStage (h : s.c < s.subWidth) (sp : Space) (a : Nat) :
    (scatterStage s).load sp a =
      if sp = .RASTER ∧ s.scatterIndex ≤ a ∧ a < s.scatterIndex + s.pb then
        s.load .CUR (s.c * s.pb + (a - s.scatterIndex))
      else s.load sp a := by
  have e : scatterStage s = { s.copyBytes .CUR .RASTER (s.c * s.pb) s.scatterIndex s.pb with c := s.c + 1 } := by
    simp only [scatterStage, if_pos h]
  rw [load_congr (s := s.copyBytes .CUR .RASTER (s.c * s.pb) s.scatterIndex s.pb) (by rw [e]) (by rw [e]),
    load_copyBytes s _ _ _ _ (by decide)]

theorem scatterStage_end (h : s.subWidth ≤ s.c) : scatterStage s = { s with stage := .retire } := by
  simp only [scatterStage, if_neg (Nat.not_lt.mpr h)]

/-- Retirement with another row to come (R132). -/
theorem retireStage_row (h : s.r + 1 < s.subHeight) :
    retireStage s = { s with mem := (retireStage s).mem, r := s.r + 1, stage := .row } := by
  simp only [retireStage, if_pos h]
  rw [copyBytes_eq]

/-- Retirement of the last row of a pass (R132, R165). -/
theorem retireStage_last (h : s.subHeight ≤ s.r + 1) :
    retireStage s = { s with mem := (retireStage s).mem, pass := s.pass + 1, stage := .beginPass } := by
  simp only [retireStage, if_neg (Nat.not_lt.mpr h)]
  rw [copyBytes_eq]

/-- The row becomes the previous row (R132). -/
theorem load_retireStage (sp : Space) (a : Nat) :
    (retireStage s).load sp a = if sp = .PREV ∧ a < s.SL then s.load .CUR a else s.load sp a := by
  have hm : (retireStage s).mem = (s.copyBytes .CUR .PREV 0 0 s.SL).mem := by unfold retireStage; split_ifs <;> rfl
  have hr : (retireStage s).resets = (s.copyBytes .CUR .PREV 0 0 s.SL).resets := by
    unfold retireStage; split_ifs <;> rfl
  rw [load_congr hm hr, load_copyBytes s _ _ _ _ (by decide)]
  simp only [Nat.zero_le, true_and, Nat.zero_add, Nat.sub_zero]

/-! The palette. -/

/-- The first `n` entries of the table, and nothing else, are written (R190, R192). -/
theorem load_expandEntries (n : Nat) (sp : Space) (a : Nat) :
    (expandEntries n s).load sp a =
      if sp = .RGBA ∧ a < 4 * n then
        (if a % 4 = 3 then s.alphaOf (a / 4) else s.load .PLTE (3 * (a / 4) + a % 4))
      else s.load sp a := by
  induction n generalizing sp a with
  | zero => simp [expandEntries]
  | succ n ih =>
    have hP : ∀ b, (expandEntries n s).load .PLTE b = s.load .PLTE b := fun b => by
      rw [ih, if_neg (by simp)]
    have hA : (expandEntries n s).alphaOf n = s.alphaOf n := by
      have hN : (expandEntries n s).NT = s.NT := by rw [expandEntries_eq]; rfl
      simp only [State.alphaOf, hN, ih .TRNS, reduceCtorEq, false_and, if_false]
    rw [expandEntries, load_expandEntry, hP, hA]
    by_cases hs : sp = .RGBA
    · subst hs
      simp only [true_and]
      by_cases h1 : 4 * n ≤ a ∧ a < 4 * n + 3
      · rw [if_pos h1, if_pos (by omega), if_neg (by omega)]
        congr 1
        omega
      · rw [if_neg h1]
        by_cases h2 : a = 4 * n + 3
        · rw [if_pos h2, if_pos (by omega), if_pos (by omega)]
          congr 1
          omega
        · rw [if_neg h2, ih]
          by_cases h3 : a < 4 * n
          · simp only [true_and, if_pos h3, if_pos (show a < 4 * (n + 1) by omega)]
          · simp only [true_and, if_neg h3, if_neg (show ¬a < 4 * (n + 1) by omega)]
    · simp only [hs, false_and, if_false, ih]

/-- The expansion changes the table, RGBA_VALID and the stage alone (R190, R191). -/
theorem expandStage_run (h : s.rgbaValid = false) :
    expandStage s = { s with mem := (expandStage s).mem, rgbaValid := true, stage := .composite } := by
  simp only [expandStage, h, Bool.false_eq_true, if_false]
  rw [expandEntries_eq]

theorem expandStage_skip (h : s.rgbaValid = true) : expandStage s = { s with stage := .composite } := by
  simp only [expandStage, h, if_true]

theorem load_expandStage (h : s.rgbaValid = false) (sp : Space) (a : Nat) :
    (expandStage s).load sp a = (expandEntries s.NP s).load sp a := by
  apply load_congr <;> simp only [expandStage, h, Bool.false_eq_true, if_false]

/-! The compositor. -/

theorem compositeIndexed_ok (k : Nat) (h : (s.load .RASTER k).toNat < s.NP) :
    compositeIndexed k s = s.copyBytes .RGBA .OUT (4 * (s.load .RASTER k).toNat) (4 * k) 4 := by
  simp only [compositeIndexed, if_neg (Nat.not_le.mpr h)]

theorem compositeIndexed_fault (k : Nat) (h : s.NP ≤ (s.load .RASTER k).toNat) :
    compositeIndexed k s =
      raiseFault .paletteIndexOutOfRange (BitVec.ofNat 32 k) ((s.load .RASTER k).setWidth 32) s := by
  simp only [compositeIndexed, if_pos h]

/-- The pixel that mode of GEOM writes when its index, if it has one, lies in the palette (R211). -/
theorem compositePixel_eq (k : Nat) (h : s.geom.indexed = true → (s.load .RASTER k).toNat < s.NP) :
    compositePixel k s = { s with mem := (compositePixel k s).mem } := by
  simp only [compositePixel]
  split_ifs with h1 h2
  · rw [compositeIndexed_ok s k (h h1), copyBytes_eq]
  · rfl
  · simp only [compositeTrue, State.store]
    rw [copyBytes_eq]

/-- The four bytes of a pixel, and no others, are written (R212 to R214). -/
theorem load_compositePixel (k : Nat) (h : s.geom.indexed = true → (s.load .RASTER k).toNat < s.NP)
    (sp : Space) (a : Nat) (ha : ¬(sp = .OUT ∧ 4 * k ≤ a ∧ a < 4 * k + 4)) :
    (compositePixel k s).load sp a = s.load sp a := by
  have h0 : ∀ n, n < 4 → ¬(sp = .OUT ∧ a = 4 * k + n) := by
    rintro n hn ⟨h1, h2⟩
    exact ha ⟨h1, by omega, by omega⟩
  simp only [compositePixel]
  split_ifs with h1 h2
  · rw [compositeIndexed_ok s k (h h1), load_copyBytes s _ _ _ _ (by decide), if_neg ha]
  · simp only [compositeGray, load_store]
    rw [if_neg (h0 3 (by omega)), if_neg (h0 2 (by omega)), if_neg (h0 1 (by omega)),
      if_neg (show ¬(sp = .OUT ∧ a = 4 * k) from h0 0 (by omega))]
  · simp only [compositeTrue, load_store]
    rw [if_neg (h0 3 (by omega)), load_copyBytes s _ _ _ _ (by decide), if_neg]
    rintro ⟨h3, h4, h5⟩
    exact ha ⟨h3, h4, by omega⟩

/-- The pixel is what its mode makes of RASTER and RGBA (R212 to R214). -/
theorem compositePixel_pixelOk (k : Nat) (h : s.geom.indexed = true → (s.load .RASTER k).toNat < s.NP) :
    (compositePixel k s).PixelOk k := by
  have he := compositePixel_eq s k h
  have hg : (compositePixel k s).geom = s.geom := by rw [he]
  have hN : (compositePixel k s).NP = s.NP := by rw [he]; rfl
  have hpb : (compositePixel k s).pb = s.pb := by rw [he]; rfl
  have hR : ∀ a, (compositePixel k s).load .RASTER a = s.load .RASTER a :=
    fun a => load_compositePixel s k h _ _ (by simp)
  have hG : ∀ a, (compositePixel k s).load .RGBA a = s.load .RGBA a :=
    fun a => load_compositePixel s k h _ _ (by simp)
  have hc := load_copyBytes s .RASTER .OUT (k * s.pb) (4 * k) (by decide) 3
  simp only [State.PixelOk, hg, hN, hpb, hR, hG]
  rcases hi : s.geom.indexed
  · simp only [Bool.false_eq_true, if_false]
    by_cases hcol : s.geom.colors = 1
    · have hp : compositePixel k s = compositeGray k s := by
        simp only [compositePixel, hi, hcol, Bool.false_eq_true, if_false, if_true]
      simp only [hp, compositeGray, load_store, if_pos hcol, State.alphaSample, true_and, if_true, and_true]
      intro n hn
      rw [if_neg (by omega)]
      interval_cases n <;> simp
    · have hp : compositePixel k s = compositeTrue k s := by
        simp only [compositePixel, hi, hcol, Bool.false_eq_true, if_false]
      have hge : (s.copyBytes .RASTER .OUT (k * s.pb) (4 * k) 3).geom = s.geom := by rw [copyBytes_eq]
      simp only [hp, compositeTrue, load_store, if_neg hcol, State.alphaSample, hge, hc, true_and, if_true,
        reduceCtorEq, false_and, if_false, and_true]
      intro n hn
      rw [if_neg (by omega), if_pos (by omega)]
      congr 1
      omega
  · have hp : compositePixel k s = s.copyBytes .RGBA .OUT (4 * (s.load .RASTER k).toNat) (4 * k) 4 := by
      simp only [compositePixel, hi, if_true, compositeIndexed_ok s k (h hi)]
    simp only [if_true, hp, load_copyBytes s .RGBA .OUT _ _ (by decide)]
    refine ⟨h hi, fun n hn => ?_⟩
    rw [if_pos ⟨trivial, by omega, by omega⟩]
    congr 1
    omega

/-- A pixel that composites moves the loop on (R211). -/
theorem compositeStage_pixel (hb : s.status.busy = true) (hk : s.k < s.W * s.H)
    (h : s.geom.indexed = true → (s.load .RASTER s.k).toNat < s.NP) :
    compositeStage s = { compositePixel s.k s with k := s.k + 1 } := by
  have e : (compositePixel s.k s).status.busy = true := by rw [compositePixel_eq s s.k h]; exact hb
  simp only [compositeStage, if_pos hk, if_pos e]

/-- A pixel whose index has no palette entry ends the decode (R212, R215). -/
theorem compositeStage_fault (hk : s.k < s.W * s.H) (hi : s.geom.indexed = true)
    (h : s.NP ≤ (s.load .RASTER s.k).toNat) :
    compositeStage s =
      raiseFault .paletteIndexOutOfRange (BitVec.ofNat 32 s.k) ((s.load .RASTER s.k).setWidth 32) s := by
  simp only [compositeStage, if_pos hk, compositePixel, hi, if_true, compositeIndexed_fault s s.k h]
  rfl

theorem compositeStage_end (h : s.W * s.H ≤ s.k) : compositeStage s = s.finish := by
  simp only [compositeStage, if_neg (Nat.not_lt.mpr h)]

/-! The first stages. -/

theorem configure_fail (n : Nat) (h : s.configCheck = some n) :
    configure s = raiseFault .configError 0 (BitVec.ofNat 32 n) { s with pos := 0 } := by
  have h' : ({ s with pos := 0 } : State).configCheck = some n := h
  simp only [configure, h']

theorem configure_ok (h : s.configCheck = none) :
    configure s = { s with pos := 0, geom := s.derivedGeom, pass := 0, stage := .beginPass } := by
  have h' : ({ s with pos := 0 } : State).configCheck = none := h
  simp only [configure, h']
  rfl

theorem beginPass_empty (h : s.pass < s.passes.length) (he : s.subWidth = 0 ∨ s.subHeight = 0) :
    beginPass s = { s with pass := s.pass + 1 } := by
  simp only [beginPass, if_pos h, if_pos he]

theorem beginPass_row (h : s.pass < s.passes.length) (hw : 0 < s.subWidth) (hh : 0 < s.subHeight) :
    beginPass s = { s with r := 0, stage := .row } := by
  simp only [beginPass, if_pos h, if_neg (show ¬(s.subWidth = 0 ∨ s.subHeight = 0) by omega)]

theorem beginPass_end (h : s.passes.length ≤ s.pass) :
    beginPass s = { s with stage := if s.geom.indexed then .expand else .composite, k := 0 } := by
  simp only [beginPass, if_neg (Nat.not_lt.mpr h), afterPasses]

/-! While BUSY a host access other than to CTRL, and any access to it, leaves the decode alone (R241). -/

/-- A host access while BUSY changes WERR, IRQ_EN, the bus reply and the count of draws alone (R241, R68). -/
theorem hostAccess_busy (a : HostAccess) (h : s.status.busy = true) :
    ∃ e w b d, hostAccess a s =
      .next { s with irqEn := e, status := { s.status with werr := w }, bus := b, draws := d } := by
  have keep : ∀ t : State, (∃ w, t = { s with status := { s.status with werr := w } }) →
      ∃ e w b d, (Host.Outcome.next t : Host.Outcome State Fault Refusal) =
        .next { s with irqEn := e, status := { s.status with werr := w }, bus := b, draws := d } := by
    rintro t ⟨w, rfl⟩
    exact ⟨s.irqEn, w, s.bus, s.draws, rfl⟩
  have lost : ∃ w, s.lostWrite = { s with status := { s.status with werr := w } } := ⟨true, rfl⟩
  have ign : s.ignoredWrite = s.lostWrite := by simp only [State.ignoredWrite, h, if_true]
  cases a with
  | writeReg o w v =>
    simp only [hostAccess, hostWriteReg]
    split
    · rw [ign]; exact keep _ lost
    · simp only [hostCommand, decode, decodeCtrl]
      split_ifs
      · simp only [exec, execStart, if_pos h]; exact keep _ lost
      · simp only [exec, execClear, if_pos h]; exact keep _ lost
      · rw [ign]; exact keep _ lost
    · exact ⟨v.getLsbD 0, s.status.werr, s.bus, s.draws, rfl⟩
    · rw [if_pos h]; exact keep _ lost
  | readReg o w =>
    simp only [hostAccess]
    rw [hostReadReg_eq]
    exact ⟨s.irqEn, s.status.werr, _, _, rfl⟩
  | writeWindow w a b =>
    simp only [hostAccess, hostWriteWindow, if_pos h]
    exact keep _ lost
  | readWindow w a =>
    simp only [hostAccess]
    rw [hostReadWindow_eq]
    exact ⟨s.irqEn, s.status.werr, _, _, rfl⟩

end Sys2Proof.Machine
end

