-- ==== Sys2Proof/Laws/Step.lean ====
section
/-! SUPPORT. What one step can do, said once: the moves of a BUSY engine, the accesses of the host while IDLE and while BUSY,
and the reset input. A proof about every step cites `step_cases` and goes through the moves. -/

namespace Sys2Proof.Machine

/-- The moves of a BUSY engine, one constructor for each way a stage can end. -/
inductive EngineMove (s : State) : State → Prop
  | checkFails (n : Nat) (hs : s.stage = .configure) (h : s.configCheck = some n) :
      EngineMove s (raiseFault .configError 0 (BitVec.ofNat 32 n) { s with pos := 0 })
  | checkPasses (hs : s.stage = .configure) (h : s.configCheck = none) :
      EngineMove s { s with pos := 0, geom := s.derivedGeom, pass := 0, stage := .beginPass }
  | emptyPass (hs : s.stage = .beginPass) (hp : s.pass < s.passes.length) (h : s.subWidth = 0 ∨ s.subHeight = 0) :
      EngineMove s { s with pass := s.pass + 1 }
  | passBegins (hs : s.stage = .beginPass) (hp : s.pass < s.passes.length) (hw : 0 < s.subWidth) (hh : 0 < s.subHeight) :
      EngineMove s { s with r := 0, stage := .row }
  | passesEnd (hs : s.stage = .beginPass) (hp : s.passes.length ≤ s.pass) :
      EngineMove s { s with stage := if s.geom.indexed then .expand else .composite, k := 0 }
  | tagMissing (hs : s.stage = .row) (hp : s.L ≤ s.pos.toNat) : EngineMove s (corruptFile s)
  | tagIllegal (hs : s.stage = .row) (hp : s.pos.toNat < s.L) (ht : 5 ≤ (s.load .IN s.pos.toNat).toNat) :
      EngineMove s (invalidFilter (s.load .IN s.pos.toNat) s.advance)
  | rowShort (i : Instr) (hs : s.stage = .row) (hp : s.pos.toNat < s.L) (hi : i.isRow = true)
      (ht : decode (.tag (s.load .IN s.pos.toNat)) = .instr i) (hl : s.L < s.pos.toNat + 1 + s.SL) :
      EngineMove s
        (corruptFile (unfilterBytes (predictorOf i) (s.L - (s.pos.toNat + 1)) { s.advance with i := 0 }))
  | row (i : Instr) (t : State) (hs : s.stage = .row) (hi : i.isRow = true)
      (ht : decode (.tag (s.load .IN s.pos.toNat)) = .instr i) (hl : s.pos.toNat + 1 + s.SL ≤ s.L)
      (ho : unfilterRow (predictorOf i) s.advance = t)
      (he : t = { s with mem := t.mem, pos := t.pos, i := t.i }) (hp : t.pos.toNat = s.pos.toNat + 1 + s.SL)
      (hf : ∀ sp a, ¬(sp = .CUR ∧ a < s.SL) → t.load sp a = s.load sp a) :
      EngineMove s { t with stage := .scatter, c := 0 }
  | pixel (hs : s.stage = .scatter) (hc : s.c < s.subWidth) :
      EngineMove s { s.copyBytes .CUR .RASTER (s.c * s.pb) s.scatterIndex s.pb with c := s.c + 1 }
  | rowScattered (hs : s.stage = .scatter) (hc : s.subWidth ≤ s.c) : EngineMove s { s with stage := .retire }
  | nextRow (hs : s.stage = .retire) (hr : s.r + 1 < s.subHeight) :
      EngineMove s { s.copyBytes .CUR .PREV 0 0 s.SL with r := s.r + 1, stage := .row }
  | passEnds (hs : s.stage = .retire) (hr : s.subHeight ≤ s.r + 1) :
      EngineMove s { s.copyBytes .CUR .PREV 0 0 s.SL with pass := s.pass + 1, stage := .beginPass }
  | expanded (hs : s.stage = .expand) (hv : s.rgbaValid = false) :
      EngineMove s { expandEntries s.NP s with rgbaValid := true, stage := .composite }
  | expansionSkipped (hs : s.stage = .expand) (hv : s.rgbaValid = true) : EngineMove s { s with stage := .composite }
  | composited (hs : s.stage = .composite) (hk : s.k < s.W * s.H)
      (hi : s.geom.indexed = true → (s.load .RASTER s.k).toNat < s.NP) :
      EngineMove s { compositePixel s.k s with k := s.k + 1 }
  | indexFault (hs : s.stage = .composite) (hk : s.k < s.W * s.H) (hi : s.geom.indexed = true)
      (h : s.NP ≤ (s.load .RASTER s.k).toNat) :
      EngineMove s (raiseFault .paletteIndexOutOfRange (BitVec.ofNat 32 s.k) ((s.load .RASTER s.k).setWidth 32) s)
  | decodeEnds (hs : s.stage = .composite) (hk : s.W * s.H ≤ s.k) : EngineMove s s.finish

/-- A tag that decodes to no instruction is 5 or more (R92). -/
theorem illegal_tag {t : Byte} (h : decode (.tag t) = .illegalTag t) : 5 ≤ t.toNat := by
  by_contra hc
  have ht : t.toNat = 0 ∨ t.toNat = 1 ∨ t.toNat = 2 ∨ t.toNat = 3 ∨ t.toNat = 4 := by omega
  rcases ht with ht | ht | ht | ht | ht <;> simp only [decode, decodeTag, ht, reduceCtorEq] at h

/-- An action of a BUSY engine is one of the moves. -/
theorem engineAction_moves {s : State} (hb : s.status.busy = true) :
    ∃ t, engineAction s = .next t ∧ EngineMove s t := by
  rcases hs : s.stage
  · rw [engineAction_configure s hb hs]
    rcases hc : s.configCheck with _ | n
    · rw [configure_ok s hc]; exact ⟨_, rfl, .checkPasses hs hc⟩
    · rw [configure_fail s n hc]; exact ⟨_, rfl, .checkFails n hs hc⟩
  · rw [engineAction_beginPass s hb hs]
    rcases Nat.lt_or_ge s.pass s.passes.length with hp | hp
    · by_cases he : s.subWidth = 0 ∨ s.subHeight = 0
      · rw [beginPass_empty s hp he]; exact ⟨_, rfl, .emptyPass hs hp he⟩
      · rw [beginPass_row s hp (by omega) (by omega)]; exact ⟨_, rfl, .passBegins hs hp (by omega) (by omega)⟩
    · rw [beginPass_end s hp]; exact ⟨_, rfl, .passesEnd hs hp⟩
  · rw [engineAction_row s hb hs]
    rcases rowStage_cases s with ⟨h, e⟩ | ⟨h, hd, e⟩ | ⟨i, h, hi, hd, e⟩
    · exact ⟨_, e, .tagMissing hs h⟩
    · exact ⟨_, e, .tagIllegal hs h (illegal_tag hd)⟩
    · have hpos : s.advance.pos.toNat = s.pos.toNat + 1 := advance_pos_toNat s h
      have hSL : s.advance.SL = s.SL := rfl
      have hL : s.advance.L = s.L := rfl
      rcases Nat.lt_or_ge s.L (s.pos.toNat + 1 + s.SL) with hl | hl
      · have e' := unfilterRow_short (predictorOf i) s.advance (by omega) (by omega)
        rw [hL, hpos] at e'
        refine ⟨_, e, ?_⟩
        rw [e', afterRow, if_neg (by simp only [corruptFile, raiseFault]; decide)]
        exact .rowShort i hs h hi hd hl
      · obtain ⟨he, hp, hf, -⟩ := unfilterRow_spec (predictorOf i) s.advance (by omega)
        refine ⟨_, e, ?_⟩
        rw [afterRow, if_pos (by rw [he]; exact hb)]
        exact .row i _ hs hi hd hl rfl he (by omega) hf
  · rw [engineAction_scatter s hb hs]
    rcases Nat.lt_or_ge s.c s.subWidth with hc | hc
    · refine ⟨_, rfl, ?_⟩
      simp only [scatterStage, if_pos hc]
      exact .pixel hs hc
    · rw [scatterStage_end s hc]; exact ⟨_, rfl, .rowScattered hs hc⟩
  · rw [engineAction_retire s hb hs]
    refine ⟨_, rfl, ?_⟩
    rcases Nat.lt_or_ge (s.r + 1) s.subHeight with hr | hr
    · simp only [retireStage, if_pos hr]; exact .nextRow hs hr
    · simp only [retireStage, if_neg (Nat.not_lt.mpr hr)]; exact .passEnds hs hr
  · rw [engineAction_expand s hb hs]
    rcases hv : s.rgbaValid
    · refine ⟨_, rfl, ?_⟩
      simp only [expandStage, hv, Bool.false_eq_true, if_false]
      exact .expanded hs hv
    · rw [expandStage_skip s hv]; exact ⟨_, rfl, .expansionSkipped hs hv⟩
  · rw [engineAction_composite s hb hs]
    rcases Nat.lt_or_ge s.k (s.W * s.H) with hk | hk
    · by_cases hi : s.geom.indexed = true → (s.load .RASTER s.k).toNat < s.NP
      · rw [compositeStage_pixel s hb hk hi]; exact ⟨_, rfl, .composited hs hk hi⟩
      · simp only [Classical.not_imp, Nat.not_lt] at hi
        rw [compositeStage_fault s hk hi.1 hi.2]
        exact ⟨_, rfl, .indexFault hs hk hi.1 hi.2⟩
    · rw [compositeStage_end s hk]; exact ⟨_, rfl, .decodeEnds hs hk⟩

/-- What a host access can do while IDLE. -/
inductive IdleAccess (s : State) : State → Prop
  | read (b : Option Reply) (d : Nat) : IdleAccess s { s with bus := b, draws := d }
  | ignored : IdleAccess s s
  | irqEn (v : Bool) : IdleAccess s { s with irqEn := v }
  | width (v : Word) : IdleAccess s { s with width := v }
  | height (v : Word) : IdleAccess s { s with height := v }
  | format (v : ImageFormat) : IdleAccess s { s with format := v }
  | streamLen (v : Word) : IdleAccess s { s with streamLen := v }
  | palCount (v : BitVec 9) : IdleAccess s { s with palCount := v, rgbaValid := false }
  | trnsCount (v : BitVec 9) : IdleAccess s { s with trnsCount := v, rgbaValid := false }
  | inByte (a : Nat) (v : Byte) (h : a < s.caps.size .IN) : IdleAccess s (s.store .IN a v)
  | plteByte (a : Nat) (v : Byte) (h : a < s.caps.size .PLTE) :
      IdleAccess s { s.store .PLTE a v with rgbaValid := false }
  | trnsByte (a : Nat) (v : Byte) (h : a < s.caps.size .TRNS) :
      IdleAccess s { s.store .TRNS a v with rgbaValid := false }
  | start : IdleAccess s s.beginDecode
  | clear : IdleAccess s s.clearReport

theorem hostAccess_idle {s : State} (a : HostAccess) (h : s.status.busy = false) :
    ∃ t, hostAccess a s = .next t ∧ IdleAccess s t := by
  have ign : s.ignoredWrite = s := by simp only [State.ignoredWrite, h, Bool.false_eq_true, if_false]
  cases a with
  | writeReg o w v =>
    simp only [hostAccess, hostWriteReg]
    split
    · rw [ign]; exact ⟨_, rfl, .ignored⟩
    · simp only [hostCommand, decode, decodeCtrl]
      split_ifs
      · simp only [exec, execStart, h, Bool.false_eq_true, if_false]; exact ⟨_, rfl, .start⟩
      · simp only [exec, execClear, h, Bool.false_eq_true, if_false]; exact ⟨_, rfl, .clear⟩
      · rw [ign]; exact ⟨_, rfl, .ignored⟩
    · exact ⟨_, rfl, .irqEn _⟩
    · next g _ _ _ =>
      simp only [h, Bool.false_eq_true, if_false]
      refine ⟨_, rfl, ?_⟩
      cases g
      · exact .ignored
      · exact .ignored
      · exact .irqEn _
      · exact .ignored
      · exact .ignored
      · exact .ignored
      · exact .width _
      · exact .height _
      · exact .format _
      · exact .streamLen _
      · exact .palCount _
      · exact .trnsCount _
      · exact .ignored
      · exact .ignored
  | readReg o w =>
    simp only [hostAccess]
    rw [hostReadReg_eq]
    exact ⟨_, rfl, .read _ _⟩
  | writeWindow w a b =>
    simp only [hostAccess, hostWriteWindow, h, Bool.false_eq_true, if_false]
    refine ⟨_, rfl, ?_⟩
    split_ifs with ha
    · cases w
      · exact .inByte a b ha
      · exact .plteByte a b ha
      · exact .trnsByte a b ha
      · exact .ignored
      · exact .ignored
      · exact .ignored
    · exact .ignored
  | readWindow w a =>
    simp only [hostAccess]
    rw [hostReadWindow_eq]
    exact ⟨_, rfl, .read _ _⟩

/-- What a step can do. In every case but the reset input, `rest` is the schedule without the turn taken. -/
inductive StepMove (s : State) : State → Prop
  | idle (rest : List Turn) (hb : s.status.busy = false) : StepMove s { s with schedule := rest }
  | access (rest : List Turn) (t : State) (hb : s.status.busy = false) (h : IdleAccess { s with schedule := rest } t) :
      StepMove s t
  | busyAccess (rest : List Turn) (e w : Bool) (b : Option Reply) (d : Nat) (hb : s.status.busy = true) :
      StepMove s
        { s with schedule := rest, irqEn := e, status := { s.status with werr := w }, bus := b, draws := d }
  | engine (rest : List Turn) (t : State) (hb : s.status.busy = true) (h : EngineMove { s with schedule := rest } t) :
      StepMove s t
  | reset (rest : List Turn) (h : s.schedule = .reset :: rest) : StepMove s (hardReset { s with schedule := rest })

/-- A step always goes on, by one of the moves. -/
theorem step_moves (s : State) : ∃ t, step s = .next t ∧ StepMove s t := by
  rcases turn_cases s with ⟨s', h⟩ | ⟨a, s', h⟩ | ⟨rest, h⟩
  · have e := engineTurn_eq h
    rw [step_of_engineTurn h]
    rcases hb : s.status.busy
    · have hb' : s'.status.busy = false := by rw [e]; exact hb
      rw [engineAction_idle s' hb', e]
      exact ⟨_, rfl, .idle _ hb⟩
    · have hb' : s'.status.busy = true := by rw [e]; exact hb
      obtain ⟨t, ht, hm⟩ := engineAction_moves hb'
      rw [e] at hm
      exact ⟨t, ht, .engine _ t hb hm⟩
  · have e := hostTurn_eq h
    rw [step_of_hostTurn h]
    rcases hb : s.status.busy
    · have hb' : s'.status.busy = false := by rw [e]; exact hb
      obtain ⟨t, ht, hm⟩ := hostAccess_idle a hb'
      rw [e] at hm
      exact ⟨t, ht, .access _ t hb hm⟩
    · have hb' : s'.status.busy = true := by rw [e]; exact hb
      obtain ⟨v, w, b, d, hm⟩ := hostAccess_busy s' a hb'
      rw [hm, e]
      exact ⟨_, rfl, .busyAccess _ v w b d hb⟩
  · refine ⟨_, ?_, .reset rest h⟩
    simp only [step, h]

/-- The inversion of a step. -/
theorem step_cases {s t : State} (h : step s = .next t) : StepMove s t := by
  obtain ⟨u, hu, hm⟩ := step_moves s
  rw [h] at hu
  cases hu
  exact hm

/-- A run of one step more. -/
theorem run_succ {s t : State} (h : step s = .next t) (n : Nat) :
    Sys2Proof.core.run (n + 1) s = Sys2Proof.core.run n t := by
  have h' : Sys2Proof.core.step s = .next t := h
  simp only [Host.Core.run, h']

end Sys2Proof.Machine
end

