-- ==== Sys2Proof/Laws/Progress.lean ====
section
/-! SUPPORT. Every move of a BUSY engine brings the decode nearer to its end: a measure of four numbers in lexicographic order
that each move decreases (R237), and what a move leaves alone. -/

namespace Sys2Proof.Machine

/-- Which part of R236 is still to come: the check, the passes, the expansion, the compositing. -/
def State.phase (s : State) : Nat :=
  match s.stage with
  | .configure => 3
  | .beginPass => 2
  | .row => 2
  | .scatter => 2
  | .retire => 2
  | .expand => 1
  | .composite => 0

/-- Within the passes, how many beginnings and bodies of passes are still to come; in the compositing, how many pixels. -/
def State.passesLeft (s : State) : Nat :=
  let inBody := if s.pass < s.passes.length then 2 * (s.passes.length - s.pass) - 1 else 1
  match s.stage with
  | .configure => 0
  | .beginPass => 2 * (s.passes.length - s.pass)
  | .row => inBody
  | .scatter => inBody
  | .retire => inBody
  | .expand => 0
  | .composite => s.W * s.H - s.k

/-- Within a pass, how many rows are still to come. -/
def State.rowsLeft (s : State) : Nat :=
  match s.stage with
  | .configure => 0
  | .beginPass => 0
  | .row => s.subHeight - s.r
  | .scatter => s.subHeight - s.r
  | .retire => s.subHeight - s.r
  | .expand => 0
  | .composite => 0

/-- Within a row, how many actions are still to come. -/
def State.actionsLeft (s : State) : Nat :=
  match s.stage with
  | .configure => 0
  | .beginPass => 0
  | .row => s.subWidth + 2
  | .scatter => s.subWidth - s.c + 1
  | .retire => 0
  | .expand => 0
  | .composite => 0

/-- How far a decode is from its end. -/
def State.remaining (s : State) : Nat × Nat × Nat × Nat := (s.phase, s.passesLeft, s.rowsLeft, s.actionsLeft)

/-- One decode is nearer to its end than another. -/
abbrev Nearer : Nat × Nat × Nat × Nat → Nat × Nat × Nat × Nat → Prop :=
  Prod.Lex (· < ·) (Prod.Lex (· < ·) (Prod.Lex (· < ·) (· < ·)))

theorem nearer_wf : WellFounded Nearer :=
  WellFounded.prod_lex Nat.lt_wfRel.wf
    (WellFounded.prod_lex Nat.lt_wfRel.wf (WellFounded.prod_lex Nat.lt_wfRel.wf Nat.lt_wfRel.wf))

theorem nearer_phase {a b : Nat} {x y : Nat × Nat × Nat} (h : a < b) : Nearer (a, x) (b, y) := Prod.Lex.left _ _ h

theorem nearer_passes {n a b : Nat} {x y : Nat × Nat} (h : a < b) : Nearer (n, a, x) (n, b, y) :=
  Prod.Lex.right _ (Prod.Lex.left _ _ h)

theorem nearer_rows {n m a b x y : Nat} (h : a < b) : Nearer (n, m, a, x) (n, m, b, y) :=
  Prod.Lex.right _ (Prod.Lex.right _ (Prod.Lex.left _ _ h))

theorem nearer_actions {n m p a b : Nat} (h : a < b) : Nearer (n, m, p, a) (n, m, p, b) :=
  Prod.Lex.right _ (Prod.Lex.right _ (Prod.Lex.right _ h))

/-- A move leaves the turns to come alone. -/
theorem EngineMove.schedule_eq {s t : State} (h : EngineMove s t) : t.schedule = s.schedule := by
  cases h with
  | rowShort i hs hp hi ht hl =>
    rw [unfilterBytes_eq (predictorOf i) (s.L - (s.pos.toNat + 1)) { s.advance with i := 0 }]
    rfl
  | row i v hs hi ht hl ho he hp hf => rw [he]
  | pixel hs hc => rw [copyBytes_eq]
  | nextRow hs hr => rw [copyBytes_eq]
  | passEnds hs hr => rw [copyBytes_eq]
  | expanded hs hv => rw [expandEntries_eq]
  | composited hs hk hi => rw [compositePixel_eq s s.k hi]
  | _ => rfl

/-- A fault of a running decode ends it in FAULT alone (R256, R242). -/
theorem raiseFault_ends {f : FaultCause} {p v : Word} {s : State} (hd : s.status.done = false) :
    (raiseFault f p v s).status.busy = false ∧
      ((raiseFault f p v s).status.done ^^ (raiseFault f p v s).status.fault) = true :=
  ⟨rfl, by rw [raiseFault_status, hd]; rfl⟩

/-- A move leaves STATUS alone or ends the decode in exactly one of DONE and FAULT (R24, R242). -/
theorem EngineMove.status_eq_or_ends {s t : State} (h : EngineMove s t) (hd : s.status.done = false)
    (hf : s.status.fault = false) :
    t.status = s.status ∨ (t.status.busy = false ∧ (t.status.done ^^ t.status.fault) = true) := by
  cases h with
  | rowShort i hs hp hi ht hl => exact .inr (raiseFault_ends ((unfilterBytes_flags _ _ _).1.trans hd))
  | row i v hs hi ht hl ho he hp hf => rw [he]; exact .inl rfl
  | pixel hs hc => rw [copyBytes_eq]; exact .inl rfl
  | nextRow hs hr => rw [copyBytes_eq]; exact .inl rfl
  | passEnds hs hr => rw [copyBytes_eq]; exact .inl rfl
  | expanded hs hv => rw [expandEntries_eq]; exact .inl rfl
  | composited hs hk hi => rw [compositePixel_eq s s.k hi]; exact .inl rfl
  | checkFails n hs h => exact .inr (raiseFault_ends hd)
  | tagMissing hs hp => exact .inr (raiseFault_ends hd)
  | tagIllegal hs hp ht => exact .inr (raiseFault_ends hd)
  | indexFault hs hk hi h => exact .inr (raiseFault_ends hd)
  | decodeEnds hs hk => exact .inr ⟨rfl, by show (true ^^ s.status.fault) = true; rw [hf]; rfl⟩
  | _ => exact .inl rfl

/-- A move that leaves the decode running brings it nearer to its end (R237). -/
theorem EngineMove.nearer {s t : State} (h : EngineMove s t) (hb : t.status.busy = true) :
    Nearer t.remaining s.remaining := by
  cases h with
  | checkFails n hs h => cases hb
  | tagMissing hs hp => cases hb
  | tagIllegal hs hp ht => cases hb
  | rowShort i hs hp hi ht hl => cases hb
  | indexFault hs hk hi h => cases hb
  | decodeEnds hs hk => cases hb
  | checkPasses hs h => exact nearer_phase (by simp only [State.phase, hs]; decide)
  | emptyPass hs hp h =>
    simp only [State.remaining, State.phase, State.passesLeft, hs]
    exact nearer_passes (show 2 * (s.passes.length - (s.pass + 1)) < 2 * (s.passes.length - s.pass) by omega)
  | passBegins hs hp hw hh =>
    simp only [State.remaining, State.phase, State.passesLeft, hs]
    refine nearer_passes ?_
    show (if s.pass < s.passes.length then 2 * (s.passes.length - s.pass) - 1 else 1) < 2 * (s.passes.length - s.pass)
    split_ifs
    omega
  | passesEnd hs hp =>
    refine nearer_phase ?_
    simp only [State.phase, hs]
    split_ifs <;> decide
  | row i v hs hi ht hl ho he hp hf =>
    rw [he]
    simp only [State.remaining, State.phase, State.passesLeft, State.rowsLeft, State.actionsLeft, hs]
    exact nearer_actions (show s.subWidth - 0 + 1 < s.subWidth + 2 by omega)
  | pixel hs hc =>
    rw [copyBytes_eq]
    simp only [State.remaining, State.phase, State.passesLeft, State.rowsLeft, State.actionsLeft, hs]
    exact nearer_actions (show s.subWidth - (s.c + 1) + 1 < s.subWidth - s.c + 1 by omega)
  | rowScattered hs hc =>
    simp only [State.remaining, State.phase, State.passesLeft, State.rowsLeft, State.actionsLeft, hs]
    exact nearer_actions (Nat.succ_pos _)
  | nextRow hs hr =>
    rw [copyBytes_eq]
    simp only [State.remaining, State.phase, State.passesLeft, State.rowsLeft, State.actionsLeft, hs]
    exact nearer_rows (show s.subHeight - (s.r + 1) < s.subHeight - s.r by omega)
  | passEnds hs hr =>
    rw [copyBytes_eq]
    simp only [State.remaining, State.phase, State.passesLeft, hs]
    refine nearer_passes ?_
    show 2 * (s.passes.length - (s.pass + 1)) <
      if s.pass < s.passes.length then 2 * (s.passes.length - s.pass) - 1 else 1
    split_ifs <;> omega
  | expanded hs hv => exact nearer_phase (by simp only [State.phase, hs]; decide)
  | expansionSkipped hs hv => exact nearer_phase (by simp only [State.phase, hs]; decide)
  | composited hs hk hi =>
    rw [compositePixel_eq s s.k hi]
    simp only [State.remaining, State.phase, State.passesLeft, hs]
    exact nearer_passes (show s.W * s.H - (s.k + 1) < s.W * s.H - s.k by omega)

end Sys2Proof.Machine
end

