-- ==== Sys2Proof/Machine/Listing.lean ====
section
/-! DEFINITION. The stream and setup notation of 30_encoding.md R100: what each line assembles to, and the host accesses it
expands to. -/

namespace Sys2Proof.Machine

/-- One line of a listing (R100). -/
inductive Line
  /-- `<MNEMONIC> b0 b1 ...` -/
  | row (rec : Record)
  /-- `.tag 0xNN b0 ...`, the only way to write an illegal tag -/
  | rawTag (t : Byte) (data : List Byte)
  /-- `.pass n`, a comment -/
  | passMark (n : Nat)
  /-- `.config W H CT IL` -/
  | config (width height : Word) (colorType interlace : Byte)
  /-- `.palette (r,g,b) ...` -/
  | palette (entries : List (Byte × Byte × Byte))
  /-- `.trns a0 a1 ...` -/
  | trns (alphas : List Byte)
  /-- `.start` -/
  | start
  deriving DecidableEq, Repr

/-- The stream bytes a line assembles to. -/
def Line.bytes : Line → List Byte
  | .row rec => assembleRecord rec
  | .rawTag t data => t :: data
  | .passMark _ => []
  | .config _ _ _ _ => []
  | .palette _ => []
  | .trns _ => []
  | .start => []

/-- A word the host writes to a register. -/
def regTurn (offset : BitVec 6) (v : Word) : Turn := .host (.writeReg offset .word v)

/-- Bytes the host writes to a window, from an index on. -/
def windowTurns (w : Window) (a : Nat) (bytes : List Byte) : List Turn :=
  bytes.mapIdx (fun n b => .host (.writeWindow w (a + n) b))

/-- The host accesses a line expands to, with `n` stream bytes assembled so far. -/
def Line.turns (n : Nat) : Line → List Turn
  | .row rec => windowTurns .IN n (assembleRecord rec)
  | .rawTag t data => windowTurns .IN n (t :: data)
  | .passMark _ => []
  | .config w h ct il => [regTurn 0x18 w, regTurn 0x1C h, regTurn 0x20 (ImageFormat.word ⟨8, ct, il⟩)]
  | .palette es =>
    windowTurns .PLTE 0 (es.flatMap (fun e => [e.1, e.2.1, e.2.2])) ++ [regTurn 0x28 (BitVec.ofNat 32 es.length)]
  | .trns as => windowTurns .TRNS 0 as ++ [regTurn 0x2C (BitVec.ofNat 32 as.length)]
  | .start => [regTurn 0x24 (BitVec.ofNat 32 n), regTurn 0x00 1]

/-- A listing as a schedule of host accesses, with `n` stream bytes assembled before it. -/
def listingFrom : Nat → List Line → List Turn
  | _, [] => []
  | n, l :: ls => l.turns n ++ listingFrom (n + l.bytes.length) ls

/-- A listing as a schedule of host accesses (R100). -/
def listing (ls : List Line) : List Turn := listingFrom 0 ls

end Sys2Proof.Machine
end

