-- ==== Sys2Proof/Tests/Slice0.lean ====
section
/-! SUPPORT. Tests of the model, their expected values taken from spec/ (mostly 95_test_vectors.md), and for every statement
that has hypotheses a state and operands that meet them. -/

namespace Sys2Proof.Tests

open Sys2Proof Sys2Proof.Machine

/-! Small states. -/

/-- A memory that holds bytes from an index on. -/
def cells : Nat → List Byte → Memory
  | _, [] => []
  | n, b :: bs => (n, b) :: cells (n + 1) bs

/-- Small capacities that meet R6. -/
def caps : Caps := ⟨64, 64, 64, 16⟩

/-- A PRB after reset. -/
def idle : State := State.resetWith caps

/-- BUSY and no other flag. -/
def busy : Status := ⟨true, false, false, false⟩

/-- A decode of a `w`×`h` non-interlaced image about to fetch the record of row `r` from the beginning of `stream`. -/
def atRow (w h : Word) (pb : Byte) (r : Nat) (prev stream : List Byte) : State :=
  { idle with
    status := busy, width := w, height := h, format := ⟨8, 0, 0⟩, streamLen := BitVec.ofNat 32 stream.length
    geom := ⟨pb, 1, false, false⟩, r := r, stage := .row
    mem := { idle.mem with inp := cells 0 stream, prev := cells 0 prev } }

/-- The decode of program P1 (1×1, grayscale, `NONE 80`), at a stage, with the cursor at `pos`. -/
def gray (st : Stage) (pos : Word) : State :=
  { idle with
    status := busy, width := 1, height := 1, format := ⟨8, 0, 0⟩, streamLen := 2, pos := pos
    geom := ⟨1, 1, false, false⟩, stage := st
    mem := { idle.mem with
      inp := [(0, 0x00), (1, 0x80)], cur := [(0, 0x80)], prev := [(0, 0x80)], raster := [(0, 0x80)]
      out := [(0, 0x80), (1, 0x80), (2, 0x80), (3, 0xFF)] } }

/-- A decode of a 1×1 indexed image, the index 0 of a palette of one entry, past its one pass. -/
def indexed (st : Stage) : State :=
  { gray st 2 with
    format := ⟨8, 3, 0⟩, palCount := 1, geom := ⟨1, 1, false, true⟩
    mem := { (gray st 2).mem with
      plte := [(0, 0x10), (1, 0x20), (2, 0x30)], raster := [(0, 0x00)]
      rgba := [(0, 0x10), (1, 0x20), (2, 0x30), (3, 0xFF)] } }

/-- A 1×1 Adam7 decode about to begin a pass. -/
def adam (pass : Nat) : State := { gray .beginPass 0 with format := ⟨8, 0, 1⟩, pass := pass }

/-- A state whose next turn is a host access. -/
def hostNext (a : HostAccess) (s : State) : State := { s with schedule := [.host a] }

/-- What an outcome that goes on leaves to see. -/
def observe {α : Type} (f : State → α) : Host.Outcome State Fault Refusal → Option α
  | .next s => some (f s)
  | .fault _ => none
  | .refused _ => none

/-- The first bytes of a memory. -/
def bytes (sp : Space) (n : Nat) (s : State) : List Byte := (List.range n).map (s.load sp)

/-- The report of a fault, and the cursor. -/
def report (s : State) : Status × BitVec 8 × Word × Word × Word := (s.status, s.errCode, s.errPos, s.errVal, s.pos)

/-! Decoding: the words of R92 and R97, bit by bit. -/

theorem test_decode_none : decode (.tag 0b00000000#8) = .instr .filterNone := by decide
theorem test_decode_sub : decode (.tag 0b00000001#8) = .instr .filterSub := by decide
theorem test_decode_up : decode (.tag 0b00000010#8) = .instr .filterUp := by decide
theorem test_decode_avg : decode (.tag 0b00000011#8) = .instr .filterAvg := by decide
theorem test_decode_paeth : decode (.tag 0b00000100#8) = .instr .filterPaeth := by decide
theorem test_decode_illegal :
    decode (.tag 0b00000101#8) = .illegalTag 5 ∧ decode (.tag 0b11111111#8) = .illegalTag 255 := by decide
theorem test_decode_start : decode (.ctrl 0b00000000000000000000000000000001#32) = .instr (.start 0) := by decide
theorem test_decode_both : decode (.ctrl 0b00000000000000000000000000000011#32) = .instr (.start 1) := by decide
theorem test_decode_clear :
    decode (.ctrl 0b00000000000000000000000000000010#32) = .instr (.clear 0) ∧
    decode (.ctrl 0b11111111111111111111111111111110#32) = .instr (.clear 0b111111111111111111111111111111#30) := by
  decide
theorem test_decode_no_command :
    decode (.ctrl 0b00000000000000000000000000000100#32) = .noCommand 4 := by decide
theorem test_table_words :
    decodeTableWord 8 0 = some .filterNone ∧ decodeTableWord 8 4 = some .filterPaeth ∧
    decodeTableWord 8 7 = none ∧ decodeTableWord 32 1 = some (.start 0) ∧ decodeTableWord 32 2 = some (.clear 0) := by
  decide

/-- R100: `SUB 05 FE 03` assembles to `01 05 FE 03`. -/
theorem test_assemble : assemble [⟨.filterSub, [0x05, 0xFE, 0x03]⟩] = [0x01, 0x05, 0xFE, 0x03] := by decide

/-- No two rows of the opcode table of one format cover one word of the table. -/
theorem test_table_rows_apart :
    (opcodeTable.map (fun row =>
      (opcodeTable.filter (fun other => other.isRow == row.isRow &&
        (other.matchBits &&& row.mask) == row.matchBits)).length)) = [1, 1, 1, 1, 1, 1, 1] := by decide

/-! Well-formedness: each check refuses an ill-formed record. -/

theorem test_wellFormed : Record.wellFormed 2 ⟨.filterAvg, [1, 2]⟩ = true := by decide
theorem test_short_record_refused : Record.wellFormed 2 ⟨.filterAvg, [1]⟩ = false := by decide
theorem test_long_record_refused : Record.wellFormed 2 ⟨.filterAvg, [1, 2, 3]⟩ = false := by decide
theorem test_host_command_in_record_refused : Record.wellFormed 2 ⟨.clear 0, [1, 2]⟩ = false := by decide

/-! The filter instructions (95_test_vectors.md, F1 to F10). -/

theorem test_none : observe (bytes .CUR 3) (exec .filterNone (atRow 3 1 1 0 [] [0x01, 0x02, 0x03])) =
    some [0x01, 0x02, 0x03] := by decide
theorem test_sub_wraps : observe (bytes .CUR 3) (exec .filterSub (atRow 3 1 1 0 [] [0x0A, 0xFA, 0x0A])) =
    some [0x0A, 0x04, 0x0E] := by decide
theorem test_sub_lanes : observe (bytes .CUR 6) (exec .filterSub (atRow 2 1 3 0 [] [0x10, 0x20, 0x30, 0xF0, 0xF0, 0xF0])) =
    some [0x10, 0x20, 0x30, 0x00, 0x10, 0x20] := by decide
theorem test_up_wraps : observe (bytes .CUR 2) (exec .filterUp (atRow 2 2 1 1 [0xC8, 0x64] [0x64, 0x05])) =
    some [0x2C, 0x69] := by decide
theorem test_up_first_row : observe (bytes .CUR 2) (exec .filterUp (atRow 2 1 1 0 [0xC8, 0x64] [0x07, 0x09])) =
    some [0x07, 0x09] := by decide
theorem test_avg_sum_exact : observe (bytes .CUR 2) (exec .filterAvg (atRow 2 2 1 1 [0xFF, 0xFF] [0x80, 0x01])) =
    some [0xFF, 0x00] := by decide
theorem test_avg_lanes : observe (bytes .CUR 4)
    (exec .filterAvg (atRow 2 2 2 1 [0x10, 0x20, 0x38, 0x50] [0x01, 0x02, 0x03, 0x04])) =
    some [0x09, 0x12, 0x23, 0x35] := by decide
theorem test_paeth : observe (bytes .CUR 2) (exec .filterPaeth (atRow 2 2 1 1 [0x0F, 0x0A] [0x05, 0x00])) =
    some [0x14, 0x0F] := by decide
theorem test_paeth_first_row : observe (bytes .CUR 3) (exec .filterPaeth (atRow 3 1 1 0 [] [0x05, 0xFE, 0x03])) =
    some [0x05, 0x03, 0x06] := by decide

/-- The table of L2.2. -/
theorem test_paeth_table :
    [predPaeth 0x00 0x00 0x00, predPaeth 0x07 0x07 0x07, predPaeth 0x80 0x80 0x00, predPaeth 0xFF 0xFF 0x00,
     predPaeth 0x6E 0x50 0x64, predPaeth 0xC8 0x32 0x64, predPaeth 0x0A 0x14 0x0F, predPaeth 0x14 0x0A 0x0F,
     predPaeth 0x64 0x32 0xC8, predPaeth 0x00 0x00 0xFF, predPaeth 0x00 0xFF 0x00, predPaeth 0xFF 0x00 0x00,
     predPaeth 0x01 0x02 0x03, predPaeth 0x03 0x02 0x01, predPaeth 0x00 0x80 0x80, predPaeth 0x0A 0x1E 0x14] =
    [0x00, 0x07, 0x80, 0xFF, 0x50, 0xC8, 0x0F, 0x0F, 0x32, 0x00, 0xFF, 0xFF, 0x01, 0x03, 0x00, 0x14] := by decide

/-- The example of R251: the stream `00 05` of a 2×1 image ends one byte early. -/
theorem test_short_row : observe report (step (atRow 2 1 1 0 [] [0x00, 0x05])) =
    some (⟨false, false, true, false⟩, 1, 2, 0, 2) := by decide

/-- R252: an illegal tag 7. -/
theorem test_illegal_tag : observe report (step (atRow 1 1 1 0 [] [0x07, 0x20])) =
    some (⟨false, false, true, false⟩, 2, 0, 7, 1) := by decide

/-! The host commands and accesses. -/

/-- A START of an idle PRB clears the report and makes it BUSY (R230). -/
theorem test_start : observe report (exec (.start 0) { idle with status := ⟨false, false, true, true⟩, errCode := 2 }) =
    some (busy, 0, 0, 0, 0) := by decide
theorem test_start_busy : observe report (exec (.start 0) (gray .row 0)) =
    some (⟨true, false, false, true⟩, 0, 0, 0, 0) := by decide
theorem test_clear : observe report (exec (.clear 0) { idle with status := ⟨false, false, true, false⟩, errCode := 2 }) =
    some (⟨false, false, false, false⟩, 0, 0, 0, 0) := by decide
theorem test_clear_busy : observe report (exec (.clear 0) (gray .row 0)) =
    some (⟨true, false, false, true⟩, 0, 0, 0, 0) := by decide

/-- H5: a word that holds no command, written to CTRL while IDLE, changes nothing. -/
theorem test_no_command : observe report (step (hostNext (.writeReg 0x00 .word 4) idle)) = some (report idle) := by decide
/-- H10: FORMAT keeps its three fields. -/
theorem test_format_reserved_bits : observe (fun t => t.regWord .FORMAT)
    (step (hostNext (.writeReg 0x20 .word 0xFFFFFFFF) idle)) = some 0x00FFFFFF := by decide
/-- H11: PAL_COUNT keeps nine bits. -/
theorem test_pal_count_reserved_bits : observe (fun t => t.regWord .PAL_COUNT)
    (step (hostNext (.writeReg 0x28 .word 0xFFFFFFFF) idle)) = some 0x000001FF := by decide
/-- H15: narrow and misaligned reads return 0. -/
theorem test_odd_reads : observe (fun t => t.bus) (step (hostNext (.readReg 0x04 .half) (gray .row 0))) = some (some (.word 0)) ∧
    observe (fun t => t.bus) (step (hostNext (.readReg 0x06 .word) (gray .row 0))) = some (some (.word 0)) := by decide
/-- GEOM of P2, P3 and P4. -/
theorem test_geom_words : (⟨3, 3, false, false⟩ : Geom).word = 0x00000303 ∧ (⟨2, 1, true, false⟩ : Geom).word = 0x00000502 ∧
    (⟨1, 1, false, true⟩ : Geom).word = 0x00000901 := by decide

/-- The host accesses of P1 (R100). -/
theorem test_listing : listing [.config 1 1 0 0, .passMark 0, .row ⟨.filterNone, [0x80]⟩, .start] =
    [.host (.writeReg 0x18 .word 1), .host (.writeReg 0x1C .word 1), .host (.writeReg 0x20 .word 8),
     .host (.writeWindow .IN 0 0x00), .host (.writeWindow .IN 1 0x80), .host (.writeReg 0x24 .word 2),
     .host (.writeReg 0x00 .word 1)] := by decide

/-! The engine's other stages. -/

/-- `SubDim` at the sizes of P3 (3×3): the widths and heights of the seven passes. -/
theorem test_subDim : adam7.map (fun g => (subDim 3 g.x0 g.dx, subDim 3 g.y0 g.dy)) =
    [(1, 1), (0, 1), (1, 0), (1, 1), (2, 1), (1, 2), (3, 1)] := by decide
/-- The `N` of P3 and of L1-4. -/
theorem test_stream_bytes : streamBytes 3 3 2 adam7 = 24 ∧ streamBytes 8 8 1 adam7 = 79 := by decide
theorem test_scatter : observe (bytes .RASTER 1) (step { gray .scatter 2 with mem := { (gray .scatter 2).mem with raster := [] } }) =
    some [0x80] := by decide
theorem test_retire : observe (fun t => (t.stage, t.pass)) (step (gray .retire 2)) = some (.beginPass, 1) := by decide
/-- L1-5: an entry without a transparency byte is opaque. -/
theorem test_expand : observe (bytes .RGBA 4) (step { indexed .expand with mem := { (indexed .expand).mem with rgba := [] } }) =
    some [0x10, 0x20, 0x30, 0xFF] := by decide
/-- L1-6. -/
theorem test_composite_gray : observe (bytes .OUT 4) (step { gray .composite 2 with mem := { (gray .composite 2).mem with out := [] } }) =
    some [0x80, 0x80, 0x80, 0xFF] := by decide
/-- An index without an entry faults (R212). -/
theorem test_palette_index_fault :
    observe report (step { indexed .composite with mem := { (indexed .composite).mem with raster := [(0, 0x04)] } }) =
      some (⟨false, false, true, false⟩, 3, 0, 4, 2) := by decide
/-- R71(d), R242: after a fault the host reads the RGBA entries below PAL_COUNT as the decode left them, although RGBA_VALID
is 0. -/
theorem test_rgba_after_fault : observe (fun t => t.bus)
    (step (hostNext (.readWindow .RGBA 1) (raiseFault .paletteIndexOutOfRange 0 4 (indexed .composite)))) =
      some (some (.byte 0x20)) := by decide
theorem test_done : observe report (step { gray .composite 2 with k := 1 }) =
    some (⟨false, true, false, false⟩, 0, 0, 0, 2) := by decide
theorem test_config_error : observe report (step { idle with status := busy }) =
    some (⟨false, false, true, false⟩, 4, 0, 1, 0) := by decide

/-- The instruction placed by `withFetchWord` is the one the next step runs. -/
theorem test_withFetchWord :
    observe (fun t => (t.stage, t.load .CUR 0)) (step (State.reset.withFetchWord 8 4)) = some (.scatter, 0) ∧
    observe (fun t => t.status) (step (State.reset.withFetchWord 32 1)) = some busy ∧
    observe (fun t => t.status) (step (State.reset.withFetchWord 32 2)) = some ⟨false, false, false, false⟩ := by decide

/-! Witnesses: for every statement that has hypotheses, a state and operands that meet them together, and for a statement with
several clauses one for each clause, at a boundary of its range. -/

/-- The invariant of a small state of a running decode, from facts that evaluate. -/
theorem inv_of_running {s : State} (hc : s.caps.wf) (hw : ∀ sp, (s.mem.get sp).wf)
    (hi : ∀ sp x, x ∈ s.mem.get sp → x.1 < s.caps.size sp) (hf : s.OneFlag) (h1 : s.configCheck = none)
    (h2 : s.geom = s.derivedGeom) (h3 : s.pos.toNat ≤ s.L) (h4 : s.PlaceOk)
    (ht : s.rgbaValid = true → s.TableHolds) : s.Inv :=
  ⟨hc, hw, hi, hf, fun _ _ => ⟨h1, h2, h3, h4⟩, ht⟩

theorem gray_row_inv : (gray .row 0).Inv :=
  inv_of_running (by decide) (fun sp => by cases sp <;> decide) (fun sp => by cases sp <;> decide)
    ⟨by decide, by decide, by decide⟩ (by decide) (by decide) (by decide)
    (show _ ∧ _ ∧ _ from ⟨by decide, by decide, by decide⟩) (fun h => by cases h)

theorem gray_composite_inv (k : Nat) (hk : k = 0 ∨ k = 1) : ({ gray .composite 2 with k := k } : State).Inv := by
  rcases hk with rfl | rfl <;> exact inv_of_running (by decide) (fun sp => by cases sp <;> decide) (fun sp => by cases sp <;> decide)
    ⟨by decide, by decide, by decide⟩ (by decide) (by decide) (by decide)
    (show _ ∧ _ from ⟨by decide, fun h => by cases h⟩) (fun h => by cases h)

theorem indexed_table (b : Bool) : ({ indexed .expand with rgbaValid := b } : State).TableHolds := by
  intro j hj
  have hN : ({ indexed .expand with rgbaValid := b } : State).NP = 1 := rfl
  have : j = 0 := by omega
  subst this
  refine ⟨?_, ?_, ?_, ?_⟩ <;> cases b <;> decide

theorem indexed_expand_inv (b : Bool) : ({ indexed .expand with rgbaValid := b } : State).Inv := by
  cases b <;> exact inv_of_running (by decide) (fun sp => by cases sp <;> decide)
    (fun sp => by cases sp <;> decide)
    ⟨by decide, by decide, by decide⟩ (by decide) (by decide) (by decide)
    (show _ ∧ _ from ⟨by decide, by decide⟩) (fun _ => indexed_table _)

theorem witness_TagsDecode : 5 ≤ (5#8).toNat ∧ 5 ≤ (255#8).toNat := by decide

theorem witness_CtrlValuesDecode :
    ((1#32).toNat % 2 = 1 ∧ (3#32).toNat % 2 = 1 ∧ (0xFFFFFFFF#32).toNat % 2 = 1) ∧
    ((2#32).toNat % 4 = 2 ∧ (0xFFFFFFFE#32).toNat % 4 = 2) ∧
    ((0#32).toNat % 4 = 0 ∧ (0xFFFFFFFC#32).toNat % 4 = 0) := by decide

theorem witness_DecodeEncodeAgree : (Instr.start 0x7FFFFFFF#31).wellFormed = true ∧
    decode (.ctrl 0xFFFFFFFF#32) = .instr (.start 0x7FFFFFFF#31) ∧ encode (.start 0x7FFFFFFF#31) = .ctrl 0xFFFFFFFF#32 := by
  decide

theorem witness_RecordsFollowOneAnother :
    (∀ x, x ∈ [(⟨.filterSub, [1, 2]⟩ : Record), ⟨.filterUp, [3, 4]⟩] → x.wellFormed 2 = true) ∧
    [(⟨.filterSub, [1, 2]⟩ : Record), ⟨.filterUp, [3, 4]⟩][1]? = some ⟨.filterUp, [3, 4]⟩ := by decide

theorem witness_StepRunsFetchedTag :
    let s := gray .row 0
    s.engineTurn = some s ∧ s.status.busy = true ∧ s.stage = .row ∧ s.pos.toNat < s.L ∧
    decode (.tag (s.load .IN s.pos.toNat)) = .instr .filterNone ∧ Instr.filterNone.wellFormed = true := by decide

theorem witness_StepRunsWrittenCommand :
    (hostNext (.writeReg 0x00 .word 3) idle).hostTurn = some (.writeReg 0x00#6 .word 3#32, idle) ∧
    decode (.ctrl 3#32) = .instr (.start 1) ∧ (Instr.start 1).wellFormed = true := by decide

theorem witness_IllegalTagFaults :
    let s := atRow 1 1 1 0 [] [0x05, 0x20]
    let u := atRow 1 1 1 0 [] [0xFF]
    (s.engineTurn = some s ∧ s.status.busy = true ∧ s.stage = .row ∧ s.pos.toNat < s.L ∧
      5 ≤ (s.load .IN s.pos.toNat).toNat) ∧
    (u.engineTurn = some u ∧ u.status.busy = true ∧ u.stage = .row ∧ u.pos.toNat < u.L ∧
      5 ≤ (u.load .IN u.pos.toNat).toNat) := by decide

theorem witness_MissingTagFaults :
    let s := atRow 1 1 1 0 [] []
    s.engineTurn = some s ∧ s.status.busy = true ∧ s.stage = .row ∧ s.L ≤ s.pos.toNat := by decide

/-- The premises of `RowRule`, shared by NoneRow, SubRow, UpRow, AvgRow and PaethRow: a stream that just holds the row, and one
that ends inside it. -/
theorem witness_RowRule :
    let s := atRow 2 2 1 1 [3, 4] [1, 2]
    let u := atRow 2 2 1 1 [3, 4] [1]
    (s.pos.toNat ≤ s.L ∧ s.pos.toNat + s.SL ≤ s.L ∧ 1 < s.SL ∧ s.pos.toNat + 1 < s.L) ∧
    (u.pos.toNat ≤ u.L ∧ u.L < u.pos.toNat + u.SL ∧ 0 < u.SL ∧ u.pos.toNat + 0 < u.L) := by decide

theorem witness_PaethPredictorTieBreak :
    (((0x80 : Int) - 0).natAbs ≤ ((0x80 : Int) - 0).natAbs ∧
      ((0x80 : Int) - 0).natAbs ≤ ((0x80 : Int) + 0x80 - 2 * 0).natAbs) ∧
    (¬(((0x50 : Int) - 0x64).natAbs ≤ ((0x6E : Int) - 0x64).natAbs ∧
        ((0x50 : Int) - 0x64).natAbs ≤ ((0x6E : Int) + 0x50 - 2 * 0x64).natAbs) ∧
      ((0x6E : Int) - 0x64).natAbs ≤ ((0x6E : Int) + 0x50 - 2 * 0x64).natAbs) ∧
    (¬(((0x14 : Int) - 0x0F).natAbs ≤ ((0x0A : Int) - 0x0F).natAbs ∧
        ((0x14 : Int) - 0x0F).natAbs ≤ ((0x0A : Int) + 0x14 - 2 * 0x0F).natAbs) ∧
      ¬((0x0A : Int) - 0x0F).natAbs ≤ ((0x0A : Int) + 0x14 - 2 * 0x0F).natAbs) := by decide

theorem witness_FilterFrame :
    Instr.filterPaeth.isRow = true ∧ (∃ t, exec .filterPaeth (atRow 2 2 1 1 [3, 4] [1, 2]) = .next t) ∧
    (atRow 2 2 1 1 [3, 4] [1, 2]).pos.toNat + (atRow 2 2 1 1 [3, 4] [1, 2]).SL ≤ (atRow 2 2 1 1 [3, 4] [1, 2]).L :=
  ⟨by decide, ⟨_, rfl⟩, by decide⟩

theorem witness_ForwardFilterIsUndone :
    let s := atRow 2 2 1 1 [3, 4] [2, 0]
    Instr.filterUp.isRow = true ∧ s.pos.toNat + s.SL ≤ s.L ∧
    ∀ n, n < s.SL → s.load .IN (s.pos.toNat + n) = forwardByte .filterUp s.pb (fun n => if n = 0 then 5 else 4) s.upper n := by
  decide

theorem witness_LanesAreIndependent :
    let s := atRow 1 2 2 1 [3, 4] [1, 2]
    let u := atRow 1 2 2 1 [3, 9] [1, 7]
    Instr.filterSub.isRow = true ∧ s.pb = u.pb ∧ s.SL = u.SL ∧ s.r = u.r ∧ s.pos.toNat + s.SL ≤ s.L ∧
    u.pos.toNat + u.SL ≤ u.L ∧
    ∀ n, n < s.SL → n % s.pb = 0 →
      s.load .IN (s.pos.toNat + n) = u.load .IN (u.pos.toNat + n) ∧ (0 < s.r → s.load .PREV n = u.load .PREV n) := by
  decide

theorem witness_SubDimIsTheCeiling : (4 ≤ 4 ∧ subDim 4 4 8 = 0) ∧ (0 < 8 ∧ 4 < 5 ∧ subDim 5 4 8 = 1) := by decide

theorem witness_MapStaysInsideTheImage :
    (⟨4, 0, 8, 8⟩ : PassGeometry) ∈ passList 1 ∧ 0 < subDim 1 0 8 ∧ 0 < subDim 5 4 8 ∧ 0 < 1 := by decide

theorem witness_Adam7Partition : (0 < 1 ∧ 0 < 1) ∧ adam7[6]? = some ⟨0, 1, 1, 2⟩ ∧
    (⟨0, 1, 1, 2⟩ : PassGeometry).map 0 2 = (2, 1) := by decide

/-- A pass of width 0 (pass 2 of a 1×1 image) and one of height 0 (pass 3). -/
theorem witness_EmptyPassIsSkipped :
    ((adam 1).engineTurn = some (adam 1) ∧ (adam 1).status.busy = true ∧ (adam 1).stage = .beginPass ∧
      (adam 1).pass < (adam 1).passes.length ∧ (adam 1).subWidth = 0) ∧
    ((adam 2).engineTurn = some (adam 2) ∧ (adam 2).status.busy = true ∧ (adam 2).stage = .beginPass ∧
      (adam 2).pass < (adam 2).passes.length ∧ (adam 2).subHeight = 0) := by decide

theorem witness_PassesRunInOrder :
    ((adam 0).engineTurn = some (adam 0) ∧ (adam 0).status.busy = true ∧ (adam 0).stage = .beginPass ∧
      (adam 0).pass < (adam 0).passes.length ∧ 0 < (adam 0).subWidth ∧ 0 < (adam 0).subHeight) ∧
    ((adam 7).engineTurn = some (adam 7) ∧ (adam 7).status.busy = true ∧ (adam 7).stage = .beginPass ∧
      (adam 7).passes.length ≤ (adam 7).pass) := by decide

theorem witness_ScatterPlacesPixel :
    let s := gray .scatter 2
    s.engineTurn = some s ∧ s.status.busy = true ∧ s.stage = .scatter ∧ s.c < s.subWidth ∧ 0 < s.pb := by decide

theorem witness_RowIsRetired :
    let s := { gray .scatter 2 with c := 1 }
    let u := { gray .retire 2 with height := 2 }
    let v := gray .retire 2
    (s.engineTurn = some s ∧ s.status.busy = true ∧ s.stage = .scatter ∧ s.subWidth ≤ s.c) ∧
    (u.engineTurn = some u ∧ u.status.busy = true ∧ u.stage = .retire ∧ u.r + 1 < u.subHeight ∧ 0 < u.SL) ∧
    (v.engineTurn = some v ∧ v.status.busy = true ∧ v.stage = .retire ∧ v.subHeight ≤ v.r + 1) := by decide

theorem witness_ExpansionWritesTheTable :
    let s := indexed .expand
    s.engineTurn = some s ∧ s.status.busy = true ∧ s.stage = .expand ∧ s.rgbaValid = false ∧ 0 < s.NP := by decide

theorem witness_SkippedExpansionIsCurrent (b : Bool) :
    let s := { indexed .expand with rgbaValid := b }
    s.Inv ∧ s.engineTurn = some s ∧ s.status.busy = true ∧ s.stage = .expand ∧ s.rgbaValid = b :=
  ⟨indexed_expand_inv b, rfl, rfl, rfl, rfl⟩

/-- The last index that has an entry, and the first that has none. -/
theorem witness_IndexedPixel :
    let s := indexed .composite
    let u := { indexed .composite with mem := { (indexed .composite).mem with raster := [(0, 1)] } }
    (s.engineTurn = some s ∧ s.status.busy = true ∧ s.stage = .composite ∧ s.k < s.W * s.H ∧ s.geom.indexed = true ∧
      (s.load .RASTER s.k).toNat + 1 = s.NP) ∧
    (u.engineTurn = some u ∧ u.status.busy = true ∧ u.stage = .composite ∧ u.k < u.W * u.H ∧ u.geom.indexed = true ∧
      u.NP = (u.load .RASTER u.k).toNat) := by decide

theorem witness_GrayPixel :
    let s := gray .composite 2
    s.engineTurn = some s ∧ s.status.busy = true ∧ s.stage = .composite ∧ s.k < s.W * s.H ∧ s.geom.indexed = false ∧
      s.geom.colors = 1 := by decide

theorem witness_TruecolorPixel :
    let s := { gray .composite 4 with geom := ⟨3, 3, false, false⟩, format := ⟨8, 2, 0⟩ }
    s.engineTurn = some s ∧ s.status.busy = true ∧ s.stage = .composite ∧ s.k < s.W * s.H ∧ s.geom.indexed = false ∧
      s.geom.colors = 3 := by decide

theorem witness_DecodeEndsInDone :
    let s := { gray .composite 2 with k := 1 }
    s.engineTurn = some s ∧ s.status.busy = true ∧ s.stage = .composite ∧ s.W * s.H ≤ s.k := by decide

theorem witness_CompositedPixelsStay :
    let s := { gray .composite 2 with k := 1 }
    s.Inv ∧ s.Composited ∧ ∃ t, step s = .next t := by
  refine ⟨gray_composite_inv 1 (.inr rfl), fun _ _ k hk => ?_, _, rfl⟩
  have : k = 0 := Nat.lt_one_iff.mp hk
  subst this
  show (if (gray .composite 2).geom.indexed = true then _ else _)
  rw [if_neg (by decide)]
  exact ⟨by decide, by decide⟩

/-- A configuration for each check that is the first to fail, at the edge of what the check admits. -/
def failing : Nat → State
  | 1 => { idle with status := busy, format := ⟨7, 0, 0⟩, width := 1, height := 1 }
  | 2 => { idle with status := busy, format := ⟨8, 5, 0⟩, width := 1, height := 1 }
  | 3 => { idle with status := busy, format := ⟨8, 0, 2⟩, width := 1, height := 1 }
  | 4 => { idle with status := busy, format := ⟨8, 0, 0⟩, width := 1, height := 0 }
  | 5 => { idle with status := busy, format := ⟨8, 3, 0⟩, width := 1, height := 1, palCount := 0 }
  | 6 => { idle with status := busy, format := ⟨8, 0, 0⟩, width := 1, height := 1, palCount := 257 }
  | _ => { idle with status := busy, format := ⟨8, 0, 0⟩, width := 17, height := 1 }

theorem failing_turn (n : Nat) (h : n < 8) :
    (failing n).engineTurn = some (failing n) ∧ (failing n).status.busy = true ∧ (failing n).stage = .configure := by
  interval_cases n <;> decide

/-- Color type 0 is a legal one, and so is 3. -/
theorem not_illegal_color {s : State} (h : s.format.colorType = 0 ∨ s.format.colorType = 3) : ¬s.CheckFails 2 := by
  intro hf
  rcases h with h | h
  · exact hf ⟨0, 1, false, 1⟩ (by decide) h
  · exact hf ⟨3, 1, false, 1⟩ (by decide) h

theorem witness_FirstFailingCheckIsReported :
    (failing 1).CheckFails 1 ∧
    ((failing 2).CheckFails 2 ∧ ¬(failing 2).CheckFails 1) ∧
    ((failing 3).CheckFails 3 ∧ ¬(failing 3).CheckFails 1 ∧ ¬(failing 3).CheckFails 2) ∧
    ((failing 4).CheckFails 4 ∧ ¬(failing 4).CheckFails 1 ∧ ¬(failing 4).CheckFails 2 ∧ ¬(failing 4).CheckFails 3) ∧
    ((failing 5).CheckFails 5 ∧ ¬(failing 5).CheckFails 1 ∧ ¬(failing 5).CheckFails 2 ∧ ¬(failing 5).CheckFails 3 ∧
      ¬(failing 5).CheckFails 4) ∧
    ((failing 6).CheckFails 6 ∧ ¬(failing 6).CheckFails 1 ∧ ¬(failing 6).CheckFails 2 ∧ ¬(failing 6).CheckFails 3 ∧
      ¬(failing 6).CheckFails 4 ∧ ¬(failing 6).CheckFails 5) ∧
    ((failing 7).CheckFails 7 ∧ ¬(failing 7).CheckFails 1 ∧ ¬(failing 7).CheckFails 2 ∧ ¬(failing 7).CheckFails 3 ∧
      ¬(failing 7).CheckFails 4 ∧ ¬(failing 7).CheckFails 5 ∧ ¬(failing 7).CheckFails 6) := by
  have n2 (n : Nat) (h : (failing n).format.colorType = 0 ∨ (failing n).format.colorType = 3) := not_illegal_color h
  have h7 : (failing 7).CheckFails 7 :=
    ⟨⟨0, 1, false, 1⟩, by decide, rfl, .inr (.inr (.inr (by decide)))⟩
  refine ⟨?_, ⟨?_, ?_⟩, ⟨?_, ?_, n2 3 (.inl rfl)⟩, ⟨?_, ?_, n2 4 (.inl rfl), ?_⟩, ⟨?_, ?_, n2 5 (.inr rfl), ?_, ?_⟩,
    ⟨?_, ?_, n2 6 (.inl rfl), ?_, ?_, ?_⟩, h7, ?_, n2 7 (.inl rfl), ?_, ?_, ?_, ?_⟩ <;>
    simp only [State.CheckFails] <;> decide

/-- A legal configuration of each row of R95. -/
def legal (row : ColorRow) : State :=
  { idle with status := busy, format := ⟨8, row.colorType, 0⟩, width := 4, height := 1, palCount := 1 }

theorem witness_DerivedParameters (row : ColorRow) (h : row ∈ colorTable) :
    (legal row).engineTurn = some (legal row) ∧ (legal row).status.busy = true ∧ (legal row).stage = .configure ∧
    (∀ n, ¬(legal row).CheckFails n) ∧ (legal row).format.colorType = row.colorType := by
  simp only [colorTable, List.mem_cons, List.not_mem_nil, or_false] at h
  rcases h with rfl | rfl | rfl | rfl | rfl <;> refine ⟨rfl, rfl, rfl, fun n => ?_, rfl⟩ <;>
    rcases n with _ | _ | _ | _ | _ | _ | _ | _ | n <;> first
      | exact not_false
      | (simp only [State.CheckFails]; decide)

theorem witness_StartCommand : (0x80000001#32).toNat % 2 = 1 ∧ (gray .row 0).status.busy = true ∧ idle.status.busy = false := by decide
theorem witness_ClearCommand : (0xFFFFFFFE#32).toNat % 4 = 2 ∧ (gray .row 0).status.busy = true ∧ idle.status.busy = false := by decide

theorem witness_BusyWritesAreLost :
    let s := gray .row 0
    s.status.busy = true ∧
    ((hostNext (.writeReg 0x08 .half 1) s).hostTurn = some (.writeReg 0x08#6 .half 1, s) ∧
      ¬(0x08#6 = 0x08#6 ∧ AccessWidth.half = .word)) ∧
    ((hostNext (.writeReg 0x3F .word 1) s).hostTurn = some (.writeReg 0x3F#6 .word 1, s) ∧
      ¬(0x3F#6 = 0x08#6 ∧ AccessWidth.word = .word)) ∧
    (hostNext (.writeWindow .OUT 64 1) s).hostTurn = some (.writeWindow .OUT 64 1, s) ∧
    (hostNext (.writeReg 0x08 .word 1) s).hostTurn = some (.writeReg 0x08#6 .word 1, s) := by decide

theorem witness_IdleWrites :
    idle.status.busy = false ∧
    ((hostNext (.writeReg 0x00 .word 0xFFFFFFFC) idle).hostTurn = some (.writeReg 0x00#6 .word 0xFFFFFFFC#32, idle) ∧
      (0xFFFFFFFC#32).toNat % 4 = 0) ∧
    (∀ o, o ∈ [0x08#6, 0x18#6, 0x1C#6, 0x20#6, 0x24#6, 0x28#6, 0x2C#6] →
      (hostNext (.writeReg o .word 0xFFFFFFFF) idle).hostTurn = some (.writeReg o .word 0xFFFFFFFF, idle)) ∧
    ((hostNext (.writeReg 0x3C .word 1) idle).hostTurn = some (.writeReg 0x3C#6 .word 1, idle) ∧
      0x3C#6 ∉ [0x00#6, 0x08#6, 0x18#6, 0x1C#6, 0x20#6, 0x24#6, 0x28#6, 0x2C#6]) ∧
    ((hostNext (.writeReg 0x18 .byte 1) idle).hostTurn = some (.writeReg 0x18#6 .byte 1, idle) ∧ AccessWidth.byte ≠ .word) ∧
    ((hostNext (.writeWindow .IN 63 1) idle).hostTurn = some (.writeWindow .IN 63 1, idle) ∧ 63 < idle.caps.inCap) ∧
    ((hostNext (.writeWindow .PLTE 767 1) idle).hostTurn = some (.writeWindow .PLTE 767 1, idle) ∧ 767 < 768) ∧
    ((hostNext (.writeWindow .TRNS 255 1) idle).hostTurn = some (.writeWindow .TRNS 255 1, idle) ∧ 255 < 256) ∧
    (hostNext (.writeWindow .RASTER 0 1) idle).hostTurn = some (.writeWindow .RASTER 0 1, idle) ∧
    ((hostNext (.writeWindow .TRNS 256 1) idle).hostTurn = some (.writeWindow .TRNS 256 1, idle) ∧
      idle.caps.size Window.TRNS.space ≤ 256) := by decide

theorem witness_RegisterReads :
    (∀ o, o ∈ [0x00#6, 0x04#6, 0x06#6, 0x30#6, 0x34#6, 0x38#6, 0x3C#6] →
      (hostNext (.readReg o .word) idle).hostTurn = some (.readReg o .word, idle) ∧
      (hostNext (.readReg o .word) (gray .row 0)).hostTurn = some (.readReg o .word, gray .row 0)) ∧
    (hostNext (.readReg 0x04 .half) idle).hostTurn = some (.readReg 0x04#6 .half, idle) ∧
    idle.status.busy = false ∧ (gray .row 0).status.busy = true := by decide

theorem witness_WindowReads :
    let s := { idle with shown := ⟨1, 4, 4⟩ }
    ((hostNext (.readWindow .IN 64) s).hostTurn = some (.readWindow .IN 64, s) ∧ s.caps.size Window.IN.space ≤ 64) ∧
    ((hostNext (.readWindow .TRNS 255) s).hostTurn = some (.readWindow .TRNS 255, s) ∧ 255 < s.caps.size Window.TRNS.space) ∧
    ((hostNext (.readWindow .OUT 63) (gray .row 0)).hostTurn = some (.readWindow .OUT 63, gray .row 0) ∧
      63 < (gray .row 0).caps.size Window.OUT.space ∧ (gray .row 0).status.busy = true) ∧
    ((hostNext (.readWindow .OUT 64) (gray .row 0)).hostTurn = some (.readWindow .OUT 64, gray .row 0) ∧
      (gray .row 0).caps.size Window.OUT.space ≤ 64 ∧ (gray .row 0).status.busy = true) ∧
    ((hostNext (.readWindow .OUT 3) s).hostTurn = some (.readWindow .OUT 3, s) ∧ 3 < s.caps.size Window.OUT.space ∧
      s.status.busy = false ∧ 3 < s.shown.out) ∧
    ((hostNext (.readWindow .OUT 4) s).hostTurn = some (.readWindow .OUT 4, s) ∧ 4 < s.caps.size Window.OUT.space ∧
      s.status.busy = false ∧ s.shown.out ≤ 4) := by decide

theorem witness_OnlyADecodeFaults :
    observe (fun t => t.status.fault) (step (atRow 1 1 1 0 [] [])) = some true ∧
    (atRow 1 1 1 0 [] []).status.fault = false := by decide

theorem witness_InterruptLevel :
    (let s := { idle with status := ⟨false, true, false, false⟩, irqEn := true }
     s.irq = true ∧ s.status.busy = false ∧ (∃ t, exec (.start 0) s = .next t) ∧ ∃ t, exec (.clear 0) s = .next t) ∧
    (hostNext (.writeReg 0x08 .word 0xFFFFFFFE) idle).hostTurn = some (.writeReg 0x08#6 .word 0xFFFFFFFE#32, idle) ∧
    (0xFFFFFFFE#32).getLsbD 0 = false ∧ ∃ t, step (hostNext (.writeReg 0x08 .word 0xFFFFFFFE) idle) = .next t :=
  ⟨⟨by decide, by decide, ⟨_, rfl⟩, _, rfl⟩, by decide, by decide, _, rfl⟩

theorem witness_ResetInput : ({ gray .row 0 with schedule := [.reset] } : State).schedule = .reset :: [] := rfl

theorem witness_EveryStepKeepsTheInvariant : (gray .row 0).Inv ∧ ∃ t, step (gray .row 0) = .next t :=
  ⟨gray_row_inv, _, rfl⟩

theorem witness_AtMostOneFlag : (gray .row 0).OneFlag ∧ ∃ t, step (gray .row 0) = .next t :=
  ⟨⟨by decide, by decide, by decide⟩, _, rfl⟩

theorem witness_InputsAreFrozenWhileBusy :
    let s := hostNext (.writeWindow .IN 0 9) (gray .row 0)
    s.status.busy = true ∧ (∀ rest, s.schedule ≠ .reset :: rest) ∧ ∃ t, step s = .next t :=
  ⟨rfl, (fun _ h => by cases h), _, rfl⟩

theorem witness_CursorAdvances :
    let s := gray .row 0
    s.status.busy = true ∧ s.stage ≠ .configure ∧ (∀ rest, s.schedule ≠ .reset :: rest) ∧ s.pos.toNat ≤ s.L ∧
      ∃ t, step s = .next t :=
  ⟨rfl, by decide, (fun _ h => by cases h), by decide, _, rfl⟩

theorem witness_CursorCountsTheRecords :
    (gray .row 0).Inv ∧ (gray .row 0).CursorOk ∧ ∃ t, step (gray .row 0) = .next t :=
  ⟨gray_row_inv, fun _ _ => by decide, _, rfl⟩

theorem witness_DoneReadsAllRecords :
    let s := { gray .composite 2 with k := 1 }
    s.Inv ∧ s.CursorOk ∧ s.status.done = false ∧ ∃ t, step s = .next t ∧ t.status.done = true :=
  ⟨gray_composite_inv 1 (.inr rfl), fun _ _ => by decide, rfl, _, rfl, rfl⟩

theorem gray_pixel {s : State} {q r c : Nat} {g : PassGeometry} (hp : s.passes = [singlePass]) (hw : s.W = 1)
    (hh : s.H = 1) (hx : s.HasPixel q g r c) : q = 0 ∧ g = singlePass ∧ r = 0 ∧ c = 0 := by
  obtain ⟨hq, hr, hc⟩ := hx
  rw [hp] at hq
  rw [hh] at hr
  rw [hw] at hc
  rcases q with _ | q
  · cases hq
    exact ⟨rfl, rfl, Nat.lt_one_iff.mp hr, Nat.lt_one_iff.mp hc⟩
  · cases hq

/-- The sample and the pixel of P1 are written. -/
theorem gray_written (k : Nat) (hk : k ≤ 1) : ({ gray .composite 2 with k := k } : State).ResultsWritten := by
  refine fun _ _ => ⟨fun q g r c j hx _ hj => ?_, fun _ a ha => ?_⟩
  · obtain ⟨rfl, rfl, rfl, rfl⟩ := gray_pixel (s := { gray .composite 2 with k := k }) rfl rfl rfl hx
    have hj0 : j = 0 := Nat.lt_one_iff.mp (show j < 1 from hj)
    subst hj0
    rfl
  · have ha4 : a < 4 * k := ha
    have : a < 4 := by omega
    interval_cases a <;> rfl

theorem witness_ResultsAreWritten :
    (gray .composite 2).Inv ∧ (gray .composite 2).ResultsWritten ∧ ∃ t, step (gray .composite 2) = .next t :=
  ⟨gray_composite_inv 0 (.inl rfl), gray_written 0 (by decide), _, rfl⟩

theorem witness_RasterCompleteBeforeCompositing :
    let s := gray .composite 2
    s.Inv ∧ s.ResultsWritten ∧ s.status.busy = true ∧ s.stage = .composite ∧ 0 < s.W * s.H * s.pb :=
  ⟨gray_composite_inv 0 (.inl rfl), gray_written 0 (by decide), rfl, rfl, by decide⟩

/-- The raw image of P1. -/
def raw : Nat → Nat → Nat → Byte := fun _ _ _ => 0x80

theorem witness_PassesReconstructTheImage :
    let s := gray .row 0
    s.Inv ∧ s.CursorOk ∧ s.status.busy = true ∧ s.stage ≠ .configure ∧ (∀ rest, s.schedule ≠ .reset :: rest) ∧
      s.EncodedStream raw (fun _ _ => .filterNone) ∧ s.Reconstructs raw ∧
      ∃ t, step s = .next t ∧ t.status.busy = true := by
  refine ⟨gray_row_inv, fun _ _ => by decide, rfl, by decide, (fun _ h => by cases h), ⟨by decide, ?_⟩, ⟨?_, ?_, ?_⟩, _, rfl, rfl⟩
  · intro q g r hq hr hw
    obtain ⟨rfl, rfl, rfl, -⟩ := gray_pixel (s := gray .row 0) (c := 0) rfl rfl rfl ⟨hq, hr, hw⟩
    refine ⟨rfl, rfl, fun n hn => ?_⟩
    have : n = 0 := Nat.lt_one_iff.mp hn
    subst this
    rfl
  · rintro (h | h) <;> cases h
  · intro _ h
    exact absurd h (by decide)
  · intro q g r c j hx hs _
    obtain ⟨rfl, -, rfl, -⟩ := gray_pixel (s := gray .row 0) rfl rfl rfl hx
    exact absurd (show 0 < 0 ∨ (0 = 0 ∧ 0 < 0) from hs) (by decide)

theorem witness_RasterIsTheImage :
    let s := gray .composite 2
    s.Inv ∧ s.status.busy = true ∧ s.stage = .composite ∧ s.Reconstructs raw ∧ 0 < s.W ∧ 0 < s.H ∧ 0 < s.pb := by
  refine ⟨gray_composite_inv 0 (.inl rfl), rfl, rfl, ⟨?_, ?_, ?_⟩, by decide, by decide, by decide⟩
  · rintro (h | h) <;> cases h
  · rintro (h | h | h) <;> cases h
  · intro q g r c j hx _ hj
    obtain ⟨rfl, rfl, rfl, rfl⟩ := gray_pixel (s := gray .composite 2) rfl rfl rfl hx
    have : j = 0 := Nat.lt_one_iff.mp hj
    subst this
    rfl

/-- A decode with host accesses still to come, a lost START and a STATUS read among them. -/
theorem witness_EveryDecodeEnds :
    let s := { gray .row 0 with schedule := [.host (.writeReg 0x00 .word 1), .engine, .host (.readReg 0x04 .word)] }
    .reset ∉ s.schedule ∧ s.status.busy = true ∧ s.OneFlag :=
  ⟨by decide, rfl, by decide, by decide, by decide⟩

/-- P1 right after its START, and the same with other bytes wherever R238 lets them differ. -/
theorem witness_InputsDetermineTheResult :
    let s := { gray .configure 0 with geom := ⟨0, 0, false, false⟩ }
    let t := { s with pos := 7, mem := { s.mem with inp := [(0, 0x00), (1, 0x80), (2, 0x55)], raster := [], out := [(9, 9)] } }
    s.Inv ∧ t.Inv ∧ s.status.busy = true ∧ s.stage = .configure ∧ SameDecode s t ∧
      ∃ u, Sys2Proof.core.run 1 s = .next u := by
  refine ⟨⟨by decide, fun sp => by cases sp <;> decide, fun sp => by cases sp <;> decide,
      ⟨by decide, by decide, by decide⟩, fun _ h => absurd rfl h, fun h => by cases h⟩,
    ⟨by decide, fun sp => by cases sp <;> decide, fun sp => by cases sp <;> decide,
      ⟨by decide, by decide, by decide⟩, fun _ h => absurd rfl h, fun h => by cases h⟩, rfl, rfl,
    ⟨rfl, rfl, rfl, rfl, rfl, rfl, rfl, ?_, ?_, ?_, rfl, rfl, rfl, rfl, rfl, rfl, rfl, rfl⟩, _, rfl⟩
  · intro a ha
    have ha2 : a < 2 := ha
    interval_cases a <;> rfl
  · intro a ha
    exact absurd (show a < 0 from ha) (Nat.not_lt_zero a)
  · intro a ha
    exact absurd (show a < 0 from ha) (Nat.not_lt_zero a)

end Sys2Proof.Tests
end

section
/-! PROOFS. Every step keeps the machine's invariant (O49): the parts of `State.Inv` one after another, each kept by every move
of a BUSY engine and by every access of the host, and then assembled over the moves of `step_cases`. Where a proof knows the
stage a move starts in, a closing `simp_all` rules out the moves that start in another. -/

namespace Sys2Proof.Machine

/-! The place of a decode, stage by stage. -/

section Place

variable {s : State}

theorem placeOk_beginPass (h : s.stage = .beginPass) : s.PlaceOk ↔ s.pass ≤ s.passes.length := by
  simp only [State.PlaceOk, h]

theorem placeOk_row (h : s.stage = .row) :
    s.PlaceOk ↔ s.pass < s.passes.length ∧ 0 < s.subWidth ∧ s.r < s.subHeight := by
  simp only [State.PlaceOk, h]

theorem placeOk_scatter (h : s.stage = .scatter) :
    s.PlaceOk ↔ s.pass < s.passes.length ∧ 0 < s.subWidth ∧ s.r < s.subHeight ∧ s.c ≤ s.subWidth := by
  simp only [State.PlaceOk, h]

theorem placeOk_retire (h : s.stage = .retire) :
    s.PlaceOk ↔ s.pass < s.passes.length ∧ 0 < s.subWidth ∧ s.r < s.subHeight := by
  simp only [State.PlaceOk, h]

theorem placeOk_expand (h : s.stage = .expand) : s.PlaceOk ↔ s.geom.indexed = true ∧ s.k = 0 := by
  simp only [State.PlaceOk, h]

theorem placeOk_composite (h : s.stage = .composite) :
    s.PlaceOk ↔ s.k ≤ s.W * s.H ∧ (s.geom.indexed = true → s.rgbaValid = true) := by
  simp only [State.PlaceOk, h]

end Place

/-! What a running decode writes lies inside the memories (R67). -/

/-- A pass is no wider and no higher than the image (R162, R163). -/
theorem subDim_le (n o d : Nat) : subDim n o d ≤ n := by
  unfold subDim
  split_ifs with h
  · exact Nat.zero_le n
  · rcases Nat.eq_zero_or_pos d with rfl | hd
    · simp
    · refine Nat.div_le_of_le_mul ?_
      have : n + d ≤ d * n + 1 := by nlinarith
      omega

/-- A scanline fits the line buffers. -/
theorem State.Running.SL_le {s : State} (h : s.Running) : s.SL ≤ s.caps.lineCap := by
  obtain ⟨-, -, -, -, -, hline, -⟩ := h.bounds
  calc s.SL = s.subWidth * s.pb := Nat.mul_comm _ _
    _ ≤ s.W * s.pb := Nat.mul_le_mul_right _ (subDim_le _ _ _)
    _ ≤ s.caps.lineCap := hline

/-- The samples of a pixel of the pass lie inside RASTER (R166). -/
theorem State.Running.scatterIndex_le {s : State} (h : s.Running) (hs : s.stage = .scatter) (hc : s.c < s.subWidth) :
    s.scatterIndex + s.pb ≤ s.caps.rasterCap := by
  obtain ⟨hpb, -, -, hraster, -⟩ := h.bounds
  obtain ⟨hp, -, hr, -⟩ := (placeOk_scatter hs).mp h.place
  obtain ⟨hdx, hdy⟩ := passList_stride_pos (geometry_mem hp)
  have hlast : s.scatterIndex + (s.pb - 1) < s.W * s.H * s.pb :=
    sample_lt ((lt_subDim_iff hdx).mp hc) ((lt_subDim_iff hdy).mp hr) (by omega)
  omega

theorem expandEntry_memoryOk {s : State} (h : s.MemoryOk) {j : Nat} (hj : j < 256) : (expandEntry j s).MemoryOk := by
  have hcopy : (s.copyBytes .PLTE .RGBA (3 * j) (4 * j) 3).MemoryOk := h.copyBytes _ _ (show 4 * j + 3 ≤ 1024 by omega)
  exact hcopy.store (show 4 * j + 3 < 1024 by omega) _

theorem expandEntries_memoryOk {s : State} (h : s.MemoryOk) {n : Nat} (hn : n ≤ 256) :
    (expandEntries n s).MemoryOk := by
  induction n with
  | zero => exact h
  | succ n ih => exact expandEntry_memoryOk (ih (by omega)) (by omega)

/-- A composited pixel keeps OUT inside its size, in each of the three modes (R212 to R214). -/
theorem compositePixel_memoryOk {s : State} (h : s.MemoryOk) {k : Nat} (hk : 4 * k + 4 ≤ s.caps.outCap) :
    (compositePixel k s).MemoryOk := by
  have hin : ∀ n, n < 4 → 4 * k + n < s.caps.size .OUT := fun n hn => show 4 * k + n < s.caps.outCap by omega
  unfold compositePixel
  split_ifs
  · rcases Nat.lt_or_ge (s.load .RASTER k).toNat s.NP with hi | hi
    · rw [compositeIndexed_ok s k hi]
      exact h.copyBytes _ _ hk
    · rw [compositeIndexed_fault s k hi]
      exact h.congr rfl rfl
  · exact (((h.store (hin 0 (by omega)) _).store (hin 1 (by omega)) _).store (hin 2 (by omega)) _).store
      (hin 3 (by omega)) _
  · have hcopy : (s.copyBytes .RASTER .OUT (k * s.pb) (4 * k) 3).MemoryOk :=
      h.copyBytes _ _ (show 4 * k + 3 ≤ s.caps.outCap by omega)
    refine hcopy.store ?_ _
    rw [copyBytes_eq]
    exact hin 3 (by omega)

/-! The table (R43, R75). -/

/-- Whether the table holds depends on the two counts and on the bytes of PLTE, TRNS and RGBA alone. -/
theorem State.TableHolds.congr {s t : State} (h : s.TableHolds) (hp : t.palCount = s.palCount)
    (ht : t.trnsCount = s.trnsCount)
    (hl : ∀ sp, sp = .PLTE ∨ sp = .TRNS ∨ sp = .RGBA → ∀ a, t.load sp a = s.load sp a) : t.TableHolds := by
  have hNP : t.NP = s.NP := congrArg BitVec.toNat hp
  have hNT : t.NT = s.NT := congrArg BitVec.toNat ht
  intro j hj
  simp only [State.EntryHolds, hNT, hl .PLTE (by simp), hl .TRNS (by simp), hl .RGBA (by simp)]
  exact h j (hNP ▸ hj)

/-- A store to a memory that is no part of the table leaves it alone. -/
theorem State.TableHolds.store_inp {s : State} (h : s.TableHolds) (a : Nat) (v : Byte) :
    (s.store .IN a v).TableHolds :=
  h.congr rfl rfl fun sp hsp b => load_store_ne s .IN sp a b v (.inl (by rcases hsp with rfl | rfl | rfl <;> decide))

/-- The expansion makes the table of the current palette and transparency list (R190). -/
theorem expandEntries_tableHolds (s : State) : (expandEntries s.NP s).TableHolds := by
  have hNP : (expandEntries s.NP s).NP = s.NP := by rw [expandEntries_eq]; rfl
  have hNT : (expandEntries s.NP s).NT = s.NT := by rw [expandEntries_eq]; rfl
  intro j hj
  rw [hNP] at hj
  have hdiv : ∀ n, n < 4 → (4 * j + n) / 4 = j ∧ (4 * j + n) % 4 = n := fun n hn => by omega
  have hcolor : ∀ n, n < 3 → (expandEntries s.NP s).load .RGBA (4 * j + n) = s.load .PLTE (3 * j + n) := fun n hn => by
    obtain ⟨hq, hm⟩ := hdiv n (by omega)
    rw [load_expandEntries, if_pos ⟨rfl, by omega⟩, if_neg (by omega), hq, hm]
  have halpha : (expandEntries s.NP s).load .RGBA (4 * j + 3) = s.alphaOf j := by
    obtain ⟨hq, hm⟩ := hdiv 3 (by omega)
    rw [load_expandEntries, if_pos ⟨rfl, by omega⟩, if_pos hm, hq]
  have hother : ∀ sp, sp ≠ .RGBA → ∀ a, (expandEntries s.NP s).load sp a = s.load sp a := fun sp hsp a => by
    rw [load_expandEntries, if_neg fun hc => hsp hc.1]
  simp only [State.EntryHolds, hNT, halpha, State.alphaOf, hother .PLTE (by decide), hother .TRNS (by decide), and_true]
  exact ⟨hcolor 0 (by omega), hcolor 1 (by omega), hcolor 2 (by omega)⟩

/-! What every move of a BUSY engine leaves alone (R238, R241). -/

section Moves

variable {s t : State} (h : EngineMove s t)
include h

/-- No move changes a register the host configures, the capacities, or the counters behind the free values. -/
theorem EngineMove.eq_with :
    t = { s with
            status := t.status, errCode := t.errCode, errPos := t.errPos, errVal := t.errVal, pos := t.pos,
            geom := t.geom, rgbaValid := t.rgbaValid, mem := t.mem, pass := t.pass, r := t.r, i := t.i, c := t.c,
            k := t.k, stage := t.stage, shown := t.shown } := by
  cases h with
  | rowShort i hs hp hi ht hl =>
    rw [unfilterBytes_eq (predictorOf i) (s.L - (s.pos.toNat + 1)) { s.advance with i := 0 }]
    rfl
  | row i v hs hi ht hl ho he hp hf => rw [he]
  | pixel hs hc => rw [copyBytes_eq]
  | nextRow hs hr => rw [copyBytes_eq]
  | passEnds hs hr => rw [copyBytes_eq]
  | expanded hs hv => rw [expandEntries_eq]
  | composited hs hk hi => rw [compositePixel_eq s s.k hi]
  | _ => rfl

theorem EngineMove.caps_eq : t.caps = s.caps := by rw [h.eq_with]

theorem EngineMove.palCount_eq : t.palCount = s.palCount := by rw [h.eq_with]

theorem EngineMove.trnsCount_eq : t.trnsCount = s.trnsCount := by rw [h.eq_with]

theorem EngineMove.configCheck_eq : t.configCheck = s.configCheck := by rw [h.eq_with]; rfl

theorem EngineMove.derivedGeom_eq : t.derivedGeom = s.derivedGeom := by rw [h.eq_with]; rfl

/-- GEOM is written by step 3 alone, the cursor by step 1 and the rows alone, RGBA_VALID by the expansion alone (R21, R191,
R234). -/
theorem EngineMove.registers_eq :
    (s.stage ≠ .configure → t.geom = s.geom) ∧
    (s.stage ≠ .configure → s.stage ≠ .row → t.pos = s.pos) ∧
    (s.stage ≠ .expand → t.rgbaValid = s.rgbaValid) := by
  cases h with
  | checkPasses hs hc => exact ⟨fun hn => absurd hs hn, fun hn => absurd hs hn, fun _ => rfl⟩
  | checkFails n hs hc => exact ⟨fun _ => rfl, fun hn => absurd hs hn, fun _ => rfl⟩
  | tagIllegal hs hp ht => exact ⟨fun _ => rfl, fun _ hn => absurd hs hn, fun _ => rfl⟩
  | rowShort i hs hp hi ht hl =>
    rw [unfilterBytes_eq (predictorOf i) (s.L - (s.pos.toNat + 1)) { s.advance with i := 0 }]
    exact ⟨fun _ => rfl, fun _ hn => absurd hs hn, fun _ => rfl⟩
  | row i v hs hi ht hl ho he hp hf =>
    rw [he]
    exact ⟨fun _ => rfl, fun _ hn => absurd hs hn, fun _ => rfl⟩
  | expanded hs hv =>
    rw [expandEntries_eq]
    exact ⟨fun _ => rfl, fun _ _ => rfl, fun hn => absurd hs hn⟩
  | pixel hs hc => rw [copyBytes_eq]; exact ⟨fun _ => rfl, fun _ _ => rfl, fun _ => rfl⟩
  | nextRow hs hr => rw [copyBytes_eq]; exact ⟨fun _ => rfl, fun _ _ => rfl, fun _ => rfl⟩
  | passEnds hs hr => rw [copyBytes_eq]; exact ⟨fun _ => rfl, fun _ _ => rfl, fun _ => rfl⟩
  | composited hs hk hi =>
    rw [compositePixel_eq s s.k hi]
    exact ⟨fun _ => rfl, fun _ _ => rfl, fun _ => rfl⟩
  | _ => exact ⟨fun _ => rfl, fun _ _ => rfl, fun _ => rfl⟩

/-- The inputs are never written, and the table only by the expansion (R71, R75). -/
theorem EngineMove.load_eq {sp : Space}
    (hsp : sp = .IN ∨ sp = .PLTE ∨ sp = .TRNS ∨ (sp = .RGBA ∧ s.rgbaValid = true)) (a : Nat) :
    t.load sp a = s.load sp a := by
  have hCUR : sp ≠ .CUR := by rintro rfl; simp at hsp
  have hPREV : sp ≠ .PREV := by rintro rfl; simp at hsp
  have hRASTER : sp ≠ .RASTER := by rintro rfl; simp at hsp
  have hOUT : sp ≠ .OUT := by rintro rfl; simp at hsp
  cases h with
  | rowShort i hs hp hi ht hl => exact unfilterBytes_frame _ _ _ sp a fun hc => hCUR hc.1
  | row i v hs hi ht hl ho he hp hf => exact hf sp a fun hc => hCUR hc.1
  | pixel hs hc =>
    exact (load_copyBytes s _ _ _ _ (by decide) _ sp a).trans (if_neg fun hc => hRASTER hc.1)
  | nextRow hs hr => exact (load_copyBytes s _ _ _ _ (by decide) _ sp a).trans (if_neg fun hc => hPREV hc.1)
  | passEnds hs hr => exact (load_copyBytes s _ _ _ _ (by decide) _ sp a).trans (if_neg fun hc => hPREV hc.1)
  | expanded hs hv =>
    have hRGBA : sp ≠ .RGBA := by rintro rfl; simp [hv] at hsp
    exact (load_expandEntries s s.NP sp a).trans (if_neg fun hc => hRGBA hc.1)
  | composited hs hk hi => exact load_compositePixel s s.k hi sp a fun hc => hOUT hc.1
  | _ => rfl

/-! What every move of a BUSY engine keeps. -/

/-- At most one flag stays up (R24). -/
theorem EngineMove.oneFlag (hb : s.status.busy = true) (hf : s.OneFlag) : t.OneFlag := by
  have ⟨hdone, hfault, _⟩ := hf
  rw [hb, Bool.true_and] at hdone hfault
  rcases h.status_eq_or_ends hdone hfault with he | ⟨he, hx⟩
  · rwa [State.OneFlag, he]
  · refine ⟨by rw [he]; rfl, by rw [he]; rfl, ?_⟩
    cases hd : t.status.done
    · rfl
    · simpa [hd] using hx

/-- A set RGBA_VALID still vouches for the table: the expansion makes it, and every other move leaves it (R43, R191). -/
theorem EngineMove.tableHolds (ht : s.rgbaValid = true → s.TableHolds) (hv : t.rgbaValid = true) : t.TableHolds := by
  by_cases hs : s.rgbaValid = true
  · refine (ht hs).congr h.palCount_eq h.trnsCount_eq fun sp hsp a => h.load_eq ?_ a
    rcases hsp with rfl | rfl | rfl <;> simp [hs]
  · obtain ⟨-, -, hkeep⟩ := h.registers_eq
    have hstage : s.stage = .expand := by
      by_contra hn
      exact hs ((hkeep hn).symm.trans hv)
    cases h with
    | expanded _ _ => exact expandEntries_tableHolds s
    | expansionSkipped _ hskip => exact absurd hskip hs
    | _ => simp_all

variable (hrun : s.stage ≠ .configure → s.Running)
include hrun

/-- The memories stay in canonical form and inside their sizes (R67). -/
theorem EngineMove.memoryOk (hm : s.MemoryOk) : t.MemoryOk := by
  cases h with
  | rowShort i hs hp hi ht hl =>
    have hSL := (hrun (by simp [hs])).SL_le
    exact (unfilterBytes_memoryOk (s := { s.advance with i := 0 }) _ _ (hm.congr rfl rfl)
      (show 0 + (s.L - (s.pos.toNat + 1)) ≤ s.caps.lineCap by omega)).congr rfl rfl
  | row i v hs hi ht hl ho he hp hf =>
    subst ho
    have hSL := (hrun (by simp [hs])).SL_le
    exact (unfilterBytes_memoryOk (s := { s.advance with i := 0 }) _ s.SL (hm.congr rfl rfl)
      (show 0 + s.SL ≤ s.caps.lineCap by omega)).congr rfl rfl
  | pixel hs hc =>
    exact (hm.copyBytes _ _ ((hrun (by simp [hs])).scatterIndex_le hs hc)).congr rfl rfl
  | nextRow hs hr =>
    have hSL := (hrun (by simp [hs])).SL_le
    exact (hm.copyBytes _ _ (show 0 + s.SL ≤ s.caps.lineCap by omega)).congr rfl rfl
  | passEnds hs hr =>
    have hSL := (hrun (by simp [hs])).SL_le
    exact (hm.copyBytes _ _ (show 0 + s.SL ≤ s.caps.lineCap by omega)).congr rfl rfl
  | expanded hs hv =>
    obtain ⟨-, -, -, -, -, -, hNP, -⟩ := (hrun (by simp [hs])).bounds
    exact (expandEntries_memoryOk hm hNP).congr rfl rfl
  | composited hs hk hi =>
    obtain ⟨-, -, -, -, hout, -⟩ := (hrun (by simp [hs])).bounds
    exact (compositePixel_memoryOk hm (k := s.k) (by omega)).congr rfl rfl
  | _ => exact hm.congr rfl rfl

variable (hb : t.status.busy = true)
include hb

/-- The check still passes, and GEOM is what step 3 wrote (R233, R234). -/
theorem EngineMove.checked : t.configCheck = none ∧ t.geom = t.derivedGeom := by
  rw [h.configCheck_eq, h.derivedGeom_eq]
  by_cases hs : s.stage = .configure
  · cases h with
    | checkPasses _ hc => exact ⟨hc, rfl⟩
    | checkFails _ _ _ => cases hb
    | _ => simp_all
  · obtain ⟨hgeom, -⟩ := h.registers_eq
    exact ⟨(hrun hs).checked, (hgeom hs).trans (hrun hs).geom⟩

/-- The cursor stays within the stream (R21). -/
theorem EngineMove.cursor : t.pos.toNat ≤ t.L := by
  have hL : t.L = s.L := by rw [h.eq_with]; rfl
  rw [hL]
  by_cases hs : s.stage = .configure ∨ s.stage = .row
  · cases h with
    | checkPasses _ _ => exact Nat.zero_le _
    | row i v _ _ _ hl _ _ hp _ => exact (show v.pos.toNat = _ from hp) ▸ hl
    | checkFails _ _ _ => cases hb
    | tagMissing _ _ => cases hb
    | tagIllegal _ _ _ => cases hb
    | rowShort _ _ _ _ _ _ => cases hb
    | _ => simp_all
  · obtain ⟨hc, hr⟩ := not_or.mp hs
    obtain ⟨-, hpos, -⟩ := h.registers_eq
    rw [hpos hc hr]
    exact (hrun hc).cursor

/-- The counters stay within their loops, in the stage the move leads to (R22, R165, R211). -/
theorem EngineMove.placeOk : t.PlaceOk := by
  cases h with
  | checkPasses hs hc => exact Nat.zero_le _
  | emptyPass hs hp he => exact (placeOk_beginPass (s := { s with pass := s.pass + 1 }) hs).mpr hp
  | passBegins hs hp hw hh => exact ⟨hp, hw, hh⟩
  | passesEnd hs hp =>
    rcases hi : s.geom.indexed
    · exact (placeOk_composite (by simp)).mpr ⟨Nat.zero_le _, fun hx => absurd (hi.symm.trans hx) (by decide)⟩
    · exact (placeOk_expand (by simp)).mpr ⟨hi, rfl⟩
  | row i v hs hi ht hl ho he hp hf =>
    obtain ⟨hpass, hw, hr⟩ := (placeOk_row hs).mp (hrun (by simp [hs])).place
    rw [he]
    exact ⟨hpass, hw, hr, Nat.zero_le _⟩
  | pixel hs hc =>
    obtain ⟨hpass, hw, hr, -⟩ := (placeOk_scatter hs).mp (hrun (by simp [hs])).place
    rw [copyBytes_eq]
    refine (placeOk_scatter ?_).mpr ⟨hpass, hw, hr, hc⟩
    exact hs
  | rowScattered hs hc =>
    obtain ⟨hpass, hw, hr, -⟩ := (placeOk_scatter hs).mp (hrun (by simp [hs])).place
    exact ⟨hpass, hw, hr⟩
  | nextRow hs hr =>
    obtain ⟨hpass, hw, -⟩ := (placeOk_retire hs).mp (hrun (by simp [hs])).place
    rw [copyBytes_eq]
    exact ⟨hpass, hw, hr⟩
  | passEnds hs hr =>
    obtain ⟨hpass, -⟩ := (placeOk_retire hs).mp (hrun (by simp [hs])).place
    rw [copyBytes_eq]
    exact hpass
  | expanded hs hv =>
    obtain ⟨-, hk⟩ := (placeOk_expand hs).mp (hrun (by simp [hs])).place
    rw [expandEntries_eq]
    exact ⟨hk ▸ Nat.zero_le _, fun _ => rfl⟩
  | expansionSkipped hs hv =>
    obtain ⟨-, hk⟩ := (placeOk_expand hs).mp (hrun (by simp [hs])).place
    exact ⟨hk ▸ Nat.zero_le _, fun _ => hv⟩
  | composited hs hk hi =>
    obtain ⟨-, hv⟩ := (placeOk_composite hs).mp (hrun (by simp [hs])).place
    rw [compositePixel_eq s s.k hi]
    refine (placeOk_composite ?_).mpr ⟨hk, hv⟩
    exact hs
  | checkFails n hs hc => cases hb
  | tagMissing hs hp => cases hb
  | tagIllegal hs hp ht => cases hb
  | rowShort i hs hp hi ht hl => cases hb
  | indexFault hs hk hi hx => cases hb
  | decodeEnds hs hk => cases hb

/-- A decode that goes on after a move is past its check and well placed. -/
theorem EngineMove.running : t.Running := by
  obtain ⟨hcheck, hgeom⟩ := h.checked hrun hb
  exact ⟨hcheck, hgeom, h.cursor hrun hb, h.placeOk hrun hb⟩

end Moves

/-! The invariant. -/

theorem State.Inv.memoryOk {s : State} (h : s.Inv) : s.MemoryOk := ⟨h.canonical, h.inside⟩

/-- While IDLE no decode has a place, so its memories, its flags and its table are the invariant. -/
theorem State.Inv.to_idle {s t : State} (h : s.Inv) (hm : t.MemoryOk) (hc : t.caps = s.caps)
    (hb : t.status.busy = false) (hf : (t.status.done && t.status.fault) = false)
    (ht : t.rgbaValid = true → t.TableHolds) : t.Inv where
  caps := by rw [hc]; exact h.caps
  canonical := hm.canonical
  inside := hm.inside
  oneFlag := by simp only [State.OneFlag, hb, hf, Bool.false_and, and_self]
  running hb' := absurd (hb.symm.trans hb') Bool.false_ne_true
  table := ht

/-- The invariant does not read the schedule, IRQ_EN, WERR, the bus reply or the count of draws. -/
theorem State.Inv.with_host_side {s : State} (h : s.Inv) (rest : List Turn) (e w : Bool) (b : Option Reply) (d : Nat) :
    ({ s with schedule := rest, irqEn := e, status := { s.status with werr := w }, bus := b, draws := d } : State).Inv where
  caps := h.caps
  canonical := h.canonical
  inside := h.inside
  oneFlag := h.oneFlag
  running hb hs := ⟨(h.running hb hs).checked, (h.running hb hs).geom, (h.running hb hs).cursor, (h.running hb hs).place⟩
  table := h.table

theorem State.Inv.with_schedule {s : State} (h : s.Inv) (rest : List Turn) : ({ s with schedule := rest } : State).Inv :=
  h.with_host_side rest s.irqEn s.status.werr s.bus s.draws

/-- A move of a BUSY engine keeps the invariant. -/
theorem EngineMove.inv {s t : State} (h : EngineMove s t) (hi : s.Inv) (hb : s.status.busy = true) : t.Inv :=
  have hm := h.memoryOk (hi.running hb) hi.memoryOk
  { caps := by rw [h.caps_eq]; exact hi.caps
    canonical := hm.canonical
    inside := hm.inside
    oneFlag := h.oneFlag hb hi.oneFlag
    running := fun hb' _ => h.running (hi.running hb) hb'
    table := h.tableHolds hi.table }

/-- START leads to a decode before its check; its flags are BUSY alone (R230). -/
theorem beginDecode_inv {s : State} (h : s.Inv) : s.beginDecode.Inv where
  caps := h.caps
  canonical := h.canonical
  inside := h.inside
  oneFlag := ⟨rfl, rfl, rfl⟩
  running _ hs := absurd rfl hs
  table := h.table

/-- Reset empties every memory and lowers every flag (R280). -/
theorem hardReset_inv {s : State} (h : s.Inv) : (hardReset s).Inv :=
  h.to_idle (hardReset_memoryOk s) rfl rfl rfl fun hv => absurd hv Bool.false_ne_true

/-- An access of the host while IDLE keeps the invariant: what it writes to the table's inputs clears RGBA_VALID (R43,
R232). -/
theorem IdleAccess.inv {s t : State} (h : IdleAccess s t) (hi : s.Inv) (hb : s.status.busy = false) : t.Inv := by
  have hm := hi.memoryOk
  obtain ⟨-, -, hdf⟩ := hi.oneFlag
  cases h with
  | read b d => exact hi.with_host_side s.schedule s.irqEn s.status.werr b d
  | ignored => exact hi
  | irqEn v => exact hi.with_host_side s.schedule v s.status.werr s.bus s.draws
  | inByte a v ha => exact hi.to_idle (hm.store ha v) rfl hb hdf fun hv => (hi.table hv).store_inp a v
  | plteByte a v ha =>
    exact hi.to_idle ((hm.store ha v).congr rfl rfl) rfl hb hdf fun hv => absurd hv Bool.false_ne_true
  | trnsByte a v ha =>
    exact hi.to_idle ((hm.store ha v).congr rfl rfl) rfl hb hdf fun hv => absurd hv Bool.false_ne_true
  | palCount v => exact hi.to_idle (hm.congr rfl rfl) rfl hb hdf fun hv => absurd hv Bool.false_ne_true
  | trnsCount v => exact hi.to_idle (hm.congr rfl rfl) rfl hb hdf fun hv => absurd hv Bool.false_ne_true
  | start => exact beginDecode_inv hi
  | clear => exact hi.to_idle (hm.congr rfl rfl) rfl hb rfl hi.table
  | _ => exact hi.to_idle (hm.congr rfl rfl) rfl hb hdf hi.table

/-- Every move of the machine keeps the invariant. -/
theorem StepMove.inv {s t : State} (h : StepMove s t) (hi : s.Inv) : t.Inv := by
  cases h with
  | idle rest hb => exact hi.with_schedule rest
  | access rest t hb ha => exact ha.inv (hi.with_schedule rest) hb
  | busyAccess rest e w b d hb => exact hi.with_host_side rest e w b d
  | engine rest t hb hm => exact hm.inv (hi.with_schedule rest) hb
  | reset rest hs => exact hardReset_inv (hi.with_schedule rest)

/-- Settles O49, by the moves of a step: each keeps every part of the invariant. -/
theorem everyStepKeepsTheInvariant : Obligations.EveryStepKeepsTheInvariant :=
  fun _ _ hi h => (step_cases h).inv hi

end Sys2Proof.Machine
end

section
/-! PROOFS. What stays and what moves in the state: the frame of the filter instructions (O17), the register reads (O40),
the flags and the faults of a step (O50, O43), the cursor of a decode (O52), and the reset state (O45, O48). The rules of
whole steps go through the moves of `step_cases`; where the stage is known, a closing `simp_all` rules out the moves that
start in another. -/

namespace Sys2Proof.Machine

/-! The frame of a filter instruction (R24, R67, R120). -/

/-- Settles O17: a filter instruction is its row loop, from byte 0 of the row. -/
theorem filterFrame : Obligations.FilterFrame := by
  intro i s t hi h
  obtain rfl : unfilterRow (predictorOf i) s = t := by simpa [exec_row i hi] using h
  have hkeep := unfilterBytes_eq (predictorOf i) s.SL { s with i := 0 }
  obtain ⟨hdone, hwerr⟩ := unfilterBytes_flags (predictorOf i) s.SL { s with i := 0 }
  refine ⟨hkeep, fun sp a ha => ?_, hdone, hwerr, fun hl => ?_⟩
  · refine unfilterBytes_frame (predictorOf i) s.SL { s with i := 0 } sp a ?_
    rintro ⟨hsp, -, hlt⟩
    exact ha ⟨hsp, by simpa using hlt⟩
  · obtain ⟨hwhole, -⟩ := unfilterRow_spec (predictorOf i) s hl
    rw [hwhole]
    exact ⟨rfl, rfl, rfl, rfl, rfl⟩

/-! The registers as numbers (R28, R29, R35, R40). -/

/-- Fields of a word side by side are the digits of a number. -/
theorem toNat_append_eq {m n : Nat} (x : BitVec m) (y : BitVec n) : (x ++ y).toNat = x.toNat * 2 ^ n + y.toNat := by
  rw [BitVec.toNat_append, ← Nat.shiftLeft_add_eq_or_of_lt y.isLt, Nat.shiftLeft_eq]

theorem flagBit_zero_toNat (b : Bool) : (flagBit b 0).toNat = b.toNat := by cases b <;> rfl

theorem Status.word_toNat (f : Status) :
    f.word.toNat = f.busy.toNat + 2 * f.done.toNat + 4 * f.fault.toNat + 8 * f.werr.toNat := by
  obtain ⟨busy, done, fault, werr⟩ := f
  revert busy done fault werr
  decide

theorem ImageFormat.word_toNat (f : ImageFormat) :
    f.word.toNat = f.bitDepth.toNat + 256 * f.colorType.toNat + 65536 * f.interlace.toNat := by
  have h : f.word.toNat = _ := toNat_append_eq (0#8 ++ f.interlace ++ f.colorType) f.bitDepth
  rw [h, toNat_append_eq, toNat_append_eq, BitVec.toNat_ofNat]
  omega

theorem Geom.word_toNat (g : Geom) :
    g.word.toNat =
      g.pixelBytes.toNat + 256 * g.colors.toNat + 1024 * g.hasAlpha.toNat + 2048 * g.indexed.toNat := by
  have h : g.word.toNat = _ :=
    toNat_append_eq (0#20 ++ BitVec.ofBool g.indexed ++ BitVec.ofBool g.hasAlpha ++ g.colors) g.pixelBytes
  rw [h, toNat_append_eq, toNat_append_eq, toNat_append_eq, BitVec.toNat_ofNat, BitVec.toNat_ofBool,
    BitVec.toNat_ofBool]
  omega

/-! What a read of the register file returns (R26, R65, R68, R241). -/

/-- A misaligned offset names no register (R65). -/
theorem ofOffset_misaligned {o : BitVec 6} (h : o.toNat % 4 ≠ 0) : Reg.ofOffset o = none := by
  unfold Reg.ofOffset
  split
  case h_15 => rfl
  all_goals omega

/-- An offset that names no register reaches none, however wide the access. -/
theorem addressedReg_eq_none {o : BitVec 6} (w : AccessWidth) (h : Reg.ofOffset o = none) :
    addressedReg o w = none := by
  rw [addressedReg, h, ite_self]

theorem hostReadReg_unreached (s : State) {o : BitVec 6} {w : AccessWidth} (h : addressedReg o w = none) :
    hostReadReg o w s = s.reply (.word 0) := by
  simp only [hostReadReg, h]

/-- A word read of a register other than POS returns it, in either phase. -/
theorem hostReadReg_word (s : State) {o : BitVec 6} {g : Reg} (h : Reg.ofOffset o = some g) (hg : g ≠ .POS) :
    hostReadReg o .word s = s.reply (.word (s.regWord g)) := by
  simp only [hostReadReg, addressedReg, if_true, h]

/-- A word read of POS returns the cursor while IDLE and a free value while BUSY. -/
theorem hostReadReg_pos (s : State) :
    hostReadReg 0x30#6 .word s =
      if s.status.busy then (s.reply (.word (Config.busyWord s.draws))).drawn else s.reply (.word s.pos) := rfl

/-- Settles O40: a read of the register file is a read of the register that its offset names, if it names one. -/
theorem registerReads : Obligations.RegisterReads := by
  intro s s' o w h
  have hstep : step s = .next (hostReadReg o w s') := step_of_hostTurn h
  refine ⟨?_, ?_, ?_, ?_⟩
  · rintro (hw | ho | rfl | rfl | rfl)
    · rw [hstep, hostReadReg_unreached s' (if_neg hw)]
    · rw [hstep, hostReadReg_unreached s' (addressedReg_eq_none w (ofOffset_misaligned ho))]
    · rw [hstep]; cases w <;> rfl
    · rw [hstep, hostReadReg_unreached s' (addressedReg_eq_none w rfl)]
    · rw [hstep, hostReadReg_unreached s' (addressedReg_eq_none w rfl)]
  · rintro rfl rfl hb
    rw [hstep, hostReadReg_pos, if_neg (by simp [hb])]
  · rintro rfl rfl hb
    rw [hstep, hostReadReg_pos, if_pos hb]
    rfl
  · rintro rfl f x hx rfl
    have named (g : Reg) (ho : Reg.ofOffset o = some g) (hg : g ≠ .POS) (hr : (s'.regWord g).toNat = x) :
        step s = .next (s'.reply (.word (BitVec.ofNat 32 x))) ∧ x < 2 ^ 32 := by
      rw [hstep, hostReadReg_word s' ho hg, ← hr, BitVec.ofNat_toNat, BitVec.setWidth_eq]
      exact ⟨rfl, (s'.regWord g).isLt⟩
    simp only [List.mem_cons, Prod.mk.injEq, List.not_mem_nil, or_false] at hx
    rcases hx with ⟨rfl, rfl⟩ | ⟨rfl, rfl⟩ | ⟨rfl, rfl⟩ | ⟨rfl, rfl⟩ | ⟨rfl, rfl⟩ | ⟨rfl, rfl⟩ | ⟨rfl, rfl⟩ |
      ⟨rfl, rfl⟩ | ⟨rfl, rfl⟩ | ⟨rfl, rfl⟩ | ⟨rfl, rfl⟩ | ⟨rfl, rfl⟩
    · exact named .STATUS rfl (by decide) (Status.word_toNat _)
    · exact named .IRQ_EN rfl (by decide) (flagBit_zero_toNat _)
    · exact named .ERR_CODE rfl (by decide) (BitVec.toNat_setWidth_of_le (by decide))
    · exact named .ERR_POS rfl (by decide) rfl
    · exact named .ERR_VAL rfl (by decide) rfl
    · exact named .WIDTH rfl (by decide) rfl
    · exact named .HEIGHT rfl (by decide) rfl
    · exact named .FORMAT rfl (by decide) (ImageFormat.word_toNat _)
    · exact named .STREAM_LEN rfl (by decide) rfl
    · exact named .PAL_COUNT rfl (by decide) (BitVec.toNat_setWidth_of_le (by decide))
    · exact named .TRNS_COUNT rfl (by decide) (BitVec.toNat_setWidth_of_le (by decide))
    · exact named .GEOM rfl (by decide) (Geom.word_toNat _)

/-! The flags (R24). -/

/-- What an access of the host while IDLE makes of STATUS: nothing, START's, or CLEAR's (R230, R231). -/
theorem IdleAccess.status_cases {s t : State} (h : IdleAccess s t) :
    t.status = s.status ∨ t.status = ⟨true, false, false, false⟩ ∨
      t.status = { s.status with done := false, fault := false, werr := false } := by
  cases h with
  | start => exact .inr (.inl rfl)
  | clear => exact .inr (.inr rfl)
  | _ => exact .inl rfl

/-- A move of a BUSY engine leaves STATUS alone, raises a fault, or ends the decode in DONE (R236, R256). -/
theorem EngineMove.status_cases {s t : State} (h : EngineMove s t) :
    t.status = s.status ∨ (∃ f p v u, t = raiseFault f p v u) ∨ t = s.finish := by
  cases h with
  | checkFails n hs h => exact .inr (.inl ⟨_, _, _, _, rfl⟩)
  | tagMissing hs hp => exact .inr (.inl ⟨_, _, _, _, rfl⟩)
  | tagIllegal hs hp ht => exact .inr (.inl ⟨_, _, _, _, rfl⟩)
  | rowShort i hs hp hi ht hl => exact .inr (.inl ⟨_, _, _, _, rfl⟩)
  | indexFault hs hk hi h => exact .inr (.inl ⟨_, _, _, _, rfl⟩)
  | decodeEnds hs hk => exact .inr (.inr rfl)
  | row i v hs hi ht hl ho he hp hf => rw [he]; exact .inl rfl
  | pixel hs hc => rw [copyBytes_eq]; exact .inl rfl
  | nextRow hs hr => rw [copyBytes_eq]; exact .inl rfl
  | passEnds hs hr => rw [copyBytes_eq]; exact .inl rfl
  | expanded hs hv => rw [expandEntries_eq]; exact .inl rfl
  | composited hs hk hi => rw [compositePixel_eq s s.k hi]; exact .inl rfl
  | _ => exact .inl rfl

/-- START raises BUSY alone, CLEAR lowers flags, and no other access while IDLE changes BUSY, DONE or FAULT. -/
theorem IdleAccess.oneFlag {s t : State} (h : IdleAccess s t) (hf : s.OneFlag) (hb : s.status.busy = false) :
    t.OneFlag := by
  rcases h.status_cases with he | he | he
  · rwa [State.OneFlag, he]
  · rw [State.OneFlag, he]; exact ⟨rfl, rfl, rfl⟩
  · rw [State.OneFlag, he, hb]; exact ⟨rfl, rfl, rfl⟩

theorem StepMove.oneFlag {s t : State} (h : StepMove s t) (hf : s.OneFlag) : t.OneFlag := by
  cases h with
  | idle rest hb => exact hf
  | access rest t hb ha => exact ha.oneFlag hf hb
  | busyAccess rest e w b d hb => exact hf
  | engine rest t hb hm => exact hm.oneFlag hb hf
  | reset rest hs => exact ⟨rfl, rfl, rfl⟩

theorem resetWith_oneFlag (c : Caps) : (State.resetWith c).OneFlag := ⟨rfl, rfl, rfl⟩

/-- Settles O50, by the moves of a step. -/
theorem atMostOneFlag : Obligations.AtMostOneFlag :=
  ⟨resetWith_oneFlag Config.caps, fun _ _ hf h => (step_cases h).oneFlag hf⟩

/-! Where FAULT comes from (R250, R256, R262). -/

theorem FaultCause.code_bounds (f : FaultCause) : 1 ≤ f.code.toNat ∧ f.code.toNat ≤ 4 := by
  cases f <;> decide

/-- A move of a BUSY engine that raises FAULT ends the decode and reports one of the four causes. -/
theorem EngineMove.fault_report {s t : State} (h : EngineMove s t) (hs : s.status.fault = false)
    (ht : t.status.fault = true) : t.status.busy = false ∧ 1 ≤ t.errCode.toNat ∧ t.errCode.toNat ≤ 4 := by
  have hne : t.status.fault ≠ s.status.fault := by rw [ht, hs]; decide
  rcases h.status_cases with he | ⟨f, p, v, u, rfl⟩ | rfl
  · exact absurd (congrArg Status.fault he) hne
  · exact ⟨rfl, f.code_bounds⟩
  · exact absurd rfl hne

/-- No access of the host while IDLE raises FAULT. -/
theorem IdleAccess.fault_eq_false {s t : State} (h : IdleAccess s t) (hs : s.status.fault = false) :
    t.status.fault = false := by
  rcases h.status_cases with he | he | he <;> rw [he]
  exact hs

/-- Settles O43, by the moves of a step: only those of a BUSY engine raise FAULT. -/
theorem onlyADecodeFaults : Obligations.OnlyADecodeFaults := by
  intro s t h ht hs
  have hne : t.status.fault ≠ false := by rw [ht]; decide
  cases step_cases h with
  | idle rest hb => exact absurd hs hne
  | access rest t hb ha => exact absurd (ha.fault_eq_false hs) hne
  | busyAccess rest e w b d hb => exact absurd hs hne
  | engine rest t hb hm => exact ⟨hb, hm.fault_report hs ht⟩
  | reset rest hr => exact absurd rfl hne

/-! The cursor of a decode (R21). -/

/-- The row loop takes one stream byte for each byte of the row. -/
theorem unfilterBytes_pos (pred : Byte → Byte → Byte → Byte) (n : Nat) (s : State) (h : s.pos.toNat + n ≤ s.L) :
    (unfilterBytes pred n s).pos.toNat = s.pos.toNat + n := by
  induction n generalizing s with
  | zero => rfl
  | succ n ih =>
    have hlt : s.pos.toNat < s.L := by omega
    have hp : (s.putRaw pred (s.load .IN s.pos.toNat)).pos.toNat = s.pos.toNat + 1 := advance_pos_toNat s hlt
    have hl : (s.putRaw pred (s.load .IN s.pos.toNat)).L = s.L := rfl
    rw [unfilterBytes_succ pred n hlt, ih _ (by omega)]
    omega

theorem EngineMove.L_eq {s t : State} (h : EngineMove s t) : t.L = s.L := by rw [h.eq_with]; rfl

/-- Past step 1 only the fetch of a record moves the cursor: past the tag, and past the bytes of the row that the stream
holds. -/
theorem EngineMove.cursor_advances {s t : State} (h : EngineMove s t) (hs : s.stage ≠ .configure)
    (hp : s.pos.toNat ≤ s.L) : s.pos.toNat ≤ t.pos.toNat ∧ t.pos.toNat ≤ t.L := by
  rw [h.L_eq]
  by_cases hrow : s.stage = .row
  · cases h with
    | tagMissing _ _ => exact ⟨le_rfl, hp⟩
    | tagIllegal _ hlt _ =>
      have hadv : (invalidFilter (s.load .IN s.pos.toNat) s.advance).pos.toNat = s.pos.toNat + 1 :=
        advance_pos_toNat s hlt
      omega
    | rowShort i _ hlt _ _ _ =>
      have hadv := advance_pos_toNat s hlt
      have hend := unfilterBytes_pos (predictorOf i) (s.L - (s.pos.toNat + 1)) { s.advance with i := 0 }
        (show s.advance.pos.toNat + _ ≤ s.L by omega)
      rw [corruptFile, raiseFault_pos, hend]
      show s.pos.toNat ≤ s.advance.pos.toNat + _ ∧ s.advance.pos.toNat + _ ≤ s.L
      omega
    | row i v _ _ _ hl _ _ hv _ =>
      show s.pos.toNat ≤ v.pos.toNat ∧ v.pos.toNat ≤ s.L
      omega
    | _ => simp_all
  · obtain ⟨-, hpos, -⟩ := h.registers_eq
    rw [hpos hs hrow]
    exact ⟨le_rfl, hp⟩

/-- Settles O52, by the moves of a step while BUSY: a host access leaves the cursor and STREAM_LEN alone. -/
theorem cursorAdvances : Obligations.CursorAdvances := by
  intro s t hb hs hr hp h
  cases step_cases h with
  | idle rest hi => exact absurd (hb.symm.trans hi) (by decide)
  | access rest t hi ha => exact absurd (hb.symm.trans hi) (by decide)
  | busyAccess rest e w b d _ => exact ⟨le_rfl, hp⟩
  | engine rest t _ hm => exact hm.cursor_advances hs hp
  | reset rest hrest => exact absurd hrest (hr rest)

/-! The reset state (R45, R281). -/

theorem resetWith_regWord (c : Caps) (g : Reg) : (State.resetWith c).regWord g = 0 := by
  cases g with
  | STATUS => exact show Status.word ⟨false, false, false, false⟩ = 0 by decide
  | FORMAT => exact show ImageFormat.word ⟨0, 0, 0⟩ = 0 by decide
  | GEOM => exact show Geom.word ⟨0, 0, false, false⟩ = 0 by decide
  | _ => rfl

theorem not_written_resetWith (c : Caps) (sp : Space) (a : Nat) : ¬(State.resetWith c).written sp a := by
  cases sp <;> exact Bool.false_ne_true

/-- Settles O45. -/
theorem resetState : Obligations.ResetState :=
  ⟨rfl, resetWith_regWord Config.caps, rfl, rfl, not_written_resetWith Config.caps⟩

/-- The capacities of the machine meet R6, whatever the implementation's choices. -/
theorem configCaps_wf : Config.caps.wf := by
  simp only [Caps.wf, Config.caps]
  omega

/-- The reset state of capacities that meet R6 meets the invariant: it is IDLE, its memories are empty, and RGBA_VALID
is 0. -/
theorem resetWith_inv {c : Caps} (h : c.wf) : (State.resetWith c).Inv where
  caps := h
  canonical := (resetWith_memoryOk c).canonical
  inside := (resetWith_memoryOk c).inside
  oneFlag := resetWith_oneFlag c
  running hb := absurd hb Bool.false_ne_true
  table hv := absurd hv Bool.false_ne_true

/-- Settles O48: the reset state of the machine is one whose capacities meet R6. -/
theorem invariantAtReset : Obligations.InvariantAtReset := resetWith_inv configCaps_wf

end Sys2Proof.Machine
end

section
/-! PROOFS. The memories: what a host read of a window returns (O41), and that a BUSY decode keeps its inputs (O51). -/

namespace Sys2Proof.Machine

/-! What a read of a window returns (R66, R241), by the place of its index. -/

section Reads

variable {s : State} {w : Window} {a : Nat}

/-- Past its end a window reads 0, in either phase. -/
theorem hostReadWindow_outside (ha : s.caps.size w.space ≤ a) : hostReadWindow w a s = s.reply (.byte 0) :=
  if_pos ha

/-- While BUSY a result window reads as a free value. -/
theorem hostReadWindow_busy (ha : a < s.caps.size w.space) (hw : isInputWindow w = false)
    (hb : s.status.busy = true) :
    hostReadWindow w a s = (s.reply (.byte (Config.busyByte s.draws))).drawn := by
  rw [hostReadWindow, if_neg (Nat.not_le.2 ha), if_pos ⟨hb, hw⟩]

/-- A specified byte reads as what it holds: of an input window always, of a result window while IDLE. -/
theorem hostReadWindow_specified (ha : a < s.caps.size w.space)
    (hp : isInputWindow w = true ∨ s.status.busy = false) (hs : a < s.specified w) :
    hostReadWindow w a s = s.reply (.byte (s.load w.space a)) := by
  have hread : ¬(s.status.busy = true ∧ isInputWindow w = false) := by
    rintro ⟨hb, hw⟩
    rcases hp with hp | hp
    · exact absurd (hp.symm.trans hw) (by decide)
    · exact absurd (hb.symm.trans hp) (by decide)
  rw [hostReadWindow, if_neg (Nat.not_le.2 ha), if_neg hread, if_pos hs]

/-- While IDLE an unspecified byte reads as a free value. -/
theorem hostReadWindow_unspecified (ha : a < s.caps.size w.space) (hb : s.status.busy = false)
    (hs : s.specified w ≤ a) :
    hostReadWindow w a s = s.reply (.byte (Config.undefinedByte w.space s.draws a)) := by
  rw [hostReadWindow, if_neg (Nat.not_le.2 ha), if_neg (by simp [hb]), if_neg (Nat.not_lt.2 hs)]

end Reads

/-- Settles O41: the statement names the windows, and each has its case among the reads above. -/
theorem windowReads : Obligations.WindowReads := by
  intro s s' w a h
  have hstep : step s = .next (hostReadWindow w a s') := step_of_hostTurn h
  rw [hstep]
  refine ⟨fun ha => ?_, fun ha hw => ?_, fun ha hw hb => ?_, fun ha hb hw => ?_, fun ha hb hw => ?_⟩
  · rw [hostReadWindow_outside ha]
  · rcases hw with rfl | rfl | rfl <;> rw [hostReadWindow_specified ha (.inl rfl) ha]
  · rcases hw with rfl | rfl | rfl <;> rw [hostReadWindow_busy ha rfl hb] <;> rfl
  · rcases hw with ⟨rfl, hs⟩ | ⟨rfl, hs⟩ | ⟨rfl, hs⟩ <;> rw [hostReadWindow_specified ha (.inr hb) hs]
  · rcases hw with ⟨rfl, hs⟩ | ⟨rfl, hs⟩ | ⟨rfl, hs⟩ <;> rw [hostReadWindow_unspecified ha hb hs]

/-! The inputs of a decode (R70, R71, R74). -/

/-- No move of a BUSY engine writes an input. -/
theorem EngineMove.sameInputs {s t : State} (h : EngineMove s t) : SameInputs s t := by
  have hload (sp : Space) (hsp : sp = .IN ∨ sp = .PLTE ∨ sp = .TRNS) (a : Nat) : t.load sp a = s.load sp a :=
    h.load_eq (by tauto) a
  refine ⟨?_, ?_, ?_, ?_, h.palCount_eq, h.trnsCount_eq, h.caps_eq, hload⟩ <;> rw [h.eq_with]

/-- Settles O51, by the moves of a step while BUSY: a host access reaches IRQ_EN, WERR, the bus and the draws alone. -/
theorem inputsAreFrozenWhileBusy : Obligations.InputsAreFrozenWhileBusy := by
  intro s t hb hr h
  cases step_cases h with
  | idle rest hi => exact absurd (hb.symm.trans hi) (by decide)
  | access rest t hi ha => exact absurd (hb.symm.trans hi) (by decide)
  | busyAccess rest e w b d _ => exact ⟨rfl, rfl, rfl, rfl, rfl, rfl, rfl, fun _ _ _ => rfl⟩
  | engine rest t _ hm => exact hm.sameInputs
  | reset rest hrest => exact absurd hrest (hr rest)

end Sys2Proof.Machine
end

section
/-! PROOFS. The encoding: what the decoder reads from a tag and from a word written to CTRL (O1, O2), that it reads exactly
the encoder's words (O3), the layout of assembled records (O4), and the command that a write to CTRL runs (O6). -/

namespace Sys2Proof

/-! The tags (R92, R98). -/

/-- R98: the numbers beside 0 to 4 name no filter. -/
theorem decode_tag_illegal {t : Byte} (h : 5 ≤ t.toNat) : decode (.tag t) = .illegalTag t := by
  simp only [decode, decodeTag]
  split
  case h_6 => rfl
  all_goals omega

/-- Settles O1. -/
theorem tagsDecode : Obligations.TagsDecode := ⟨rfl, rfl, rfl, rfl, rfl, fun _ => decode_tag_illegal⟩

/-! The words written to CTRL (R97), by their two low bits. -/

section Ctrl

variable {v : Word}

theorem decode_ctrl_start (h0 : v.getLsbD 0 = true) :
    decode (.ctrl v) = .instr (.start (v.extractLsb' 1 31)) := if_pos h0

theorem decode_ctrl_clear (h0 : v.getLsbD 0 = false) (h1 : v.getLsbD 1 = true) :
    decode (.ctrl v) = .instr (.clear (v.extractLsb' 2 30)) := by
  simp only [decode, decodeCtrl, h0, h1, Bool.false_eq_true, if_false, if_true]

theorem decode_ctrl_none (h0 : v.getLsbD 0 = false) (h1 : v.getLsbD 1 = false) :
    decode (.ctrl v) = .noCommand v := by
  simp only [decode, decodeCtrl, h0, h1, Bool.false_eq_true, if_false]

end Ctrl

theorem getLsbD_zero_eq (v : Word) : v.getLsbD 0 = decide (v.toNat % 2 = 1) := Nat.testBit_zero v.toNat

theorem getLsbD_one_eq (v : Word) : v.getLsbD 1 = decide (v.toNat / 2 % 2 = 1) := by
  rw [← BitVec.testBit_toNat, Nat.testBit_succ, Nat.testBit_zero]

/-- Settles O2: bits 1:0 of the value are its two lowest binary digits. -/
theorem ctrlValuesDecode : Obligations.CtrlValuesDecode := by
  intro v
  refine ⟨fun h => ⟨_, decode_ctrl_start ?_⟩, fun h => ⟨_, decode_ctrl_clear ?_ ?_⟩, fun h => decode_ctrl_none ?_ ?_⟩
  all_goals
    simp only [getLsbD_zero_eq, getLsbD_one_eq, decide_eq_true_eq, decide_eq_false_iff_not]
    omega

/-! The decoder against the encoder. -/

/-- The ignored bits of START are read back (R97). -/
theorem extract_start (rest : BitVec 31) : (rest ++ 1#1 : Word).extractLsb' 1 31 = rest := by
  refine BitVec.eq_of_getLsbD_eq fun n hn => ?_
  rw [BitVec.getLsbD_extractLsb', start_getLsbD, if_neg (by omega), Nat.add_sub_cancel_left]
  simp [hn]

/-- The ignored bits of CLEAR are read back (R97). -/
theorem extract_clear (rest : BitVec 30) : (rest ++ 2#2 : Word).extractLsb' 2 30 = rest := by
  refine BitVec.eq_of_getLsbD_eq fun n hn => ?_
  rw [BitVec.getLsbD_extractLsb', clear_getLsbD, if_neg (by omega), Nat.add_sub_cancel_left]
  simp [hn]

/-- A word with bit 0 set is an encoded START. -/
theorem append_extract_start {v : Word} (h0 : v.getLsbD 0 = true) : (v.extractLsb' 1 31 ++ 1#1 : Word) = v := by
  refine BitVec.eq_of_getLsbD_eq fun n hn => ?_
  rw [start_getLsbD]
  rcases n with _ | n
  · exact h0.symm
  · simp [Nat.add_comm 1 n, show n < 31 by omega]

/-- A word with bits 1:0 = 0b10 is an encoded CLEAR. -/
theorem append_extract_clear {v : Word} (h0 : v.getLsbD 0 = false) (h1 : v.getLsbD 1 = true) :
    (v.extractLsb' 2 30 ++ 2#2 : Word) = v := by
  refine BitVec.eq_of_getLsbD_eq fun n hn => ?_
  rw [clear_getLsbD]
  rcases n with _ | _ | n
  · exact h0.symm
  · exact h1.symm
  · simp [Nat.add_comm 2 n, show n < 30 by omega]

/-- The decoder reads the instruction from the encoder's word. -/
theorem decode_encode (i : Instr) : decode (encode i) = .instr i := by
  cases i with
  | start rest =>
    have h0 : BitVec.getLsbD (rest ++ 1#1 : Word) 0 = true := by rw [start_getLsbD]; rfl
    rw [encode, decode_ctrl_start h0, extract_start]
  | clear rest =>
    have h0 : BitVec.getLsbD (rest ++ 2#2 : Word) 0 = false := by rw [clear_getLsbD]; rfl
    have h1 : BitVec.getLsbD (rest ++ 2#2 : Word) 1 = true := by rw [clear_getLsbD]; rfl
    rw [encode, decode_ctrl_clear h0 h1, extract_clear]
  | _ => rfl

/-- The decoder reads a filter instruction from its own tag alone. -/
theorem encode_of_decode_tag {t : Byte} {i : Instr} (h : decode (.tag t) = .instr i) : encode i = .tag t := by
  have key (n : Byte) (hn : t.toNat = n.toNat) : Encoded.tag n = .tag t := congrArg _ (BitVec.eq_of_toNat_eq hn.symm)
  simp only [decode, decodeTag] at h
  split at h
  case h_1 ht => cases h; exact key 0 ht
  case h_2 ht => cases h; exact key 1 ht
  case h_3 ht => cases h; exact key 2 ht
  case h_4 ht => cases h; exact key 3 ht
  case h_5 ht => cases h; exact key 4 ht
  case h_6 => cases h

/-- The decoder reads a command from the words that encode it alone. -/
theorem encode_of_decode_ctrl {v : Word} {i : Instr} (h : decode (.ctrl v) = .instr i) : encode i = .ctrl v := by
  rcases h0 : v.getLsbD 0
  · rcases h1 : v.getLsbD 1
    · rw [decode_ctrl_none h0 h1] at h
      cases h
    · rw [decode_ctrl_clear h0 h1] at h
      cases h
      exact congrArg Encoded.ctrl (append_extract_clear h0 h1)
  · rw [decode_ctrl_start h0] at h
    cases h
    exact congrArg Encoded.ctrl (append_extract_start h0)

/-- Settles O3: decoding undoes encoding, and reads the instruction from no other word. -/
theorem decodeEncodeAgree : Obligations.DecodeEncodeAgree := by
  rintro i e -
  constructor
  · intro h
    cases e with
    | tag t => exact encode_of_decode_tag h
    | ctrl v => exact encode_of_decode_ctrl h
  · rintro rfl
    exact decode_encode i

/-! Assembled records (R90, R94, R100). -/

theorem assemble_cons (x : Record) (rs : List Record) : assemble (x :: rs) = assembleRecord x ++ assemble rs := rfl

/-- A well-formed record is its tag and then its `sl` data bytes. -/
theorem Record.wellFormed_tag {sl : Nat} {x : Record} (h : x.wellFormed sl = true) :
    (∃ t, tagOf x.op = some t ∧ assembleRecord x = t :: x.data) ∧ x.data.length = sl := by
  obtain ⟨op, data⟩ := x
  simp only [Record.wellFormed, Bool.and_eq_true, beq_iff_eq] at h
  obtain ⟨⟨hrow, -⟩, hlen⟩ := h
  refine ⟨?_, hlen⟩
  cases op with
  | start rest => cases hrow
  | clear rest => cases hrow
  | _ => exact ⟨_, rfl, rfl⟩

theorem assembleRecord_length {sl : Nat} {x : Record} (h : x.wellFormed sl = true) :
    (assembleRecord x).length = 1 + sl := by
  obtain ⟨⟨t, -, hx⟩, hlen⟩ := Record.wellFormed_tag h
  rw [hx, List.length_cons, hlen, Nat.add_comm]

theorem assemble_length {sl : Nat} {rs : List Record} (h : ∀ x, x ∈ rs → x.wellFormed sl = true) :
    (assemble rs).length = rs.length * (1 + sl) := by
  induction rs with
  | nil => simp [assemble]
  | cons x rs ih =>
    obtain ⟨hx, hrs⟩ := List.forall_mem_cons.mp h
    rw [assemble_cons, List.length_append, assembleRecord_length hx, ih hrs, List.length_cons]
    ring

/-- Byte `n` of record `j` stands `n` bytes after the `j` records before it. -/
theorem assemble_getElem? {sl : Nat} {rs : List Record} (h : ∀ x, x ∈ rs → x.wellFormed sl = true) {j : Nat}
    {x : Record} (hj : rs[j]? = some x) {n : Nat} (hn : n < 1 + sl) :
    (assemble rs)[j * (1 + sl) + n]? = (assembleRecord x)[n]? := by
  induction rs generalizing j with
  | nil => simp at hj
  | cons y rs ih =>
    obtain ⟨hy, hrs⟩ := List.forall_mem_cons.mp h
    have hlen := assembleRecord_length hy
    rw [assemble_cons]
    cases j with
    | zero =>
      obtain rfl : y = x := by simpa using hj
      rw [Nat.zero_mul, Nat.zero_add, List.getElem?_append_left (by omega)]
    | succ j =>
      have hsplit : (j + 1) * (1 + sl) + n = (assembleRecord y).length + (j * (1 + sl) + n) := by rw [hlen]; ring
      rw [hsplit, List.getElem?_append_right (Nat.le_add_right _ _), Nat.add_sub_cancel_left]
      exact ih hrs (by simpa using hj)

/-- Settles O4: byte 0 of a record is its tag, byte `1 + n` its data byte `n`. -/
theorem recordsFollowOneAnother : Obligations.RecordsFollowOneAnother := by
  intro sl rs h
  refine ⟨assemble_length h, fun j x hj => ?_⟩
  obtain ⟨⟨t, htag, hx⟩, -⟩ := Record.wellFormed_tag (h x (List.mem_of_getElem? hj))
  constructor
  · have h0 := assemble_getElem? h hj (n := 0) (by omega)
    rw [Nat.add_zero] at h0
    rw [h0, hx, htag, List.getElem?_cons_zero]
  · intro n hn
    rw [Nat.add_assoc, assemble_getElem? h hj (by omega), hx, Nat.add_comm 1 n, List.getElem?_cons_succ]

end Sys2Proof

namespace Sys2Proof.Machine

/-! The command that a write to CTRL runs (R97). -/

theorem hostCommand_instr {v : Word} {i : Instr} (h : decode (.ctrl v) = .instr i) (s : State) :
    hostCommand v s = exec i s := by
  simp only [hostCommand, h]

/-- Settles O6: offset 0x00 is CTRL. -/
theorem stepRunsWrittenCommand : Obligations.StepRunsWrittenCommand := by
  intro s s' v i h hi _
  calc step s = hostAccess (.writeReg 0x00#6 .word v) s' := step_of_hostTurn h
    _ = hostCommand v s' := rfl
    _ = exec i s' := hostCommand_instr hi s'

end Sys2Proof.Machine
end

section
/-! PROOFS. The cursor of a running decode is the number of stream bytes of the records it has consumed (O53): how the start
of a record moves from row to row and from pass to pass, and then the moves of `step_cases`. -/

namespace Sys2Proof.Machine

/-! The stream bytes consumed, stage by stage. -/

section Consumed

variable {s : State}

theorem consumed_beginPass (h : s.stage = .beginPass) : s.consumed = s.recordStart s.pass 0 := by
  simp only [State.consumed, h]

theorem consumed_row (h : s.stage = .row) : s.consumed = s.recordStart s.pass s.r := by
  simp only [State.consumed, h]

theorem consumed_scatter (h : s.stage = .scatter) : s.consumed = s.recordStart s.pass (s.r + 1) := by
  simp only [State.consumed, h]

theorem consumed_retire (h : s.stage = .retire) : s.consumed = s.recordStart s.pass (s.r + 1) := by
  simp only [State.consumed, h]

/-- After the passes a decode has consumed the records of them all (R169). -/
theorem consumed_afterPasses (h : s.stage = .expand ∨ s.stage = .composite) :
    s.consumed = streamBytes s.W s.H s.pb s.passes := by
  rcases h with h | h <;> simp only [State.consumed, h]

/-! Where the records of the decode's pass begin (R62, R90, R94). -/

/-- A row of the pass takes its tag and `SL` bytes. -/
theorem recordStart_succ (r : Nat) : s.recordStart s.pass (r + 1) = s.recordStart s.pass r + (1 + s.SL) := by
  show _ + (r + 1) * (1 + s.SL) = _ + r * (1 + s.SL) + (1 + s.SL)
  rw [Nat.succ_mul, Nat.add_assoc]

/-- A pass begins where the passes before it end. -/
theorem recordStart_zero (q : Nat) : s.recordStart q 0 = streamBytes s.W s.H s.pb (s.passes.take q) := by
  simp only [State.recordStart, Nat.zero_mul, Nat.add_zero]

/-- The next pass begins after the stream bytes of this one. -/
theorem recordStart_nextPass (hp : s.pass < s.passes.length) :
    s.recordStart (s.pass + 1) 0 = s.recordStart s.pass 0 + passBytes s.W s.H s.pb s.geometry := by
  rw [recordStart_zero, recordStart_zero, streamBytes_take_succ (geometry_getElem? hp)]

/-- An empty pass has no record (R164). -/
theorem recordStart_emptyPass (hp : s.pass < s.passes.length) (he : s.subWidth = 0 ∨ s.subHeight = 0) :
    s.recordStart (s.pass + 1) 0 = s.recordStart s.pass 0 := by
  have hbytes : passBytes s.W s.H s.pb s.geometry = 0 := if_pos he
  rw [recordStart_nextPass hp, hbytes, Nat.add_zero]

/-- The next pass begins after the last row of this one (R167). -/
theorem recordStart_lastRow (hp : s.pass < s.passes.length) (hw : 0 < s.subWidth) (hh : 0 < s.subHeight) :
    s.recordStart (s.pass + 1) 0 = s.recordStart s.pass s.subHeight := by
  have hbytes : passBytes s.W s.H s.pb s.geometry = s.subHeight * (1 + s.SL) :=
    if_neg (show ¬(s.subWidth = 0 ∨ s.subHeight = 0) by omega)
  rw [recordStart_nextPass hp, hbytes, recordStart_zero]
  rfl

/-- Past the last pass every record has been consumed. -/
theorem recordStart_passesEnd (hp : s.passes.length ≤ s.pass) :
    s.recordStart s.pass 0 = streamBytes s.W s.H s.pb s.passes := by
  rw [recordStart_zero, List.take_of_length_le hp]

end Consumed

/-! The moves. -/

/-- Past step 1 only the fetch of a record consumes stream bytes. -/
theorem EngineMove.consumed_eq {s t : State} (h : EngineMove s t) (hrun : s.Running) (hc : s.stage ≠ .configure)
    (hr : s.stage ≠ .row) : t.consumed = s.consumed := by
  cases h with
  | emptyPass hs hp he =>
    rw [consumed_beginPass hs, ← recordStart_emptyPass hp he]
    exact consumed_beginPass (s := { s with pass := s.pass + 1 }) hs
  | passBegins hs hp hw hh =>
    rw [consumed_beginPass hs]
    rfl
  | passesEnd hs hp =>
    rw [consumed_beginPass hs, recordStart_passesEnd hp, consumed_afterPasses (by rcases s.geom.indexed <;> simp)]
    rfl
  | pixel hs _ =>
    rw [copyBytes_eq]
    rfl
  | rowScattered hs _ =>
    rw [consumed_scatter hs]
    rfl
  | nextRow hs hrow =>
    rw [copyBytes_eq, consumed_retire hs]
    rfl
  | passEnds hs hrow =>
    obtain ⟨hpass, hw, hlt⟩ := (placeOk_retire hs).mp hrun.place
    have hlast : s.r + 1 = s.subHeight := by omega
    rw [copyBytes_eq, consumed_retire hs, hlast, ← recordStart_lastRow hpass hw (by omega)]
    rfl
  | expanded hs _ =>
    rw [expandEntries_eq, consumed_afterPasses (.inl hs)]
    rfl
  | expansionSkipped hs _ =>
    rw [consumed_afterPasses (.inl hs)]
    rfl
  | composited hs _ hi =>
    rw [compositePixel_eq s s.k hi]
    rfl
  | indexFault hs _ _ _ => rfl
  | decodeEnds hs _ => rfl
  | _ => simp_all

/-- A move of a BUSY engine that leaves the decode running keeps the cursor at the end of the consumed records: the check
puts it at 0, and the fetch of a record moves it past the tag and the `SL` bytes. -/
theorem EngineMove.pos_eq_consumed {s t : State} (h : EngineMove s t) (hrun : s.stage ≠ .configure → s.Running)
    (hcur : s.stage ≠ .configure → s.pos.toNat = s.consumed) (hb : t.status.busy = true) :
    t.pos.toNat = t.consumed := by
  by_cases hs : s.stage = .configure ∨ s.stage = .row
  · cases h with
    | checkPasses _ _ =>
      rw [consumed_beginPass rfl, recordStart_zero]
      rfl
    | row i v hs _ _ _ _ he hp _ =>
      have hnext : ({ v with stage := .scatter, c := 0 } : State).consumed = s.recordStart s.pass (s.r + 1) := by
        rw [he]
        rfl
      have hpos := hcur (by simp [hs])
      rw [consumed_row hs] at hpos
      rw [hnext, recordStart_succ]
      show v.pos.toNat = _
      omega
    | checkFails _ _ _ => cases hb
    | tagMissing _ _ => cases hb
    | tagIllegal _ _ _ => cases hb
    | rowShort _ _ _ _ _ _ => cases hb
    | _ => simp_all
  · obtain ⟨hc, hr⟩ := not_or.mp hs
    obtain ⟨-, hpos, -⟩ := h.registers_eq
    rw [hpos hc hr, h.consumed_eq (hrun hc) hc hr, hcur hc]

/-- An access of the host while IDLE that leads to BUSY is START, before the configuration check (R230). -/
theorem IdleAccess.stage_of_busy {s t : State} (h : IdleAccess s t) (hs : s.status.busy = false)
    (ht : t.status.busy = true) : t.stage = .configure := by
  cases h with
  | start => rfl
  | _ => exact absurd (hs.symm.trans ht) Bool.false_ne_true

/-- Every move of the machine keeps the cursor at the end of the consumed records. -/
theorem StepMove.cursorOk {s t : State} (h : StepMove s t) (hi : s.Inv) (hc : s.CursorOk) : t.CursorOk := by
  intro hb hstage
  cases h with
  | idle rest hidle => exact absurd (hidle.symm.trans hb) Bool.false_ne_true
  | access rest t hidle ha => exact absurd (ha.stage_of_busy hidle hb) hstage
  | busyAccess rest e w b d hbusy => exact hc hb hstage
  | engine rest t hbusy hm => exact hm.pos_eq_consumed ((hi.with_schedule rest).running hbusy) (hc hbusy) hb
  | reset rest hs => exact absurd hb Bool.false_ne_true

/-- Settles O53, by the moves of a step. -/
theorem cursorCountsTheRecords : Obligations.CursorCountsTheRecords :=
  fun _ _ hi hc h => (step_cases h).cursorOk hi hc

end Sys2Proof.Machine
end

section
/-! PROOFS. The filter instructions: each reconstructs a row by its predictor (O10 to O14), the Paeth predictor (O15, O16), and
over a whole row that the forward filter is undone (O18) and that the lanes stay apart (O19). -/

namespace Sys2Proof.Machine

/-! One byte (R123, R124). -/

/-- Reconstruction is addition of bytes. -/
theorem reconstruct_eq_add (f p : Byte) : reconstruct f p = f + p := rfl

theorem reconstruct_toNat (f p : Byte) : (reconstruct f p).toNat = (f.toNat + p.toNat) % 256 := BitVec.toNat_ofNat _ _

/-- The byte above to the left is the byte above of the pixel before, 0 in a first pixel (R123). -/
theorem upperLeft_eq (s : State) (n : Nat) : s.upperLeft n = if s.pb ≤ n then s.upper (n - s.pb) else 0 := by
  by_cases hp : s.pb ≤ n <;> simp only [State.upperLeft, State.upper, hp, and_true, and_false, if_true, if_false]

/-- A fact about every byte of a row, each following from that of the byte one pixel to the left. -/
theorem row_induction {s : State} {P : Nat → Prop} (h : ∀ n, n < s.SL → (s.pb ≤ n → P (n - s.pb)) → P n) :
    ∀ n, n < s.SL → P n := by
  intro n
  induction n using Nat.strongRecOn with
  | ind n ih =>
    intro hn
    have hpb : 0 < s.pb := (SL_eq_zero_or_pb_pos s).resolve_left (by omega)
    exact h n hn fun hle => ih (n - s.pb) (by omega) (by omega)

/-! The forward filter and its inverse (R134). -/

/-- The row loop undoes the forward filter, when the line above is the one that the filter read. -/
theorem load_unfilterRow_forward {i : Instr} {s : State} {raw above : Nat → Byte} (hl : s.pos.toNat + s.SL ≤ s.L)
    (hup : ∀ n, n < s.SL → s.upper n = above n)
    (hin : ∀ n, n < s.SL → s.load .IN (s.pos.toNat + n) = forwardByte i s.pb raw above n) :
    ∀ n, n < s.SL → (unfilterRow (predictorOf i) s).load .CUR n = raw n := by
  obtain ⟨-, -, -, hcur⟩ := unfilterRow_spec (predictorOf i) s hl
  refine row_induction fun n hn hleft => ?_
  rw [hcur n hn, hin n hn, forwardByte, reconstruct_eq_add, upperLeft_eq, hup n hn]
  by_cases hp : s.pb ≤ n
  · simp only [if_pos hp, hleft hp, hup (n - s.pb) (by omega), BitVec.sub_add_cancel]
  · simp only [if_neg hp, BitVec.sub_add_cancel]

/-- Settles O18: the row loop, byte by byte from one pixel to the next. -/
theorem forwardFilterIsUndone : Obligations.ForwardFilterIsUndone := fun i s _ hi hl hin =>
  ⟨_, exec_row i hi s, load_unfilterRow_forward hl (fun _ _ => rfl) hin⟩

/-! The lanes (R131). -/

/-- Settles O19: the operands of a byte are bytes of its own lane. -/
theorem lanesAreIndependent : Obligations.LanesAreIndependent := by
  intro i s₁ s₂ lane hi hpb hSL hr hl₁ hl₂ hin
  obtain ⟨-, -, -, hcur₁⟩ := unfilterRow_spec (predictorOf i) s₁ hl₁
  obtain ⟨-, -, -, hcur₂⟩ := unfilterRow_spec (predictorOf i) s₂ hl₂
  refine ⟨_, _, exec_row i hi s₁, exec_row i hi s₂, row_induction fun n hn hleft hlane => ?_⟩
  have hup (m : Nat) (hm : m < s₁.SL) (hml : m % s₁.pb = lane) : s₁.upper m = s₂.upper m := by
    simp only [State.upper, ← hr]
    split_ifs with h0
    · exact (hin m hm hml).2 h0
    · rfl
  rw [hcur₁ n hn, hcur₂ n (hSL ▸ hn), (hin n hn hlane).1, upperLeft_eq, upperLeft_eq, hup n hn hlane, ← hpb]
  by_cases hp : s₁.pb ≤ n
  · have hlane' : (n - s₁.pb) % s₁.pb = lane := (Nat.mod_eq_sub_mod hp).symm.trans hlane
    simp only [if_pos hp, hleft hp hlane', hup (n - s₁.pb) (by omega) hlane']
  · simp only [if_neg hp]

/-! The rule of the five filter instructions (R120 to R124). -/

/-- The bytes of a row that the stream holds, whether or not it holds the whole row. -/
theorem load_unfilterRow (pred : Byte → Byte → Byte → Byte) {s : State} (h0 : s.pos.toNat ≤ s.L) {n : Nat}
    (hn : n < s.SL) (hl : s.pos.toNat + n < s.L) :
    (unfilterRow pred s).load .CUR n = reconstruct (s.load .IN (s.pos.toNat + n))
      (pred (if s.pb ≤ n then (unfilterRow pred s).load .CUR (n - s.pb) else 0) (s.upper n) (s.upperLeft n)) := by
  rcases Nat.lt_or_ge s.L (s.pos.toNat + s.SL) with hshort | hwhole
  · have hpb : 0 < s.pb := (SL_eq_zero_or_pb_pos s).resolve_left (by omega)
    obtain ⟨-, -, -, hcur⟩ := unfilterBytes_spec pred (s.L - s.pos.toNat) { s with i := 0 } hpb
      (show s.pos.toNat + _ ≤ s.L by omega)
    have hbyte := hcur n (by omega)
    simp only [Nat.zero_add] at hbyte
    rw [unfilterRow_short pred s h0 hshort]
    exact hbyte
  · obtain ⟨-, -, -, hcur⟩ := unfilterRow_spec pred s hwhole
    exact hcur n hn

/-- A row that the stream does not hold whole ends with the cursor at the end of the stream (R121, R251). -/
theorem unfilterRow_short_report (pred : Byte → Byte → Byte → Byte) {s : State} (h0 : s.pos.toNat ≤ s.L)
    (h : s.L < s.pos.toNat + s.SL) :
    let t := unfilterRow pred s
    t.pos = s.streamLen ∧ t.status = { s.status with busy := false, fault := true } ∧
      t.errCode = 1 ∧ t.errPos = s.streamLen ∧ t.errVal = 0 := by
  have hpb : 0 < s.pb := (SL_eq_zero_or_pb_pos s).resolve_left (by omega)
  obtain ⟨he, hp, -⟩ := unfilterBytes_spec pred (s.L - s.pos.toNat) { s with i := 0 } hpb
    (show s.pos.toNat + _ ≤ s.L by omega)
  have hpos : (unfilterBytes pred (s.L - s.pos.toNat) { s with i := 0 }).pos = s.streamLen :=
    BitVec.eq_of_toNat_eq (hp.trans (show s.pos.toNat + (s.L - s.pos.toNat) = s.L by omega))
  rw [unfilterRow_short pred s h0 h]
  refine ⟨hpos, ?_, rfl, ?_, rfl⟩ <;> simp only [corruptFile, raiseFault_status, raiseFault_errPos] <;> rw [he]

/-- A filter instruction meets the rule with the number that its predictor is. -/
theorem rowRule_of_predictorOf {i : Instr} (hi : i.isRow = true) {predict : Byte → Byte → Byte → Nat}
    (hp : ∀ a b c, (predictorOf i a b c).toNat = predict a b c) : RowRule i predict := by
  intro s h0
  refine ⟨_, exec_row i hi s, fun n hn hl => ?_, fun hl => ?_, unfilterRow_short_report (predictorOf i) h0⟩
  · rw [load_unfilterRow (predictorOf i) h0 hn hl, reconstruct_toNat, hp]
    rfl
  · obtain ⟨he, hpos, -⟩ := unfilterRow_spec (predictorOf i) s hl
    refine ⟨hpos, ?_⟩
    rw [he]
    exact ⟨rfl, rfl, rfl, rfl⟩

/-- Half the exact sum of two bytes is a byte (R128). -/
theorem predAvg_toNat (a b c : Byte) : (predAvg a b c).toNat = (a.toNat + b.toNat) / 2 :=
  (BitVec.toNat_ofNat _ _).trans (Nat.mod_eq_of_lt (by omega))

/-- Settles O10. -/
theorem noneRow : Obligations.NoneRow := ⟨rfl, rowRule_of_predictorOf rfl fun _ _ _ => rfl⟩

/-- Settles O11. -/
theorem subRow : Obligations.SubRow := ⟨rfl, rowRule_of_predictorOf rfl fun _ _ _ => rfl⟩

/-- Settles O12. -/
theorem upRow : Obligations.UpRow := ⟨rfl, rowRule_of_predictorOf rfl fun _ _ _ => rfl⟩

/-- Settles O13. -/
theorem avgRow : Obligations.AvgRow := ⟨rfl, rowRule_of_predictorOf rfl predAvg_toNat⟩

/-- Settles O14. -/
theorem paethRow : Obligations.PaethRow := ⟨rfl, rowRule_of_predictorOf rfl fun _ _ _ => rfl⟩

/-! The Paeth predictor (R129, R130). -/

/-- The predictor with its deviations as R133 writes them. -/
theorem predPaeth_eq (a b c : Byte) :
    predPaeth a b c =
      if ((b.toNat : Int) - c.toNat).natAbs ≤ ((a.toNat : Int) - c.toNat).natAbs ∧
          ((b.toNat : Int) - c.toNat).natAbs ≤ ((a.toNat : Int) + b.toNat - 2 * c.toNat).natAbs then a
      else if ((a.toNat : Int) - c.toNat).natAbs ≤ ((a.toNat : Int) + b.toNat - 2 * c.toNat).natAbs then b
      else c := by
  have ha : (a.toNat : Int) + b.toNat - c.toNat - a.toNat = b.toNat - c.toNat := by omega
  have hb : (a.toNat : Int) + b.toNat - c.toNat - b.toNat = a.toNat - c.toNat := by omega
  have hc : (a.toNat : Int) + b.toNat - c.toNat - c.toNat = a.toNat + b.toNat - 2 * c.toNat := by omega
  simp only [predPaeth, ha, hb, hc]

/-- Settles O15. -/
theorem paethPredictorTieBreak : Obligations.PaethPredictorTieBreak := by
  intro a b c pa pb pc
  rw [predPaeth_eq]
  exact ⟨fun h => if_pos h, fun ⟨hn, h⟩ => (if_neg hn).trans (if_pos h), fun ⟨hn, h⟩ => (if_neg hn).trans (if_neg h)⟩

/-- Settles O16, by the choice of R129: the deviation from left is 0 in a first row, that from upper in a first pixel. -/
theorem paethAtTheEdges : Obligations.PaethAtTheEdges := by
  intro a b
  constructor
  · obtain ⟨hleft, -, -⟩ := paethPredictorTieBreak a 0 0
    exact hleft ⟨Nat.zero_le _, Nat.zero_le _⟩
  · obtain ⟨hleft, hupper, -⟩ := paethPredictorTieBreak 0 b 0
    by_cases h : b.toNat = 0
    · obtain rfl : b = 0 := BitVec.eq_of_toNat_eq h
      exact hleft ⟨le_rfl, le_rfl⟩
    · exact hupper ⟨fun ⟨hle, _⟩ => h (by simpa using hle), Nat.zero_le _⟩

end Sys2Proof.Machine
end

section
/-! PROOFS. The record in the engine's turn: the fetch of its tag (O5, O7, O8) and the retirement of its row (O26). -/

namespace Sys2Proof.Machine

/-! The fetch of a record (R120 to R122). -/

section Fetch

variable {s s' : State} (h : s.engineTurn = some s') (hb : s'.status.busy = true) (hs : s'.stage = .row)
include h hb hs

theorem step_fetch : step s = rowStage s' := (step_of_engineTurn h).trans (engineAction_row s' hb hs)

/-- A legal tag runs its instruction with the cursor past the tag. -/
theorem step_fetch_instr (hp : s'.pos.toNat < s'.L) {i : Instr}
    (hd : decode (.tag (s'.load .IN s'.pos.toNat)) = .instr i) : step s = onNext afterRow (exec i s'.advance) := by
  simp only [step_fetch h hb hs, rowStage, streamByte?_some s' hp, hd]

/-- An illegal tag is consumed and refused. -/
theorem step_fetch_illegal (hp : s'.pos.toNat < s'.L) (ht : 5 ≤ (s'.load .IN s'.pos.toNat).toNat) :
    step s = .next (invalidFilter (s'.load .IN s'.pos.toNat) s'.advance) := by
  simp only [step_fetch h hb hs, rowStage, streamByte?_some s' hp, decode_tag_illegal ht]

/-- A missing tag is a missing stream byte. -/
theorem step_fetch_missing (hp : s'.L ≤ s'.pos.toNat) : step s = .next (corruptFile s') := by
  simp only [step_fetch h hb hs, rowStage, streamByte?_none s' hp]

end Fetch

/-- Settles O5. -/
theorem stepRunsFetchedTag : Obligations.StepRunsFetchedTag := fun _ _ _ h hb hs hp hd _ =>
  step_fetch_instr h hb hs hp hd

/-- Settles O7: the report names the byte before the advanced cursor. -/
theorem illegalTagFaults : Obligations.IllegalTagFaults := by
  intro s s' h hb hs hp ht
  refine ⟨_, step_fetch_illegal h hb hs hp ht, rfl, ?_, ?_, advance_pos_toNat s' hp, rfl, rfl⟩
  · exact BitVec.add_sub_cancel s'.pos 1
  · exact BitVec.toNat_setWidth_of_le (by decide)

/-- Settles O8. -/
theorem missingTagFaults : Obligations.MissingTagFaults := fun _ _ h hb hs hp =>
  ⟨_, step_fetch_missing h hb hs hp, rfl, rfl, rfl, rfl, rfl, rfl⟩

/-- Settles O26. -/
theorem rowIsRetired : Obligations.RowIsRetired := by
  intro s s' h hb
  rw [step_of_engineTurn h]
  refine ⟨fun hs hc => ?_, fun hs => ⟨_, engineAction_retire s' hb hs, fun n hn => ?_, fun sp a ha => ?_,
    retireStage_row s', retireStage_last s'⟩⟩
  · rw [engineAction_scatter s' hb hs, scatterStage_end s' hc]
  · rw [load_retireStage, if_pos ⟨rfl, hn⟩]
  · rw [load_retireStage, if_neg ha]

end Sys2Proof.Machine
end

section
/-! PROOFS. Over a stream that the forward filter made from a raw image the passes reconstruct the image (O57), and after them
RASTER is the image (O58). What is reconstructed has three parts, each followed through the moves of a BUSY engine: the
current row, the previous row, and the scattered samples. -/

namespace Sys2Proof.Machine

/-! The pixels scattered, stage by stage (R165). -/

section Scattered

variable {s : State} {q r c : Nat}

theorem scattered_beginPass (h : s.stage = .beginPass) : s.Scattered q r c ↔ q < s.pass := by
  simp only [State.Scattered, h]

theorem scattered_row (h : s.stage = .row) : s.Scattered q r c ↔ q < s.pass ∨ (q = s.pass ∧ r < s.r) := by
  simp only [State.Scattered, h]

theorem scattered_scatter (h : s.stage = .scatter) :
    s.Scattered q r c ↔ q < s.pass ∨ (q = s.pass ∧ (r < s.r ∨ (r = s.r ∧ c < s.c))) := by
  simp only [State.Scattered, h]

theorem scattered_retire (h : s.stage = .retire) : s.Scattered q r c ↔ q < s.pass ∨ (q = s.pass ∧ r ≤ s.r) := by
  simp only [State.Scattered, h]

/-- After the passes every pixel is scattered. -/
theorem scattered_afterPasses (h : s.stage = .expand ∨ s.stage = .composite) : s.Scattered q r c := by
  rcases h with h | h <;> simp only [State.Scattered, h]

/-- A pixel of the pass the decode stands in lies within the pass's size. -/
theorem State.HasPixel.of_pass {g : PassGeometry} (hx : s.HasPixel s.pass g r c) :
    g = s.geometry ∧ r < s.subHeight ∧ c < s.subWidth := by
  obtain ⟨hq, hr, hc⟩ := hx
  obtain rfl : s.geometry = g := getD_of_getElem? hq
  exact ⟨rfl, hr, hc⟩

theorem State.HasPixel.lt_length {g : PassGeometry} (hx : s.HasPixel q g r c) : q < s.passes.length :=
  (List.getElem?_eq_some_iff.mp hx.1).1

end Scattered

section Moves

variable {s t : State} (h : EngineMove s t)
include h

/-- RASTER changes by the scatter of a pixel alone (R165). -/
theorem EngineMove.load_raster (hn : ¬(s.stage = .scatter ∧ s.c < s.subWidth)) (a : Nat) :
    t.load .RASTER a = s.load .RASTER a := by
  cases h with
  | rowShort i hs hp hi ht hl => exact unfilterBytes_frame _ _ _ .RASTER a (by simp)
  | row i v hs hi ht hl ho he hp hf => exact hf .RASTER a (by simp)
  | pixel hs hc => exact absurd ⟨hs, hc⟩ hn
  | nextRow hs hr => exact (load_copyBytes s _ _ _ _ (by decide) _ _ a).trans (if_neg (by simp))
  | passEnds hs hr => exact (load_copyBytes s _ _ _ _ (by decide) _ _ a).trans (if_neg (by simp))
  | expanded hs hv => exact (load_expandEntries s s.NP .RASTER a).trans (if_neg (by simp))
  | composited hs hk hi => exact load_compositePixel s s.k hi .RASTER a (by simp)
  | _ => rfl

variable (hs : s.stage ≠ .configure)
include hs

/-- Past step 3 no move changes what says where a sample goes (R165, R234). -/
theorem EngineMove.image_eq : t.W = s.W ∧ t.H = s.H ∧ t.passes = s.passes ∧ t.pb = s.pb ∧ t.L = s.L := by
  obtain ⟨hgeom, -⟩ := h.registers_eq
  refine ⟨?_, ?_, ?_, congrArg (fun g => g.pixelBytes.toNat) (hgeom hs), h.L_eq⟩ <;> rw [h.eq_with] <;> rfl

theorem EngineMove.hasPixel_iff (q : Nat) (g : PassGeometry) (r c : Nat) :
    t.HasPixel q g r c ↔ s.HasPixel q g r c := by
  obtain ⟨hW, hH, hpasses, -⟩ := h.image_eq hs
  simp only [State.HasPixel, hW, hH, hpasses]

/-- Every move keeps the stream encoded (R71, R74). -/
theorem EngineMove.encodedStream {raw : Nat → Nat → Nat → Byte} {filter : Nat → Nat → Instr}
    (he : s.EncodedStream raw filter) : t.EncodedStream raw filter := by
  obtain ⟨hW, hH, hpasses, hpb, hL⟩ := h.image_eq hs
  have hin (a : Nat) : t.load .IN a = s.load .IN a := h.load_eq (.inl rfl) a
  have hraw (g : PassGeometry) (r : Nat) : t.rawRow raw g r = s.rawRow raw g r :=
    funext fun n => by simp only [State.rawRow, hpb]
  have habove (g : PassGeometry) (r : Nat) : t.rawAbove raw g r = s.rawAbove raw g r :=
    funext fun n => by simp only [State.rawAbove, hraw]
  simp only [State.EncodedStream, State.recordStart, hW, hH, hpasses, hpb, hL, hin, hraw, habove]
  exact he

/-- The pixels scattered after a move were scattered before it, or the move scatters them (R165). -/
theorem EngineMove.scattered_cases {q r c : Nat} {g : PassGeometry} (hx : s.HasPixel q g r c)
    (ht : t.Scattered q r c) :
    s.Scattered q r c ∨ ((s.stage = .scatter ∧ s.c < s.subWidth) ∧ q = s.pass ∧ r = s.r ∧ c = s.c) := by
  have hpass : q = s.pass → r < s.subHeight ∧ c < s.subWidth := by
    rintro rfl
    exact hx.of_pass.2
  cases h with
  | checkFails n hc _ => exact absurd hc hs
  | checkPasses hc _ => exact absurd hc hs
  | emptyPass hs hp he =>
    refine .inl ((scattered_beginPass hs).mpr ?_)
    replace ht := (scattered_beginPass (by exact hs)).mp ht
    change q < s.pass + 1 at ht
    omega
  | passBegins hs hp hw hh =>
    refine .inl ((scattered_beginPass hs).mpr ?_)
    rcases ht with ht | ⟨-, ht⟩
    · exact ht
    · exact absurd ht (Nat.not_lt_zero r)
  | passesEnd hs hp => exact .inl ((scattered_beginPass hs).mpr (lt_of_lt_of_le hx.lt_length hp))
  | row i v hs hi hd hl ho he hp hf =>
    rw [he] at ht
    refine .inl ((scattered_row hs).mpr ?_)
    rcases ht with ht | ⟨hq, ht | ⟨-, ht⟩⟩
    · exact .inl ht
    · exact .inr ⟨hq, ht⟩
    · exact absurd ht (Nat.not_lt_zero c)
  | pixel hs hc =>
    rw [copyBytes_eq] at ht
    replace ht := (scattered_scatter (by exact hs)).mp ht
    change q < s.pass ∨ (q = s.pass ∧ (r < s.r ∨ (r = s.r ∧ c < s.c + 1))) at ht
    by_cases hnew : q = s.pass ∧ r = s.r ∧ c = s.c
    · exact .inr ⟨⟨hs, hc⟩, hnew⟩
    · refine .inl ((scattered_scatter hs).mpr ?_)
      omega
  | rowScattered hs hc =>
    refine .inl ((scattered_scatter hs).mpr ?_)
    change q < s.pass ∨ (q = s.pass ∧ r ≤ s.r) at ht
    omega
  | nextRow hs hr =>
    rw [copyBytes_eq] at ht
    refine .inl ((scattered_retire hs).mpr ?_)
    change q < s.pass ∨ (q = s.pass ∧ r < s.r + 1) at ht
    omega
  | passEnds hs hr =>
    rw [copyBytes_eq] at ht
    refine .inl ((scattered_retire hs).mpr ?_)
    change q < s.pass + 1 at ht
    omega
  | expanded hs hv => exact .inl (scattered_afterPasses (.inl hs))
  | expansionSkipped hs hv => exact .inl (scattered_afterPasses (.inl hs))
  | composited hs hk hi => exact .inl (scattered_afterPasses (.inr hs))
  | indexFault hs hk hi hx => exact .inl (scattered_afterPasses (.inr hs))
  | decodeEnds hs hk => exact .inl (scattered_afterPasses (.inr hs))
  | tagMissing hs hp => exact .inl ht
  | tagIllegal hs hp hl => exact .inl ht
  | rowShort i hs hp hi hd hl =>
    rw [corruptFile, unfilterBytes_eq] at ht
    exact .inl ht

end Moves

/-! The three parts of what is reconstructed. -/

/-- A scanline unfiltered and not yet retired stands in CUR. -/
def State.CurHolds (s : State) (raw : Nat → Nat → Nat → Byte) : Prop :=
  s.stage = .scatter ∨ s.stage = .retire → ∀ n, n < s.SL → s.load .CUR n = s.rawRow raw s.geometry s.r n

/-- Within a pass, below its first row, the row before stands in PREV. -/
def State.PrevHolds (s : State) (raw : Nat → Nat → Nat → Byte) : Prop :=
  s.stage = .row ∨ s.stage = .scatter ∨ s.stage = .retire → 0 < s.r →
    ∀ n, n < s.SL → s.load .PREV n = s.rawRow raw s.geometry (s.r - 1) n

/-- Every scattered sample stands at its place in RASTER. -/
def State.SamplesHold (s : State) (raw : Nat → Nat → Nat → Byte) : Prop :=
  ∀ q g r c j, s.HasPixel q g r c → s.Scattered q r c → j < s.pb →
    s.load .RASTER (s.pixelIndex g r c + j) = raw (g.x0 + c * g.dx) (g.y0 + r * g.dy) j

theorem reconstructs_iff {s : State} {raw : Nat → Nat → Nat → Byte} :
    s.Reconstructs raw ↔ s.CurHolds raw ∧ s.PrevHolds raw ∧ s.SamplesHold raw := Iff.rfl

/-! The record at the cursor (R90, R134). -/

/-- A tag in a stream is the encoding of its instruction. -/
theorem encode_of_tagOf {i : Instr} {t : Byte} (h : tagOf i = some t) : encode i = .tag t := by
  unfold tagOf at h
  split at h
  · simp_all
  · cases h

section Record

variable {s : State} {raw : Nat → Nat → Nat → Byte} {filter : Nat → Nat → Instr} {i : Instr}

/-- The bytes after the tag that the decode is about to fetch are the forward-filtered bytes of its row, under the
instruction that the tag decodes to. -/
theorem State.EncodedStream.record (he : s.EncodedStream raw filter) (hrun : s.Running) (hs : s.stage = .row)
    (hpos : s.pos.toNat = s.consumed) (hd : decode (.tag (s.load .IN s.pos.toNat)) = .instr i) (n : Nat)
    (hn : n < s.SL) :
    s.load .IN (s.pos.toNat + 1 + n) =
      forwardByte i s.pb (s.rawRow raw s.geometry s.r) (s.rawAbove raw s.geometry s.r) n := by
  obtain ⟨hpass, hw, hr⟩ := (placeOk_row hs).mp hrun.place
  obtain ⟨-, hrecord⟩ := he
  obtain ⟨-, htag, hbytes⟩ := hrecord s.pass s.geometry s.r (geometry_getElem? hpass) hr hw
  rw [consumed_row hs] at hpos
  have hi : filter s.pass s.r = i := by
    have hfilter := decode_encode (filter s.pass s.r)
    rw [encode_of_tagOf htag, ← hpos, hd] at hfilter
    cases hfilter
    rfl
  rw [hpos, ← hi]
  exact hbytes n hn

/-- The row that the fetch of a record leaves in CUR is the row of the raw image. -/
theorem load_fetchedRow (he : s.EncodedStream raw filter) (hrun : s.Running) (hs : s.stage = .row)
    (hpos : s.pos.toNat = s.consumed) (hprev : s.PrevHolds raw)
    (hd : decode (.tag (s.load .IN s.pos.toNat)) = .instr i) (hl : s.pos.toNat + 1 + s.SL ≤ s.L) (n : Nat)
    (hn : n < s.SL) :
    (unfilterRow (predictorOf i) s.advance).load .CUR n = s.rawRow raw s.geometry s.r n := by
  have hadv : s.advance.pos.toNat = s.pos.toNat + 1 := advance_pos_toNat s (by omega)
  refine load_unfilterRow_forward (above := s.rawAbove raw s.geometry s.r) (hadv ▸ hl) (fun m hm => ?_)
    (fun m hm => hadv ▸ he.record hrun hs hpos hd m hm) n hn
  show (if 0 < s.r then s.load .PREV m else 0) = if 0 < s.r then s.rawRow raw s.geometry (s.r - 1) m else 0
  split_ifs with h0
  · exact hprev (.inl hs) h0 m hm
  · rfl

/-- Byte `j` of pixel `c` of a row is sample `j` of the image's pixel (R63, R166). -/
theorem rawRow_pixel (g : PassGeometry) (r c : Nat) {j : Nat} (hj : j < s.pb) :
    s.rawRow raw g r (c * s.pb + j) = raw (g.x0 + c * g.dx) (g.y0 + r * g.dy) j := by
  rw [State.rawRow, Nat.mul_add_mod_of_lt hj, Nat.mul_comm c, Nat.mul_add_div (by omega),
    Nat.div_eq_of_lt hj, Nat.add_zero]

end Record

/-- A pixel of the pass stands in the scanline. -/
theorem pixelByte_lt {s : State} {c j : Nat} (hc : c < s.subWidth) (hj : j < s.pb) : c * s.pb + j < s.SL :=
  calc c * s.pb + j < c * s.pb + s.pb := Nat.add_lt_add_left hj _
    _ = s.pb * (c + 1) := by rw [Nat.mul_comm c, Nat.mul_succ]
    _ ≤ s.SL := Nat.mul_le_mul_left _ hc

/-- The scatter of a pixel copies it from CUR (R165). -/
theorem load_scatter (s : State) (a : Nat) :
    (s.copyBytes .CUR .RASTER (s.c * s.pb) s.scatterIndex s.pb).load .RASTER a =
      if s.scatterIndex ≤ a ∧ a < s.scatterIndex + s.pb then s.load .CUR (s.c * s.pb + (a - s.scatterIndex))
      else s.load .RASTER a := by
  rw [load_copyBytes s _ _ _ _ (by decide)]
  simp only [true_and]

section Sample

variable {s : State} {raw : Nat → Nat → Nat → Byte} {q r c j : Nat} {g : PassGeometry}

/-- A pixel of a pass lies inside the image (R166). -/
theorem State.HasPixel.column_lt (hx : s.HasPixel q g r c) : g.x0 + c * g.dx < s.W := by
  obtain ⟨hq, -, hc⟩ := hx
  obtain ⟨hdx, -⟩ := passList_stride_pos (List.mem_of_getElem? hq)
  exact (lt_subDim_iff hdx).mp hc

/-- After the scatter of a pixel every sample of it, and every sample that stood at its place before, stands at its place:
two samples at one place are one sample of the image. -/
theorem load_scatter_sample (hcur : s.CurHolds raw) (hs : s.stage = .scatter) (hc : s.c < s.subWidth)
    (hnow : s.HasPixel s.pass s.geometry s.r s.c) (hx : s.HasPixel q g r c) (hj : j < s.pb)
    (hold : (q = s.pass ∧ r = s.r ∧ c = s.c) ∨
      s.load .RASTER (s.pixelIndex g r c + j) = raw (g.x0 + c * g.dx) (g.y0 + r * g.dy) j) :
    (s.copyBytes .CUR .RASTER (s.c * s.pb) s.scatterIndex s.pb).load .RASTER (s.pixelIndex g r c + j) =
      raw (g.x0 + c * g.dx) (g.y0 + r * g.dy) j := by
  rw [load_scatter]
  split_ifs with hin
  · obtain ⟨j', hj'⟩ := Nat.exists_eq_add_of_le hin.1
    have hlt : j' < s.pb := by omega
    obtain ⟨hX, hY, rfl⟩ := sample_inj hx.column_lt hnow.column_lt hj hlt hj'
    rw [hj', Nat.add_sub_cancel_left, hcur (.inl hs) _ (pixelByte_lt hc hlt), rawRow_pixel _ _ _ hlt, hX, hY]
    rfl
  · rcases hold with ⟨rfl, rfl, rfl⟩ | hold
    · obtain ⟨rfl, -⟩ := hx.of_pass
      exact absurd ⟨Nat.le_add_right _ _, Nat.add_lt_add_left hj _⟩ hin
    · exact hold

end Sample

/-! The moves. -/

/-- The moves that lead to a row of a pass, by what they do to the line buffers: the pass begins, the record of the row is
fetched, the row is scattered, or the row before is retired (R120, R132, R165). -/
inductive RowMove (s t : State) : Prop
  | begins (ht : t.stage = .row) (hr : t.r = 0)
  | fetched (i : Instr) (hs : s.stage = .row) (hp : t.pass = s.pass) (hr : t.r = s.r)
      (hd : decode (.tag (s.load .IN s.pos.toNat)) = .instr i) (hl : s.pos.toNat + 1 + s.SL ≤ s.L)
      (hcur : ∀ n, t.load .CUR n = (unfilterRow (predictorOf i) s.advance).load .CUR n)
      (hprev : ∀ n, t.load .PREV n = s.load .PREV n)
  | scatters (hs : s.stage = .scatter) (hp : t.pass = s.pass) (hr : t.r = s.r)
      (hcur : ∀ n, t.load .CUR n = s.load .CUR n) (hprev : ∀ n, t.load .PREV n = s.load .PREV n)
  | retired (hs : s.stage = .retire) (ht : t.stage = .row) (hp : t.pass = s.pass) (hr : t.r = s.r + 1)
      (hprev : ∀ n, n < s.SL → t.load .PREV n = s.load .CUR n)

/-- A move of a BUSY engine that leads to a row of a pass is one of those. -/
theorem EngineMove.rowMove {s t : State} (h : EngineMove s t) (hb : t.status.busy = true)
    (ht : t.stage = .row ∨ t.stage = .scatter ∨ t.stage = .retire) : RowMove s t := by
  cases h with
  | passBegins hs hp hw hh => exact .begins rfl rfl
  | row i v hs hi hd hl ho hv hp hf =>
    exact .fetched i hs (by rw [hv]) (by rw [hv]) hd hl (fun n => by rw [ho]; rfl) fun n => hf .PREV n (by simp)
  | pixel hs hc =>
    have hload (sp : Space) (hsp : sp ≠ .RASTER) (n : Nat) :
        (s.copyBytes .CUR .RASTER (s.c * s.pb) s.scatterIndex s.pb).load sp n = s.load sp n :=
      (load_copyBytes s _ _ _ _ (by decide) _ sp n).trans (if_neg fun hc => hsp hc.1)
    exact .scatters hs (by rw [copyBytes_eq]) (by rw [copyBytes_eq]) (hload .CUR (by decide)) (hload .PREV (by decide))
  | rowScattered hs hc => exact .scatters hs rfl rfl (fun _ => rfl) fun _ => rfl
  | nextRow hs hr =>
    have hload (n : Nat) (hn : n < s.SL) : (s.copyBytes .CUR .PREV 0 0 s.SL).load .PREV n = s.load .CUR n := by
      rw [load_copyBytes s _ _ _ _ (by decide), if_pos ⟨rfl, Nat.zero_le n, by omega⟩, Nat.zero_add, Nat.sub_zero]
    exact .retired hs rfl (by rw [copyBytes_eq]) rfl hload
  | passesEnd hs hp => rcases hi : s.geom.indexed <;> simp [hi] at ht
  | composited hs hk hi =>
    rw [compositePixel_eq s s.k hi] at ht
    simp_all
  | tagMissing hs hp => cases hb
  | tagIllegal hs hp hl => cases hb
  | rowShort i hs hp hi hd hl => cases hb
  | _ => simp_all

section Moves

variable {s t : State} {raw : Nat → Nat → Nat → Byte} (h : EngineMove s t) (hs : s.stage ≠ .configure)
include h hs

/-- Within a pass the scanlines stay the same. -/
theorem EngineMove.scanline_eq (hp : t.pass = s.pass) :
    t.geometry = s.geometry ∧ t.SL = s.SL ∧ ∀ g r n, t.rawRow raw g r n = s.rawRow raw g r n := by
  obtain ⟨hW, -, hpasses, hpb, -⟩ := h.image_eq hs
  have hg : t.geometry = s.geometry := by simp only [State.geometry, hpasses, hp]
  exact ⟨hg, by simp only [State.SL, State.subWidth, hg, hW, hpb], fun g r n => by simp only [State.rawRow, hpb]⟩

/-- Every sample that a move scatters, or that was scattered before, stands at its place in RASTER (R165, R170). -/
theorem EngineMove.samplesHold (hrun : s.Running) (hcur : s.CurHolds raw) (hsamples : s.SamplesHold raw) :
    t.SamplesHold raw := by
  intro q g r c j hx ht hj
  obtain ⟨hW, -, -, hpb, -⟩ := h.image_eq hs
  rw [h.hasPixel_iff hs] at hx
  rw [hpb] at hj
  simp only [State.pixelIndex, hW, hpb]
  have hcase := h.scattered_cases hs hx ht
  by_cases hn : s.stage = .scatter ∧ s.c < s.subWidth
  · cases h with
    | pixel hs hc =>
      obtain ⟨hpass, -, hr, -⟩ := (placeOk_scatter hs).mp hrun.place
      exact load_scatter_sample hcur hs hc ⟨geometry_getElem? hpass, hr, hc⟩ hx hj
        (hcase.symm.imp And.right fun hsc => hsamples q g r c j hx hsc hj)
    | rowScattered _ hc => exact absurd hn.2 (Nat.not_lt.mpr hc)
    | _ => simp_all
  · rw [h.load_raster hn]
    exact hsamples q g r c j hx (hcase.resolve_right fun hc => hn hc.1) hj

variable (hb : t.status.busy = true)
include hb

/-- The fetch of a record puts its row in CUR, and the scatter leaves it there. -/
theorem EngineMove.curHolds {filter : Nat → Nat → Instr} (hrun : s.Running) (hpos : s.pos.toNat = s.consumed)
    (he : s.EncodedStream raw filter) (hcur : s.CurHolds raw) (hprev : s.PrevHolds raw) : t.CurHolds raw := by
  intro ht n hn
  have hrow : t.stage ≠ .row := by rcases ht with ht | ht <;> simp [ht]
  cases h.rowMove hb (.inr ht) with
  | begins ht' _ => exact absurd ht' hrow
  | retired _ ht' _ _ _ => exact absurd ht' hrow
  | fetched i hs' hp hr hd hl hload _ =>
    obtain ⟨hg, hSL, hraw⟩ := h.scanline_eq (raw := raw) hs hp
    rw [hload, hraw, hg, hr]
    exact load_fetchedRow he hrun hs' hpos hprev hd hl n (hSL ▸ hn)
  | scatters hs' hp hr hload _ =>
    obtain ⟨hg, hSL, hraw⟩ := h.scanline_eq (raw := raw) hs hp
    rw [hload, hraw, hg, hr]
    exact hcur (.inl hs') n (hSL ▸ hn)

/-- Retirement puts the row in PREV, and no other move within the pass writes it. -/
theorem EngineMove.prevHolds (hcur : s.CurHolds raw) (hprev : s.PrevHolds raw) : t.PrevHolds raw := by
  intro ht h0 n hn
  cases h.rowMove hb ht with
  | begins _ hr => omega
  | fetched i hs' hp hr _ _ _ hload =>
    obtain ⟨hg, hSL, hraw⟩ := h.scanline_eq (raw := raw) hs hp
    rw [hload, hraw, hg, hr]
    exact hprev (.inl hs') (hr ▸ h0) n (hSL ▸ hn)
  | scatters hs' hp hr _ hload =>
    obtain ⟨hg, hSL, hraw⟩ := h.scanline_eq (raw := raw) hs hp
    rw [hload, hraw, hg, hr]
    exact hprev (.inr (.inl hs')) (hr ▸ h0) n (hSL ▸ hn)
  | retired hs' _ hp hr hload =>
    obtain ⟨hg, hSL, hraw⟩ := h.scanline_eq (raw := raw) hs hp
    rw [hload n (hSL ▸ hn), hraw, hg, hr, Nat.add_sub_cancel]
    exact hcur (.inr hs') n (hSL ▸ hn)

end Moves

/-- Settles O57, by the moves of a step while BUSY: a host access leaves the decode alone (R241). -/
theorem passesReconstructTheImage : Obligations.PassesReconstructTheImage := by
  intro s t raw filter hi hc hb hs hreset he hrec hstep ht
  cases step_cases hstep with
  | idle rest hidle => exact absurd (hb.symm.trans hidle) (by decide)
  | access rest t hidle ha => exact absurd (hb.symm.trans hidle) (by decide)
  | busyAccess rest e w b d _ => exact ⟨he, hrec⟩
  | engine rest t _ hm =>
    obtain ⟨hcur, hprev, hsamples⟩ := reconstructs_iff.mp hrec
    have hrun := (hi.with_schedule rest).running hb hs
    exact ⟨hm.encodedStream hs he, hm.curHolds hs ht hrun (hc hb hs) he hcur hprev, hm.prevHolds hs ht hcur hprev,
      hm.samplesHold hs hrun hcur hsamples⟩
  | reset rest hrest => exact absurd hrest (hreset rest)

/-! The passes cover the image (R168). -/

/-- Every pixel of an image belongs to a pass of its list. For Adam7 the pass is read from the last bits of the
coordinates: odd rows, then odd columns, and so on to multiples of 8. -/
theorem passList_covers (il : Byte) (x y : Nat) :
    ∃ (q : Nat) (g : PassGeometry) (r c : Nat),
      (passList il)[q]? = some g ∧ g.x0 + c * g.dx = x ∧ g.y0 + r * g.dy = y := by
  by_cases hil : il = 1
  · have hlist : passList il = adam7 := if_pos hil
    rw [hlist]
    by_cases h6 : y % 2 = 1
    · refine ⟨6, ⟨0, 1, 1, 2⟩, y / 2, x, rfl, ?_, ?_⟩ <;> dsimp only <;> omega
    by_cases h5 : x % 2 = 1
    · refine ⟨5, ⟨1, 0, 2, 2⟩, y / 2, x / 2, rfl, ?_, ?_⟩ <;> dsimp only <;> omega
    by_cases h4 : y % 4 = 2
    · refine ⟨4, ⟨0, 2, 2, 4⟩, y / 4, x / 2, rfl, ?_, ?_⟩ <;> dsimp only <;> omega
    by_cases h3 : x % 4 = 2
    · refine ⟨3, ⟨2, 0, 4, 4⟩, y / 4, x / 4, rfl, ?_, ?_⟩ <;> dsimp only <;> omega
    by_cases h2 : y % 8 = 4
    · refine ⟨2, ⟨0, 4, 4, 8⟩, y / 8, x / 4, rfl, ?_, ?_⟩ <;> dsimp only <;> omega
    by_cases h1 : x % 8 = 4
    · refine ⟨1, ⟨4, 0, 8, 8⟩, y / 8, x / 8, rfl, ?_, ?_⟩ <;> dsimp only <;> omega
    · refine ⟨0, ⟨0, 0, 8, 8⟩, y / 8, x / 8, rfl, ?_, ?_⟩ <;> dsimp only <;> omega
  · have hlist : passList il = [singlePass] := if_neg hil
    rw [hlist]
    exact ⟨0, singlePass, y, x, rfl, (Nat.zero_add _).trans (Nat.mul_one x), (Nat.zero_add _).trans (Nat.mul_one y)⟩

/-- Settles O58: a pixel of the image is a pixel of some pass, and after the passes it has been scattered. -/
theorem rasterIsTheImage : Obligations.RasterIsTheImage := by
  intro s raw _ _ hs hrec x y j hx hy hj
  obtain ⟨-, -, hsamples⟩ := reconstructs_iff.mp hrec
  obtain ⟨q, g, r, c, hq, rfl, rfl⟩ := passList_covers s.format.interlace x y
  obtain ⟨hdx, hdy⟩ := passList_stride_pos (List.mem_of_getElem? hq)
  exact hsamples q g r c j ⟨hq, (lt_subDim_iff hdy).mpr hy, (lt_subDim_iff hdx).mpr hx⟩ (scattered_afterPasses hs) hj

end Sys2Proof.Machine
end

section
/-! PROOFS. The passes: their size (O20), the coordinates of their pixels (O21), the tile of the Adam7 passes (O22), and
the engine's turn at the beginning of a pass (O23, O24) and at the scatter of a pixel (O25). -/

namespace Sys2Proof.Machine

/-! The size of a pass (R162, R163). -/

/-- Settles O20: the size of a pass is the first index past it, so it lies past the image, and the index before it
inside. -/
theorem subDimIsTheCeiling : Obligations.SubDimIsTheCeiling := by
  refine ⟨fun _ => ⟨rfl, rfl⟩, fun n o d hle => if_pos hle, fun n o d hd hlt => ?_⟩
  have hpos : 0 < subDim n o d := (lt_subDim_iff hd).mpr (by simpa using hlt)
  have hlast : o + (subDim n o d - 1) * d < n := (lt_subDim_iff hd).mp (Nat.sub_lt hpos Nat.one_pos)
  have hpast : ¬o + subDim n o d * d < n := fun h => lt_irrefl _ ((lt_subDim_iff hd).mpr h)
  exact ⟨by omega, by omega, hpos⟩

/-! The coordinate mapper (R166). -/

/-- Settles O21. -/
theorem mapStaysInsideTheImage : Obligations.MapStaysInsideTheImage := by
  constructor
  · intro il g w h r c hg hr hc
    obtain ⟨hdx, hdy⟩ := passList_stride_pos hg
    have hx : (g.map r c).1 < w := (lt_subDim_iff hdx).mp hc
    have hy : (g.map r c).2 < h := (lt_subDim_iff hdy).mp hr
    exact ⟨rfl, hx, hy, fun pb j hj => sample_lt hx hy hj⟩
  · intro r c
    simp only [PassGeometry.map, singlePass, Nat.zero_add, Nat.mul_one]

/-! The tile of the Adam7 passes (R168). -/

/-- The entry of the tile for a pixel. -/
def tilePass (x y : Nat) : Option Nat := tileMap[y % 8]?.bind (fun row => row[x % 8]?)

/-- Every entry of the tile is the number of one of the seven passes. -/
theorem tile_names_pass : ∀ a, a < 8 → ∀ b, b < 8 →
    ∃ q : Fin adam7.length, tileMap[b]?.bind (fun row => row[a]?) = some (q.val + 1) := by
  decide

theorem exists_tilePass_eq (x y : Nat) : ∃ q g, adam7[q]? = some g ∧ tilePass x y = some (q + 1) := by
  obtain ⟨q, hq⟩ := tile_names_pass (x % 8) (Nat.mod_lt _ (by decide)) (y % 8) (Nat.mod_lt _ (by decide))
  exact ⟨q, adam7[q], List.getElem?_eq_getElem q.isLt, hq⟩

/-- The strides of an Adam7 pass divide the tile, and its first pixel lies before the first stride. -/
theorem adam7_strides {g : PassGeometry} (hg : g ∈ adam7) : g.dx ∣ 8 ∧ g.dy ∣ 8 ∧ g.x0 < g.dx ∧ g.y0 < g.dy := by
  revert g
  decide

/-- Within the tile, a pass covers the columns and the rows that its offsets leave modulo its strides. -/
theorem tile_eq_iff : ∀ q : Fin adam7.length, ∀ a, a < 8 → ∀ b, b < 8 →
    (tileMap[b]?.bind (fun row => row[a]?) = some (q.val + 1) ↔
      a % adam7[q].dx = adam7[q].x0 ∧ b % adam7[q].dy = adam7[q].y0) := by
  decide

/-- The tile names a pass exactly at the columns and rows that the pass covers. -/
theorem tilePass_eq_iff {q : Nat} {g : PassGeometry} (hq : adam7[q]? = some g) (x y : Nat) :
    tilePass x y = some (q + 1) ↔ x % g.dx = g.x0 ∧ y % g.dy = g.y0 := by
  obtain ⟨hdx, hdy, -⟩ := adam7_strides (List.mem_of_getElem? hq)
  obtain ⟨hlen, rfl⟩ := List.getElem?_eq_some_iff.mp hq
  rw [← Nat.mod_mod_of_dvd x hdx, ← Nat.mod_mod_of_dvd y hdy]
  exact tile_eq_iff ⟨q, hlen⟩ (x % 8) (Nat.mod_lt _ (by decide)) (y % 8) (Nat.mod_lt _ (by decide))

/-- A number is an offset below the stride and a multiple of the stride in one way. -/
theorem add_mul_eq_iff {o d c x : Nat} (ho : o < d) : o + c * d = x ↔ x % d = o ∧ c = x / d := by
  rw [Nat.mul_comm, eq_comm (a := c), and_comm, Nat.div_mod_unique (by omega), and_iff_left ho]

/-- A pass has a pixel at the coordinates that the tile gives it, and it is one pixel. -/
theorem adam7_map_eq_iff {q r c x y : Nat} {g : PassGeometry} (hq : adam7[q]? = some g) :
    g.map r c = (x, y) ↔ tilePass x y = some (q + 1) ∧ c = x / g.dx ∧ r = y / g.dy := by
  obtain ⟨-, -, hx0, hy0⟩ := adam7_strides (List.mem_of_getElem? hq)
  rw [tilePass_eq_iff hq, PassGeometry.map, Prod.mk.injEq, add_mul_eq_iff hx0, add_mul_eq_iff hy0]
  tauto

/-- Settles O22: the tile names the pass, and the coordinates then give the row and the column. -/
theorem adam7Partition : Obligations.Adam7Partition := by
  intro w h x y hx hy
  constructor
  · obtain ⟨q, g, hq, htile⟩ := exists_tilePass_eq x y
    have hmap := (adam7_map_eq_iff hq).mpr ⟨htile, rfl, rfl⟩
    obtain ⟨hdx, hdy⟩ := passList_stride_pos (il := 1) (List.mem_of_getElem? hq)
    obtain ⟨hcol, hrow⟩ := Prod.mk.inj hmap
    exact ⟨q, _, _, g, hq, (lt_subDim_iff hdy).mpr (hrow.trans_lt hy), (lt_subDim_iff hdx).mpr (hcol.trans_lt hx),
      hmap, htile⟩
  · intro q r c g q' r' c' g' hq hq' hmap hmap'
    obtain ⟨htile, rfl, rfl⟩ := (adam7_map_eq_iff hq).mp hmap
    obtain ⟨htile', rfl, rfl⟩ := (adam7_map_eq_iff hq').mp hmap'
    obtain rfl : q = q' := by simpa using htile.symm.trans htile'
    obtain rfl : g = g' := by simpa using hq.symm.trans hq'
    exact ⟨rfl, rfl, rfl⟩

/-! The engine's turn within the passes (R164, R165). -/

section EngineTurn

variable {s s' : State} (h : s.engineTurn = some s') (hb : s'.status.busy = true)
include h hb

theorem step_beginPass (hs : s'.stage = .beginPass) : step s = .next (beginPass s') :=
  (step_of_engineTurn h).trans (engineAction_beginPass s' hb hs)

theorem step_scatter (hs : s'.stage = .scatter) : step s = .next (scatterStage s') :=
  (step_of_engineTurn h).trans (engineAction_scatter s' hb hs)

end EngineTurn

/-- Settles O23. -/
theorem emptyPassIsSkipped : Obligations.EmptyPassIsSkipped := by
  intro s s' h hb hs hp he
  rw [step_beginPass h hb hs, beginPass_empty s' hp he]

/-- Settles O24. -/
theorem passesRunInOrder : Obligations.PassesRunInOrder := by
  refine ⟨⟨rfl, rfl⟩, fun s s' h hb hs => ⟨fun hp hw hh => ?_, fun hp => ?_⟩⟩
  · rw [step_beginPass h hb hs, beginPass_row s' hp hw hh]
  · rw [step_beginPass h hb hs, beginPass_end s' hp]

/-- Settles O25: the index of the statement is `scatterIndex` written out. -/
theorem scatterPlacesPixel : Obligations.ScatterPlacesPixel := by
  intro s s' h hb hs hc
  refine ⟨_, step_scatter h hb hs, scatterStage_pixel s' hc, fun j hj => ?_, fun sp a ha => ?_⟩
  · change (scatterStage s').load .RASTER (s'.scatterIndex + j) = _
    rw [load_scatterStage s' hc, if_pos ⟨rfl, by omega, by omega⟩, Nat.add_sub_cancel_left]
  · rw [load_scatterStage s' hc]
    exact if_neg ha

end Sys2Proof.Machine
end

section
/-! PROOFS. What a decode has written: every scattered sample and every composited output byte (O55), and so the whole
of RASTER once the passes are over (O56); and that a decode that ends in DONE has consumed the records of all passes
(O54). -/

namespace Sys2Proof.Machine

/-! No operation of the engine takes a written byte back. -/

section Written

variable {s : State} {sp : Space} {a : Nat} (hw : s.written sp a)
include hw

theorem State.written.store (sp' : Space) (b : Nat) (v : Byte) : (s.store sp' b v).written sp a :=
  (written_store s sp' sp b a v).mpr (.inr hw)

theorem State.written.copyBytes (src dst : Space) (b d n : Nat) : (s.copyBytes src dst b d n).written sp a :=
  (written_copyBytes s src dst b d n sp a).mpr (.inr hw)

theorem State.written.unfilterBytes (pred : Byte → Byte → Byte → Byte) (n : Nat) :
    (unfilterBytes pred n s).written sp a := by
  induction n generalizing s with
  | zero => exact hw
  | succ n ih =>
    rcases Nat.lt_or_ge s.pos.toNat s.L with hp | hp
    · rw [unfilterBytes_succ pred n hp]
      exact ih (State.written.store (s := s.advance) hw .CUR s.i _)
    · rw [unfilterBytes_end pred n hp]
      exact hw

theorem State.written.expandEntries (n : Nat) : (expandEntries n s).written sp a := by
  induction n with
  | zero => exact hw
  | succ n ih => exact (ih.copyBytes .PLTE .RGBA (3 * n) (4 * n) 3).store _ _ _

end Written

/-- A composited pixel writes its four bytes of OUT, in each of the three modes (R212 to R214). -/
theorem written_compositePixel {s : State} {k : Nat} (hi : s.geom.indexed = true → (s.load .RASTER k).toNat < s.NP)
    (sp : Space) (a : Nat) :
    (compositePixel k s).written sp a ↔ (sp = .OUT ∧ 4 * k ≤ a ∧ a < 4 * k + 4) ∨ s.written sp a := by
  unfold compositePixel
  split_ifs with hx
  · rw [compositeIndexed_ok s k (hi hx), written_copyBytes]
  · simp only [compositeGray, written_store]
    grind
  · simp only [compositeTrue, written_store, written_copyBytes]
    grind

/-! The two parts of what is written. -/

/-- Every sample that the decode has scattered is written (R168). -/
def State.SamplesWritten (s : State) : Prop :=
  ∀ q g r c j, s.HasPixel q g r c → s.Scattered q r c → j < s.pb → s.written .RASTER (s.pixelIndex g r c + j)

/-- While a decode composites, every output byte of the pixels before `k` is written (R211). -/
def State.OutputWritten (s : State) : Prop := s.stage = .composite → ∀ a, a < 4 * s.k → s.written .OUT a

theorem resultsWritten_iff {s : State} :
    s.ResultsWritten ↔
      (s.status.busy = true → s.stage ≠ .configure → s.SamplesWritten ∧ s.OutputWritten) := Iff.rfl

/-! The moves. -/

section Moves

variable {s t : State} (h : EngineMove s t)
include h

/-- Every byte written before a move is written after it. -/
theorem EngineMove.written {sp : Space} {a : Nat} (hw : s.written sp a) : t.written sp a := by
  cases h with
  | rowShort i _ _ _ _ _ => exact State.written.unfilterBytes (s := { s.advance with i := 0 }) hw _ _
  | row i v _ _ _ _ ho _ _ _ =>
    subst ho
    exact State.written.unfilterBytes (s := { s.advance with i := 0 }) hw _ _
  | pixel _ _ => exact hw.copyBytes _ _ _ _ _
  | nextRow _ _ => exact hw.copyBytes _ _ _ _ _
  | passEnds _ _ => exact hw.copyBytes _ _ _ _ _
  | expanded _ _ => exact hw.expandEntries _
  | composited _ _ hi => exact (written_compositePixel hi sp a).mpr (.inr hw)
  | _ => exact hw

/-- A move that raises DONE is the end of the composite loop (R236, step 6). -/
theorem EngineMove.finishes_of_done (hd : s.status.done = false) (ht : t.status.done = true) :
    s.stage = .composite ∧ t = s.finish := by
  have hne : t.status.done ≠ s.status.done := by rw [ht, hd]; decide
  cases h with
  | decodeEnds hs _ => exact ⟨hs, rfl⟩
  | rowShort i _ _ _ _ _ => exact absurd (unfilterBytes_flags _ _ _).1 hne
  | row i v _ _ _ _ _ he _ _ => exact absurd (by rw [he]) hne
  | pixel _ _ => exact absurd (by rw [copyBytes_eq]) hne
  | nextRow _ _ => exact absurd (by rw [copyBytes_eq]) hne
  | passEnds _ _ => exact absurd (by rw [copyBytes_eq]) hne
  | expanded _ _ => exact absurd (by rw [expandEntries_eq]) hne
  | composited _ _ hi => exact absurd (by rw [compositePixel_eq s s.k hi]) hne
  | _ => exact absurd rfl hne

/-- Before the passes no sample is scattered. -/
theorem EngineMove.samplesWritten_of_configure (hs : s.stage = .configure) (hb : t.status.busy = true) :
    t.SamplesWritten := by
  cases h with
  | checkPasses _ _ => exact fun q _ _ _ _ _ hsc _ => absurd hsc (Nat.not_lt_zero q)
  | checkFails _ _ _ => cases hb
  | _ => simp_all

/-- The samples that a move scatters are written, and those scattered before stay so (R165). -/
theorem EngineMove.samplesWritten (hs : s.stage ≠ .configure) (hsamples : s.SamplesWritten) : t.SamplesWritten := by
  intro q g r c j hx hsc hj
  obtain ⟨hW, -, -, hpb, -⟩ := h.image_eq hs
  rw [h.hasPixel_iff hs] at hx
  rw [hpb] at hj
  simp only [State.pixelIndex, hW, hpb]
  rcases h.scattered_cases hs hx hsc with hold | ⟨⟨hscatter, hc⟩, rfl, rfl, rfl⟩
  · exact h.written (hsamples q g r c j hx hold hj)
  · obtain ⟨rfl, -⟩ := hx.of_pass
    cases h with
    | pixel _ _ =>
      exact (written_copyBytes s _ _ _ _ _ _ _).mpr (.inl ⟨rfl, Nat.le_add_right _ _, Nat.add_lt_add_left hj _⟩)
    | rowScattered _ hend => exact absurd hc (Nat.not_lt.mpr hend)
    | _ => simp_all

/-- The output bytes of the pixel that a move composites are written, and those composited before stay so; the loop
begins with pixel 0 (R211). -/
theorem EngineMove.outputWritten (hrun : s.stage ≠ .configure → s.Running) (hout : s.OutputWritten)
    (hb : t.status.busy = true) : t.OutputWritten := by
  intro ht a ha
  have hnone (hk : t.k = 0) : t.written .OUT a := by omega
  cases h with
  | passesEnd _ _ => exact hnone rfl
  | expanded hs _ =>
    obtain ⟨-, hk⟩ := (placeOk_expand hs).mp (hrun (by simp [hs])).place
    rw [expandEntries_eq] at hnone
    exact hnone hk
  | expansionSkipped hs _ =>
    obtain ⟨-, hk⟩ := (placeOk_expand hs).mp (hrun (by simp [hs])).place
    exact hnone hk
  | composited hs _ hi =>
    change a < 4 * (s.k + 1) at ha
    refine (written_compositePixel hi .OUT a).mpr ?_
    rcases Nat.lt_or_ge a (4 * s.k) with hlt | hge
    · exact .inr (hout hs a hlt)
    · exact .inl ⟨rfl, hge, by omega⟩
  | pixel hs _ =>
    rw [copyBytes_eq] at ht
    exact absurd (hs.symm.trans ht) (by decide)
  | row _ _ _ _ _ _ _ _ _ _ => cases ht
  | tagMissing _ _ => cases hb
  | tagIllegal _ _ _ => cases hb
  | rowShort _ _ _ _ _ _ => cases hb
  | indexFault _ _ _ _ => cases hb
  | decodeEnds _ _ => cases hb
  | _ => simp_all

/-- A move of a BUSY engine keeps the results written. -/
theorem EngineMove.resultsWritten (hrun : s.stage ≠ .configure → s.Running) (hbusy : s.status.busy = true)
    (hres : s.ResultsWritten) : t.ResultsWritten := by
  refine resultsWritten_iff.mpr fun hb _ => ?_
  by_cases hs : s.stage = .configure
  · have hout : s.OutputWritten := fun hc => absurd (hs.symm.trans hc) (by decide)
    exact ⟨h.samplesWritten_of_configure hs hb, h.outputWritten hrun hout hb⟩
  · obtain ⟨hsamples, hout⟩ := resultsWritten_iff.mp hres hbusy hs
    exact ⟨h.samplesWritten hs hsamples, h.outputWritten hrun hout hb⟩

end Moves

/-- Settles O55, by the moves of a step: a host access while BUSY leaves the decode alone, and while IDLE none leads
past the beginning of one. -/
theorem resultsAreWritten : Obligations.ResultsAreWritten := by
  intro s t hi hres hstep
  cases step_cases hstep with
  | idle rest hidle => exact fun hb => absurd (hidle.symm.trans hb) Bool.false_ne_true
  | access rest t hidle ha => exact fun hb hs => absurd (ha.stage_of_busy hidle hb) hs
  | busyAccess rest e w b d _ => exact hres
  | engine rest t hbusy hm => exact hm.resultsWritten ((hi.with_schedule rest).running hbusy) hbusy hres
  | reset rest hrest => exact fun hb => absurd hb Bool.false_ne_true

/-! The image is covered (R168). -/

/-- Every index below the size of the image is a sample of one of its pixels (R63). -/
theorem exists_sample_eq {w h pb a : Nat} (ha : a < w * h * pb) :
    ∃ x y j, x < w ∧ y < h ∧ j < pb ∧ a = (y * w + x) * pb + j := by
  have hpb : 0 < pb := Nat.pos_of_ne_zero (by rintro rfl; simp at ha)
  have hw : 0 < w := Nat.pos_of_ne_zero (by rintro rfl; simp at ha)
  have hpixel : a / pb < w * h := Nat.div_lt_of_lt_mul (by rwa [Nat.mul_comm])
  refine ⟨a / pb % w, a / pb / w, a % pb, Nat.mod_lt _ hw, Nat.div_lt_of_lt_mul hpixel, Nat.mod_lt _ hpb, ?_⟩
  rw [Nat.div_add_mod', Nat.div_add_mod']

/-- Every pixel of the image is a pixel of a pass. -/
theorem exists_hasPixel (s : State) {x y : Nat} (hx : x < s.W) (hy : y < s.H) :
    ∃ q g r c, s.HasPixel q g r c ∧ g.x0 + c * g.dx = x ∧ g.y0 + r * g.dy = y := by
  obtain ⟨q, g, r, c, hq, rfl, rfl⟩ := passList_covers s.format.interlace x y
  obtain ⟨hdx, hdy⟩ := passList_stride_pos (List.mem_of_getElem? hq)
  exact ⟨q, g, r, c, ⟨hq, (lt_subDim_iff hdy).mpr hy, (lt_subDim_iff hdx).mpr hx⟩, rfl, rfl⟩

/-- Settles O56: an index of RASTER is a sample of a pixel of some pass, and after the passes it has been scattered. -/
theorem rasterCompleteBeforeCompositing : Obligations.RasterCompleteBeforeCompositing := by
  intro s _ hres hb hs a ha
  obtain ⟨hsamples, -⟩ := resultsWritten_iff.mp hres hb (by rcases hs with hs | hs <;> simp [hs])
  obtain ⟨x, y, j, hx, hy, hj, rfl⟩ := exists_sample_eq ha
  obtain ⟨q, g, r, c, hpixel, rfl, rfl⟩ := exists_hasPixel s hx hy
  exact hsamples q g r c j hpixel (scattered_afterPasses hs) hj

/-! The end in DONE (R169). -/

/-- No access of the host while IDLE raises DONE. -/
theorem IdleAccess.done_eq_false {s t : State} (h : IdleAccess s t) (hs : s.status.done = false) :
    t.status.done = false := by
  rcases h.status_cases with he | he | he <;> rw [he]
  exact hs

/-- Settles O54, by the moves of a step: only the end of the composite loop raises DONE, and there the cursor counts the
records of all passes. -/
theorem doneReadsAllRecords : Obligations.DoneReadsAllRecords := by
  intro s t _ hcur hs hstep ht
  have hne : t.status.done ≠ false := by rw [ht]; decide
  cases step_cases hstep with
  | idle rest _ => exact absurd hs hne
  | access rest t _ ha => exact absurd (ha.done_eq_false hs) hne
  | busyAccess rest e w b d _ => exact absurd hs hne
  | engine rest t hb hm =>
    obtain ⟨hstage, rfl⟩ := hm.finishes_of_done hs ht
    have hstage' : s.stage = .composite := hstage
    calc s.pos.toNat = s.consumed := hcur hb (by simp [hstage'])
      _ = streamBytes s.W s.H s.pb s.passes := consumed_afterPasses (.inr hstage')
  | reset rest _ => exact absurd rfl hne

end Sys2Proof.Machine
end

section
/-! PROOFS. The palette: the expansion writes the table and nothing else (O27), and after it, run or skipped, the table is
that of the decode's palette and transparency list (O28). -/

namespace Sys2Proof.Machine

/-! What the expansion leaves behind (R190, R191). -/

section Expansion

variable (s : State)

@[simp] theorem expandEntries_palCount (n : Nat) : (expandEntries n s).palCount = s.palCount := by rw [expandEntries_eq]

@[simp] theorem expandEntries_trnsCount (n : Nat) : (expandEntries n s).trnsCount = s.trnsCount := by
  rw [expandEntries_eq]

@[simp] theorem expandStage_palCount : (expandStage s).palCount = s.palCount := by
  unfold expandStage; split_ifs <;> simp

@[simp] theorem expandStage_trnsCount : (expandStage s).trnsCount = s.trnsCount := by
  unfold expandStage; split_ifs <;> simp

@[simp] theorem expandStage_rgbaValid : (expandStage s).rgbaValid = true := by
  unfold expandStage; split_ifs with hv
  · exact hv
  · rfl

/-- Outside the table's entries below PAL_COUNT no byte changes, whether or not the expansion runs (R192). -/
theorem load_expandStage_frame {sp : Space} {a : Nat} (h : ¬(sp = .RGBA ∧ a < 4 * s.NP)) :
    (expandStage s).load sp a = s.load sp a := by
  cases hv : s.rgbaValid with
  | true => rw [expandStage_skip s hv]; rfl
  | false => rw [load_expandStage s hv, load_expandEntries, if_neg h]

/-- A table that RGBA_VALID vouches for is kept, any other is made anew. -/
theorem expandStage_tableHolds (ht : s.rgbaValid = true → s.TableHolds) : (expandStage s).TableHolds := by
  cases hv : s.rgbaValid with
  | true =>
    rw [expandStage_skip s hv]
    exact (ht hv).congr rfl rfl fun _ _ _ => rfl
  | false => exact (expandEntries_tableHolds s).congr (by simp) (by simp) fun sp _ a => load_expandStage s hv sp a

end Expansion

/-! The engine's turn at the expansion. -/

theorem step_expand {s s' : State} (h : s.engineTurn = some s') (hb : s'.status.busy = true) (hs : s'.stage = .expand) :
    step s = .next (expandStage s') :=
  (step_of_engineTurn h).trans (engineAction_expand s' hb hs)

/-- Taking the engine's turn off the schedule keeps the invariant. -/
theorem State.Inv.engineTurn {s s' : State} (hi : s.Inv) (h : s.engineTurn = some s') : s'.Inv := by
  rw [engineTurn_eq h]
  exact hi.with_schedule s'.schedule

/-- Settles O27: the new table holds, and PLTE, TRNS and their counts, which it speaks of, are those of before. -/
theorem expansionWritesTheTable : Obligations.ExpansionWritesTheTable := by
  intro s s' h hb hs hv
  refine ⟨_, step_expand h hb hs, expandStage_run s' hv, fun j hj => ?_, fun _ _ => load_expandStage_frame s'⟩
  have hNP : (expandStage s').NP = s'.NP := congrArg BitVec.toNat (expandStage_palCount s')
  have hNT : (expandStage s').NT = s'.NT := congrArg BitVec.toNat (expandStage_trnsCount s')
  have hinput {sp : Space} (hsp : sp ≠ .RGBA) (a : Nat) : (expandStage s').load sp a = s'.load sp a :=
    load_expandStage_frame s' fun hc => hsp hc.1
  have hentry : (expandStage s').EntryHolds j := expandStage_tableHolds s' (by simp [hv]) j (hNP ▸ hj)
  simpa only [State.EntryHolds, hNT, hinput (sp := .PLTE) (by decide), hinput (sp := .TRNS) (by decide)] using hentry

/-- Settles O28: by the invariant RGBA_VALID vouches for the right table only, so skipping the expansion leaves the right
one. -/
theorem skippedExpansionIsCurrent : Obligations.SkippedExpansionIsCurrent := by
  intro s s' hi h hb hs
  refine ⟨_, step_expand h hb hs, expandStage_tableHolds s' (hi.engineTurn h).table, expandStage_rgbaValid s', fun hv => ?_⟩
  rw [expandStage_skip s' hv]

end Sys2Proof.Machine
end

section
/-! PROOFS. The compositor: what one pixel makes of the state in each of the three modes (O29, O30, O31), and that the pixels
before `k` stay composited (O33). -/

namespace Sys2Proof.Machine

/-! The four bytes of a pixel, mode by mode (R212 to R214). -/

section Modes

variable {s : State} {k : Nat}

theorem pixelOk_indexed (hi : s.geom.indexed = true) :
    s.PixelOk k ↔ (s.load .RASTER k).toNat < s.NP ∧
      ∀ n, n < 4 → s.load .OUT (4 * k + n) = s.load .RGBA (4 * (s.load .RASTER k).toNat + n) := by
  simp only [State.PixelOk, if_pos hi]

theorem pixelOk_gray (hi : s.geom.indexed = false) (hc : s.geom.colors = 1) :
    s.PixelOk k ↔ (∀ n, n < 3 → s.load .OUT (4 * k + n) = s.load .RASTER (k * s.pb)) ∧
      s.load .OUT (4 * k + 3) = if s.geom.hasAlpha = true then s.load .RASTER (k * s.pb + 1) else 255 := by
  simp only [State.PixelOk, hi, if_pos hc, Bool.false_eq_true, if_false]

theorem pixelOk_truecolor (hi : s.geom.indexed = false) (hc : s.geom.colors ≠ 1) :
    s.PixelOk k ↔ (∀ n, n < 3 → s.load .OUT (4 * k + n) = s.load .RASTER (k * s.pb + n)) ∧
      s.load .OUT (4 * k + 3) = if s.geom.hasAlpha = true then s.load .RASTER (k * s.pb + 3) else 255 := by
  simp only [State.PixelOk, hi, if_neg hc, Bool.false_eq_true, if_false]

end Modes

/-- Whether a pixel is composited depends on its mode, on RASTER and RGBA, and on its own four bytes of OUT. -/
theorem State.PixelOk.congr {s t : State} {k : Nat} (h : s.PixelOk k) (hgeom : t.geom = s.geom) (hNP : t.NP = s.NP)
    (hraster : ∀ a, t.load .RASTER a = s.load .RASTER a) (hrgba : ∀ a, t.load .RGBA a = s.load .RGBA a)
    (hout : ∀ n, n < 4 → t.load .OUT (4 * k + n) = s.load .OUT (4 * k + n)) : t.PixelOk k := by
  have hpb : t.pb = s.pb := by rw [State.pb, hgeom, State.pb]
  simp only [State.PixelOk, hgeom, hNP, hpb, hraster, hrgba] at h ⊢
  by_cases hi : s.geom.indexed = true
  · rw [if_pos hi] at h ⊢
    obtain ⟨hidx, hbytes⟩ := h
    exact ⟨hidx, fun n hn => (hout n hn).trans (hbytes n hn)⟩
  · rw [if_neg hi] at h ⊢
    obtain ⟨hcolor, halpha⟩ := h
    exact ⟨fun n hn => (hout n (by omega)).trans (hcolor n hn), (hout 3 (by omega)).trans halpha⟩

/-! One turn of the composite loop (R211). -/

/-- `t` is `s` with pixel `k` composited and the loop moved on: nothing but `k` and the pixel's four bytes of OUT
changes. -/
structure PixelComposited (s t : State) : Prop where
  eq_with : t = { s with mem := t.mem, k := s.k + 1 }
  pixelOk : t.PixelOk s.k
  frame : ∀ sp a, ¬(sp = .OUT ∧ 4 * s.k ≤ a ∧ a < 4 * s.k + 4) → t.load sp a = s.load sp a

/-- A pixel whose index, if it has one, lies in the palette is composited. -/
theorem compositePixel_composited {s : State} (hi : s.geom.indexed = true → (s.load .RASTER s.k).toNat < s.NP) :
    PixelComposited s { compositePixel s.k s with k := s.k + 1 } where
  eq_with := by rw [compositePixel_eq s s.k hi]
  pixelOk := compositePixel_pixelOk s s.k hi
  frame := load_compositePixel s s.k hi

section Composited

variable {s t : State} (h : PixelComposited s t)
include h

theorem PixelComposited.geom_eq : t.geom = s.geom := by rw [h.eq_with]

theorem PixelComposited.k_eq : t.k = s.k + 1 := by rw [h.eq_with]

theorem PixelComposited.NP_eq : t.NP = s.NP := by rw [h.eq_with]; rfl

theorem PixelComposited.pb_eq : t.pb = s.pb := by rw [h.eq_with]; rfl

/-- The compositor writes OUT alone. -/
theorem PixelComposited.load_eq {sp : Space} (hsp : sp ≠ .OUT) (a : Nat) : t.load sp a = s.load sp a :=
  h.frame sp a fun hc => hsp hc.1

/-- The pixels composited before stay so: their bytes of OUT lie below those of pixel `k`. -/
theorem PixelComposited.pixelOk_of_lt {k : Nat} (hk : k < s.k) (hp : s.PixelOk k) : t.PixelOk k :=
  hp.congr h.geom_eq h.NP_eq (h.load_eq (by decide)) (h.load_eq (by decide)) fun n hn =>
    h.frame .OUT (4 * k + n) (by omega)

end Composited

/-! The moves that lead to the composite loop. -/

/-- A move of a BUSY engine to the composite loop enters it at pixel 0 or composites a pixel. -/
theorem EngineMove.composite_cases {s t : State} (h : EngineMove s t) (hrun : s.stage ≠ .configure → s.Running)
    (hb : t.status.busy = true) (ht : t.stage = .composite) :
    t.k = 0 ∨ (s.stage = .composite ∧ PixelComposited s t) := by
  cases h with
  | passesEnd _ _ => exact .inl rfl
  | expanded hs _ =>
    obtain ⟨-, hk⟩ := (placeOk_expand hs).mp (hrun (by simp [hs])).place
    rw [expandEntries_eq]
    exact .inl hk
  | expansionSkipped hs _ =>
    obtain ⟨-, hk⟩ := (placeOk_expand hs).mp (hrun (by simp [hs])).place
    exact .inl hk
  | composited hs _ hi => exact .inr ⟨hs, compositePixel_composited hi⟩
  | pixel hs _ =>
    rw [copyBytes_eq] at ht
    exact absurd (hs.symm.trans ht) (by decide)
  | row _ _ _ _ _ _ _ _ _ _ => cases ht
  | tagMissing _ _ => cases hb
  | tagIllegal _ _ _ => cases hb
  | rowShort _ _ _ _ _ _ => cases hb
  | indexFault _ _ _ _ => cases hb
  | decodeEnds _ _ => cases hb
  | _ => simp_all

/-- A move of a BUSY engine keeps the pixels before `k` composited. -/
theorem EngineMove.keeps_composited {s t : State} (h : EngineMove s t) (hrun : s.stage ≠ .configure → s.Running)
    (hbusy : s.status.busy = true) (hc : s.Composited) : t.Composited := by
  intro hb ht k hk
  rcases h.composite_cases hrun hb ht with hk0 | ⟨hs, hp⟩
  · omega
  · rw [hp.k_eq] at hk
    rcases Nat.lt_succ_iff_lt_or_eq.mp hk with hlt | rfl
    · exact hp.pixelOk_of_lt hlt (hc hbusy hs k hlt)
    · exact hp.pixelOk

/-- Settles O33, by the moves of a step: a host access while BUSY leaves the decode alone, and while IDLE none leads past
the beginning of one. -/
theorem compositedPixelsStay : Obligations.CompositedPixelsStay := by
  intro s t hi hc hstep
  cases step_cases hstep with
  | idle rest hidle => exact fun hb => absurd (hidle.symm.trans hb) Bool.false_ne_true
  | access rest t hidle ha =>
    exact fun hb hs => absurd ((ha.stage_of_busy hidle hb).symm.trans hs) (by decide)
  | busyAccess rest e w b d _ => exact hc
  | engine rest t hbusy hm => exact hm.keeps_composited ((hi.with_schedule rest).running hbusy) hbusy hc
  | reset rest _ => exact fun hb => absurd hb Bool.false_ne_true

/-! The engine's turn at a pixel. -/

section Turn

variable {s s' : State} (h : s.engineTurn = some s') (hb : s'.status.busy = true) (hs : s'.stage = .composite)
include h hb hs

theorem step_composite : step s = .next (compositeStage s') :=
  (step_of_engineTurn h).trans (engineAction_composite s' hb hs)

/-- The step of a pixel whose index, if it has one, lies in the palette. -/
theorem step_compositesPixel (hk : s'.k < s'.W * s'.H)
    (hi : s'.geom.indexed = true → (s'.load .RASTER s'.k).toNat < s'.NP) :
    ∃ t, step s = .next t ∧ PixelComposited s' t := by
  refine ⟨_, step_composite h hb hs, ?_⟩
  rw [compositeStage_pixel s' hb hk hi]
  exact compositePixel_composited hi

/-- The step of a pixel that is not indexed, whatever its samples. -/
theorem step_compositesDirect (hk : s'.k < s'.W * s'.H) (hi : s'.geom.indexed = false) :
    ∃ t, step s = .next t ∧ PixelComposited s' t :=
  step_compositesPixel h hb hs hk fun hc => absurd (hi.symm.trans hc) Bool.false_ne_true

end Turn

/-- Settles O29: an index in the palette copies its entry of RGBA; any other raises PALETTE_INDEX_OUT_OF_RANGE. -/
theorem indexedPixel : Obligations.IndexedPixel := by
  intro s s' h hb hs hk hi
  refine ⟨fun hidx => ?_, fun hidx => ⟨_, step_composite h hb hs, ?_⟩⟩
  · obtain ⟨t, hstep, hp⟩ := step_compositesPixel h hb hs hk fun _ => hidx
    obtain ⟨-, hbytes⟩ := (pixelOk_indexed (hp.geom_eq ▸ hi)).mp hp.pixelOk
    refine ⟨t, hstep, hp.eq_with, ?_, hp.frame⟩
    simpa only [hp.load_eq (sp := .RASTER) (by decide), hp.load_eq (sp := .RGBA) (by decide)] using hbytes
  · rw [compositeStage_fault s' hk hi hidx]
    exact ⟨rfl, rfl, BitVec.toNat_setWidth_of_le (by decide), rfl, rfl, rfl⟩

/-- Settles O30: the sample goes to three bytes of OUT, and the alpha to the fourth. -/
theorem grayPixel : Obligations.GrayPixel := by
  intro s s' h hb hs hk hi hc
  obtain ⟨t, hstep, hp⟩ := step_compositesDirect h hb hs hk hi
  have hbytes := (pixelOk_gray (hp.geom_eq ▸ hi) (hp.geom_eq ▸ hc)).mp hp.pixelOk
  simp only [hp.load_eq (sp := .RASTER) (by decide), hp.pb_eq, hp.geom_eq] at hbytes
  obtain ⟨hcolor, halpha⟩ := hbytes
  exact ⟨t, hstep, hp.eq_with, hcolor, halpha, hp.frame⟩

/-- Settles O31: each sample goes to its byte of OUT, and the alpha to the fourth. -/
theorem truecolorPixel : Obligations.TruecolorPixel := by
  intro s s' h hb hs hk hi hc
  obtain ⟨t, hstep, hp⟩ := step_compositesDirect h hb hs hk hi
  have hcolors : t.geom.colors ≠ 1 := by rw [hp.geom_eq, hc]; decide
  have hbytes := (pixelOk_truecolor (hp.geom_eq ▸ hi) hcolors).mp hp.pixelOk
  simp only [hp.load_eq (sp := .RASTER) (by decide), hp.pb_eq, hp.geom_eq] at hbytes
  obtain ⟨hcolor, halpha⟩ := hbytes
  exact ⟨t, hstep, hp.eq_with, hcolor, halpha, hp.frame⟩

end Sys2Proof.Machine
end

section
/-! PROOFS. The first and the last turn of a decode: the first configuration check that fails is reported (O34), a decode past
the check has the derived parameters of its color type (O35), and after the last pixel the decode ends in DONE (O32). -/

namespace Sys2Proof.Machine

/-! The table of the color types (R95). -/

/-- The parameters of a legal color type are those of its row. -/
theorem colorInfo_of_row {row : ColorRow} (h : row ∈ colorTable) :
    colorInfo row.colorType = some (row.colors, row.hasAlpha) ∧
      pixelBytesOf row.colors row.hasAlpha = row.pixelBytes := by
  revert row
  decide

/-- A color type without a row is illegal. -/
theorem colorInfo_eq_none {colorType : Byte} (h : ∀ row, row ∈ colorTable → colorType ≠ row.colorType) :
    colorInfo colorType = none := by
  revert colorType
  decide

/-- A color type has one row. -/
theorem colorTable_inj : ∀ row, row ∈ colorTable → ∀ row', row' ∈ colorTable → row.colorType = row'.colorType →
    row = row' := by
  decide

/-! The configuration check (R233). -/

section Check

variable {s : State}

/-- Check 2 asks for a row of the color type. -/
theorem exists_row_of_check_two (h : ¬s.CheckFails 2) :
    ∃ row, row ∈ colorTable ∧ s.format.colorType = row.colorType := by
  by_contra hn
  exact h fun row hrow hc => hn ⟨row, hrow, hc⟩

/-- Check 7 asks for the capacities with the pixel bytes of the color type's row. -/
theorem checkFails_seven_iff {row : ColorRow} (hrow : row ∈ colorTable) (hc : s.format.colorType = row.colorType) :
    s.CheckFails 7 ↔ s.exceedsCapacity row.pixelBytes = true := by
  simp only [State.exceedsCapacity, decide_eq_true_eq]
  constructor
  · rintro ⟨row', hrow', hc', h⟩
    obtain rfl := colorTable_inj row hrow row' hrow' (hc.symm.trans hc')
    exact h
  · exact fun h => ⟨row, hrow, hc, h⟩

/-- With a legal bit depth and color type, the checks from the third on decide. -/
theorem configCheck_of_row {row : ColorRow} (h1 : ¬s.CheckFails 1) (hrow : row ∈ colorTable)
    (hc : s.format.colorType = row.colorType) :
    s.configCheck =
      if ¬(s.format.interlace = 0 ∨ s.format.interlace = 1) then some 3
      else if s.W = 0 ∨ s.H = 0 then some 4
      else if s.format.colorType = 3 ∧ s.NP = 0 then some 5
      else if 256 < s.NP ∨ 256 < s.NT then some 6
      else if s.exceedsCapacity row.pixelBytes = true then some 7
      else none := by
  obtain ⟨hinfo, hbytes⟩ := colorInfo_of_row hrow
  refine (if_neg h1).trans ?_
  simp only [hc, hinfo, hbytes, not_or, ne_eq]

/-- The configuration check finds the first check that fails. -/
theorem configCheck_of_first {n : Nat} (h : s.CheckFails n) (hfirst : ∀ m, m < n → ¬s.CheckFails m) :
    s.configCheck = some n := by
  by_cases hn : n < 3
  · match n with
    | 1 => exact if_pos h
    | 2 =>
      refine (if_neg (hfirst 1 (by decide))).trans ?_
      simp only [colorInfo_eq_none h]
  · obtain ⟨row, hrow, hc⟩ := exists_row_of_check_two (hfirst 2 (by omega))
    rw [configCheck_of_row (hfirst 1 (by omega)) hrow hc]
    match n with
    | 3 => exact if_pos h
    | 4 => exact Eq.trans (if_neg (hfirst 3 (by decide))) (if_pos h)
    | 5 =>
      exact Eq.trans (if_neg (hfirst 3 (by decide))) (Eq.trans (if_neg (hfirst 4 (by decide))) (if_pos h))
    | 6 =>
      exact Eq.trans (if_neg (hfirst 3 (by decide))) (Eq.trans (if_neg (hfirst 4 (by decide)))
        (Eq.trans (if_neg (hfirst 5 (by decide))) (if_pos h)))
    | 7 =>
      exact Eq.trans (if_neg (hfirst 3 (by decide))) (Eq.trans (if_neg (hfirst 4 (by decide)))
        (Eq.trans (if_neg (hfirst 5 (by decide))) (Eq.trans (if_neg (hfirst 6 (by decide)))
          (if_pos ((checkFails_seven_iff hrow hc).mp h)))))

/-- A configuration that fails no check passes. -/
theorem configCheck_of_passes {row : ColorRow} (h : ∀ n, ¬s.CheckFails n) (hrow : row ∈ colorTable)
    (hc : s.format.colorType = row.colorType) : s.configCheck = none := by
  rw [configCheck_of_row (h 1) hrow hc]
  exact Eq.trans (if_neg (h 3)) (Eq.trans (if_neg (h 4)) (Eq.trans (if_neg (h 5)) (Eq.trans (if_neg (h 6))
    (if_neg fun h7 => h 7 ((checkFails_seven_iff hrow hc).mpr h7)))))

end Check

/-- The number of a check fits ERR_VAL. -/
theorem State.CheckFails.le_seven {s : State} {n : Nat} (h : s.CheckFails n) : n ≤ 7 := by
  by_contra hn
  match n with
  | n + 8 => exact h

/-! The derived parameters (R234). -/

/-- GEOM as step 3 writes it holds the parameters of the color type's row. -/
theorem derivedGeom_of_row {s : State} {row : ColorRow} (hrow : row ∈ colorTable)
    (hc : s.format.colorType = row.colorType) :
    s.derivedGeom.pixelBytes.toNat = row.pixelBytes ∧ s.derivedGeom.colors.toNat = row.colors ∧
      s.derivedGeom.hasAlpha = row.hasAlpha ∧ s.derivedGeom.indexed = decide (0 < s.NP) := by
  obtain ⟨hinfo, hbytes⟩ := colorInfo_of_row hrow
  have hfits : row.pixelBytes % 2 ^ 8 = row.pixelBytes ∧ row.colors % 2 ^ 2 = row.colors := by
    clear hinfo hbytes hc
    revert row
    decide
  simp only [State.derivedGeom, hc, hinfo, hbytes, BitVec.toNat_ofNat, hfits, and_self]

/-! The engine's turn at the check and at the end of the composite loop. -/

theorem step_configure {s s' : State} (h : s.engineTurn = some s') (hb : s'.status.busy = true)
    (hs : s'.stage = .configure) : step s = .next (configure s') :=
  (step_of_engineTurn h).trans (engineAction_configure s' hb hs)

/-- Settles O32. -/
theorem decodeEndsInDone : Obligations.DecodeEndsInDone := by
  intro s s' h hb hs hk
  rw [step_composite h hb hs, compositeStage_end s' hk]
  rfl

/-- Settles O34: the number of the check is what the configuration check finds. -/
theorem firstFailingCheckIsReported : Obligations.FirstFailingCheckIsReported := by
  intro s s' n h hb hs hn hfirst
  refine ⟨_, step_configure h hb hs, ?_⟩
  rw [configure_fail s' n (configCheck_of_first hn hfirst)]
  refine ⟨rfl, rfl, ?_, rfl, rfl, rfl, rfl⟩
  rw [raiseFault_errVal, BitVec.toNat_ofNat]
  exact Nat.mod_eq_of_lt (hn.le_seven.trans_lt (by decide))

/-- Settles O35: the word of GEOM is its fields side by side. -/
theorem derivedParameters : Obligations.DerivedParameters := by
  intro s s' row h hb hs hpass hrow hc
  obtain ⟨hpb, hcolors, halpha, hindexed⟩ := derivedGeom_of_row hrow hc
  refine ⟨_, step_configure h hb hs, ?_⟩
  rw [configure_ok s' (configCheck_of_passes hpass hrow hc)]
  refine ⟨rfl, hpb, hcolors, halpha, ?_, ?_⟩
  · rw [hindexed, decide_eq_true_iff]
  · simp only [Geom.word_toNat, hpb, hcolors, halpha, hindexed, Bool.toNat, Bool.cond_eq_ite, decide_eq_true_eq]

end Sys2Proof.Machine
end

section
/-! PROOFS. The host's writes: the commands START and CLEAR (O36, O37), and what any other write does while BUSY (O38) and while
IDLE (O39). -/

namespace Sys2Proof.Machine

/-! The commands (R230, R231). -/

theorem exec_start_busy {s : State} (rest : BitVec 31) (hb : s.status.busy = true) :
    exec (.start rest) s = .next s.lostWrite := by
  simp only [exec, execStart, hb, if_true]

theorem exec_start_idle {s : State} (rest : BitVec 31) (hb : s.status.busy = false) :
    exec (.start rest) s = .next s.beginDecode := by
  simp only [exec, execStart, hb, Bool.false_eq_true, if_false]

theorem exec_clear_busy {s : State} (rest : BitVec 30) (hb : s.status.busy = true) :
    exec (.clear rest) s = .next s.lostWrite := by
  simp only [exec, execClear, hb, if_true]

theorem exec_clear_idle {s : State} (rest : BitVec 30) (hb : s.status.busy = false) :
    exec (.clear rest) s = .next s.clearReport := by
  simp only [exec, execClear, hb, Bool.false_eq_true, if_false]

/-- Settles O36. -/
theorem startCommand : Obligations.StartCommand :=
  ⟨fun v => have ⟨hstart, _, _⟩ := ctrlValuesDecode v; hstart, fun rest s =>
    ⟨exec_start_busy rest, fun hb => ⟨s.beginDecode, exec_start_idle rest hb, rfl⟩⟩⟩

/-- Settles O37: BUSY, which CLEAR leaves alone, is 0 while IDLE. -/
theorem clearCommand : Obligations.ClearCommand := by
  refine ⟨fun v => have ⟨_, hclear, _⟩ := ctrlValuesDecode v; hclear, fun rest s => ⟨exec_clear_busy rest, fun hb => ?_⟩⟩
  simp only [exec_clear_idle rest hb, State.clearReport, hb]

/-! The register that a write reaches (R26, R65). -/

/-- Only the whole word at its own offset reaches IRQ_EN. -/
theorem addressedReg_irqEn {o : BitVec 6} {w : AccessWidth} (h : addressedReg o w = some .IRQ_EN) :
    o = 0x08#6 ∧ w = .word := by
  have hoffset : ∀ o : BitVec 6, Reg.ofOffset o = some .IRQ_EN → o = 0x08#6 := by decide
  unfold addressedReg at h
  split_ifs at h with hw
  exact ⟨hoffset o h, hw⟩

/-- The registers that the host can only read (R41). -/
def Reg.isReadOnly : Reg → Bool
  | .STATUS => true
  | .ERR_CODE => true
  | .ERR_POS => true
  | .ERR_VAL => true
  | .POS => true
  | .GEOM => true
  | .CTRL => false
  | .IRQ_EN => false
  | .WIDTH => false
  | .HEIGHT => false
  | .FORMAT => false
  | .STREAM_LEN => false
  | .PAL_COUNT => false
  | .TRNS_COUNT => false

/-- A write to a register that the host can only read has no effect (R41). -/
theorem writeReg_readOnly (s : State) {g : Reg} (v : Word) (hg : g.isReadOnly = true) : s.writeReg g v = s := by
  cases g with
  | STATUS => rfl
  | ERR_CODE => rfl
  | ERR_POS => rfl
  | ERR_VAL => rfl
  | POS => rfl
  | GEOM => rfl
  | _ => cases hg

/-- An offset beside those of the registers that the host can write names a register that it can only read, or none. -/
theorem ofOffset_readOnly : ∀ o : BitVec 6,
    o ∉ [0x00#6, 0x08#6, 0x18#6, 0x1C#6, 0x20#6, 0x24#6, 0x28#6, 0x2C#6] →
    (Reg.ofOffset o).all Reg.isReadOnly = true := by
  decide

section Writes

variable {s : State}

/-! A write while BUSY (R241). -/

/-- A write to the register file that does not reach IRQ_EN is lost, a command too. -/
theorem hostWriteReg_busy {o : BitVec 6} {w : AccessWidth} (v : Word) (hb : s.status.busy = true)
    (h : addressedReg o w ≠ some .IRQ_EN) : hostWriteReg o w v s = .next s.lostWrite := by
  have hign : s.ignoredWrite = s.lostWrite := if_pos hb
  unfold hostWriteReg
  split
  · rw [hign]
  · simp only [hostCommand, decode, decodeCtrl]
    split_ifs
    · exact exec_start_busy _ hb
    · exact exec_clear_busy _ hb
    · rw [hign]
  · exact absurd ‹_› h
  · rw [if_pos hb]

/-- A write to a window is lost. -/
theorem hostWriteWindow_busy (w : Window) (a : Nat) (v : Byte) (hb : s.status.busy = true) :
    hostWriteWindow w a v s = s.lostWrite :=
  if_pos hb

/-! A write while IDLE (R232). -/

variable (hb : s.status.busy = false)
include hb

theorem ignoredWrite_idle : s.ignoredWrite = s := by
  simp only [State.ignoredWrite, hb, Bool.false_eq_true, if_false]

/-- A word write to a register beside CTRL is the register's own. -/
theorem hostWriteReg_idle {o : BitVec 6} {g : Reg} (v : Word) (ho : Reg.ofOffset o = some g) (hg : g ≠ .CTRL) :
    hostWriteReg o .word v s = .next (s.writeReg g v) := by
  simp only [hostWriteReg, addressedReg, if_true, ho, hb, Bool.false_eq_true, if_false]
  cases g
  case CTRL => exact absurd rfl hg
  all_goals rfl

/-- A word without a command written to CTRL has no effect (R97). -/
theorem hostWriteReg_noCommand {v : Word} (hv : v.toNat % 4 = 0) : hostWriteReg 0x00#6 .word v s = .next s := by
  have hcommand : hostWriteReg 0x00#6 .word v s = hostCommand v s := rfl
  obtain ⟨-, -, hnone⟩ := ctrlValuesDecode v
  rw [hcommand, hostCommand, hnone hv]
  simp only [ignoredWrite_idle hb]

/-- A write that reaches no register, or one that the host can only read, has no effect (R41, R65). -/
theorem hostWriteReg_ignored {o : BitVec 6} {w : AccessWidth} (v : Word)
    (h : (Reg.ofOffset o).all Reg.isReadOnly = true ∨ w ≠ .word) : hostWriteReg o w v s = .next s := by
  have hunreached (hnone : addressedReg o w = none) : hostWriteReg o w v s = .next s := by
    simp only [hostWriteReg, hnone, ignoredWrite_idle hb]
  by_cases hw : w = .word
  · subst hw
    rcases ho : Reg.ofOffset o with _ | g
    · exact hunreached (addressedReg_eq_none .word ho)
    · have hg : g.isReadOnly = true := by simpa [ho] using h
      rw [hostWriteReg_idle hb v ho (by rintro rfl; cases hg), writeReg_readOnly s v hg]
  · exact hunreached (if_neg hw)

/-- A write inside a window is the window's own. -/
theorem hostWriteWindow_inside {w : Window} {a : Nat} (v : Byte) (ha : a < s.caps.size w.space) :
    hostWriteWindow w a v s = s.writeWindow w a v := by
  simp only [hostWriteWindow, hb, Bool.false_eq_true, if_false, if_pos ha]

/-- A write past a window's end has no effect (R66). -/
theorem hostWriteWindow_outside {w : Window} {a : Nat} (v : Byte) (ha : s.caps.size w.space ≤ a) :
    hostWriteWindow w a v s = s := by
  simp only [hostWriteWindow, hb, Bool.false_eq_true, if_false, if_neg (Nat.not_lt.mpr ha)]

/-- A write to a result window has no effect (R66). -/
theorem hostWriteWindow_result {w : Window} (a : Nat) (v : Byte) (hw : isInputWindow w = false) :
    hostWriteWindow w a v s = s := by
  rcases Nat.lt_or_ge a (s.caps.size w.space) with ha | ha
  · rw [hostWriteWindow_inside hb v ha]
    cases w with
    | IN => cases hw
    | PLTE => cases hw
    | TRNS => cases hw
    | _ => rfl
  · exact hostWriteWindow_outside hb v ha

end Writes

/-- The fields of a written FORMAT are the digits of the word to the base 256 (R35). -/
theorem ofWord_toNat (v : Word) :
    (ImageFormat.ofWord v).bitDepth.toNat = v.toNat % 256 ∧
      (ImageFormat.ofWord v).colorType.toNat = v.toNat / 256 % 256 ∧
      (ImageFormat.ofWord v).interlace.toNat = v.toNat / 65536 % 256 := by
  simp [ImageFormat.ofWord, BitVec.extractLsb'_toNat, Nat.shiftRight_eq_div_pow]

/-- Settles O38. -/
theorem busyWritesAreLost : Obligations.BusyWritesAreLost := by
  intro s s' hb
  refine ⟨fun o w v h hne => ?_, fun w a v h => ?_, fun v h => ?_⟩
  · rw [step_of_hostTurn h]
    exact hostWriteReg_busy v hb fun hirq => hne (addressedReg_irqEn hirq)
  · rw [step_of_hostTurn h]
    exact congrArg Host.Outcome.next (hostWriteWindow_busy w a v hb)
  · rw [step_of_hostTurn h]
    rfl

/-- Settles O39: each offset that the statement names is that of one writable register. -/
theorem idleWrites : Obligations.IdleWrites := by
  intro s s' v hb
  have hreg (o : BitVec 6) (g : Reg) (ho : Reg.ofOffset o = some g) (hg : g ≠ .CTRL)
      (h : s.hostTurn = some (.writeReg o .word v, s')) : step s = .next (s'.writeReg g v) :=
    (step_of_hostTurn h).trans (hostWriteReg_idle hb v ho hg)
  have hwindow {w : Window} {a : Nat} {b : Byte} (h : s.hostTurn = some (.writeWindow w a b, s')) :
      step s = .next (hostWriteWindow w a b s') := step_of_hostTurn h
  refine ⟨fun h hv => ?_, hreg _ .IRQ_EN rfl (by decide), hreg _ .WIDTH rfl (by decide),
    hreg _ .HEIGHT rfl (by decide), fun h => ⟨_, hreg _ .FORMAT rfl (by decide) h, rfl, ofWord_toNat v⟩,
    hreg _ .STREAM_LEN rfl (by decide), hreg _ .PAL_COUNT rfl (by decide), hreg _ .TRNS_COUNT rfl (by decide),
    fun o w h ho => ?_, fun a b h ha => ?_, fun a b h ha => ?_, fun a b h ha => ?_, fun w a b h hw => ?_⟩
  · exact (step_of_hostTurn h).trans (hostWriteReg_noCommand hb hv)
  · exact (step_of_hostTurn h).trans (hostWriteReg_ignored hb v (ho.imp_left (ofOffset_readOnly o)))
  · rw [hwindow h, hostWriteWindow_inside hb b ha]; rfl
  · rw [hwindow h, hostWriteWindow_inside hb b ha]; rfl
  · rw [hwindow h, hostWriteWindow_inside hb b ha]; rfl
  · rw [hwindow h]
    rcases hw with rfl | rfl | rfl | ha
    · rw [hostWriteWindow_result hb a b rfl]
    · rw [hostWriteWindow_result hb a b rfl]
    · rw [hostWriteWindow_result hb a b rfl]
    · rw [hostWriteWindow_outside hb b ha]

end Sys2Proof.Machine
end

section
/-! PROOFS. Every decode ends (O59): a turn of a running decode ends it, brings it nearer to its end, or takes a host access
off the schedule. -/

namespace Sys2Proof.Machine

/-! The turns to come (R25, R291). -/

theorem engineTurn_schedule {s s' : State} (h : s.engineTurn = some s') : s'.schedule = s.schedule.tail := by
  unfold State.engineTurn at h
  split at h <;> simp_all
  subst h
  rfl

theorem hostTurn_schedule {s s' : State} {a : HostAccess} (h : s.hostTurn = some (a, s')) :
    s.schedule = .host a :: s'.schedule := by
  unfold State.hostTurn at h
  split at h <;> simp_all
  obtain ⟨-, rfl⟩ := h
  rfl

/-! A running decode that the reset input will not abandon. -/

/-- A decode runs, and only engine actions and host accesses are to come (R237, R280). -/
structure State.WillEnd (s : State) : Prop where
  noReset : .reset ∉ s.schedule
  busy : s.status.busy = true
  oneFlag : s.OneFlag

/-- A decode has ended in exactly one of DONE and FAULT (R242). -/
def State.HasEnded (s : State) : Prop := s.status.busy = false ∧ (s.status.done ^^ s.status.fault) = true

/-- How far a decode is from its end, and how many turns are to come. -/
def State.turnsLeft (s : State) : (Nat × Nat × Nat × Nat) × Nat := (s.remaining, s.schedule.length)

/-- One decode is nearer to its end than another, or as near with fewer turns to come. -/
abbrev FewerTurns : (Nat × Nat × Nat × Nat) × Nat → (Nat × Nat × Nat × Nat) × Nat → Prop := Prod.Lex Nearer (· < ·)

theorem fewerTurns_wf : WellFounded FewerTurns := WellFounded.prod_lex nearer_wf Nat.lt_wfRel.wf

section Turns

variable {s s' : State} (h : s.WillEnd)
include h

/-- The engine's turn ends the decode or brings it nearer to its end. -/
theorem State.WillEnd.engine (he : s.engineTurn = some s') :
    ∃ t, step s = .next t ∧ (t.HasEnded ∨ (t.WillEnd ∧ FewerTurns t.turnsLeft s.turnsLeft)) := by
  have hs' := engineTurn_eq he
  have hstatus : s'.status = s.status := by rw [hs']
  have hremaining : s'.remaining = s.remaining := by rw [hs']; rfl
  obtain ⟨t, hstep, hmove⟩ := engineAction_moves (hstatus ▸ h.busy)
  refine ⟨t, (step_of_engineTurn he).trans hstep, ?_⟩
  have ⟨hdone, hfault, _⟩ := h.oneFlag
  rw [h.busy, Bool.true_and] at hdone hfault
  refine (hmove.status_eq_or_ends (hstatus ▸ hdone) (hstatus ▸ hfault)).symm.imp id fun hkeep => ?_
  rw [hstatus] at hkeep
  have hbusy : t.status.busy = true := hkeep ▸ h.busy
  refine ⟨⟨?_, hbusy, ?_⟩, Prod.Lex.left _ _ (hremaining ▸ hmove.nearer hbusy)⟩
  · rw [hmove.schedule_eq, engineTurn_schedule he]
    exact fun hr => h.noReset (List.mem_of_mem_tail hr)
  · rw [State.OneFlag, hkeep]
    exact h.oneFlag

/-- A host access leaves the decode where it is (R241). -/
theorem State.WillEnd.host {a : HostAccess} (ha : s.hostTurn = some (a, s')) :
    ∃ t, step s = .next t ∧ t.WillEnd ∧ FewerTurns t.turnsLeft s.turnsLeft := by
  have hs' := hostTurn_eq ha
  have hsched := hostTurn_schedule ha
  have hstatus : s'.status = s.status := by rw [hs']
  have hremaining : s'.remaining = s.remaining := by rw [hs']; rfl
  obtain ⟨e, w, b, d, hacc⟩ := hostAccess_busy s' a (hstatus ▸ h.busy)
  refine ⟨_, (step_of_hostTurn ha).trans hacc, ⟨fun hr => h.noReset ?_, ?_, ?_⟩, ?_⟩
  · rw [hsched]
    exact List.mem_cons_of_mem _ hr
  · exact hstatus ▸ h.busy
  · exact show s'.OneFlag by rw [State.OneFlag, hstatus]; exact h.oneFlag
  · rw [State.turnsLeft, State.turnsLeft, ← hremaining, hsched]
    exact Prod.Lex.right _ (Nat.lt_succ_self _)

/-- A turn ends the decode, or leaves it running with fewer turns left. -/
theorem State.WillEnd.step :
    ∃ t, step s = .next t ∧ (t.HasEnded ∨ (t.WillEnd ∧ FewerTurns t.turnsLeft s.turnsLeft)) := by
  rcases turn_cases s with ⟨s', he⟩ | ⟨a, s', ha⟩ | ⟨rest, hr⟩
  · exact h.engine he
  · obtain ⟨t, hstep, ht⟩ := h.host ha
    exact ⟨t, hstep, .inr ht⟩
  · exact absurd (hr ▸ List.mem_cons_self) h.noReset

/-- Some number of turns ends the decode. -/
theorem State.WillEnd.run_ends : ∃ n t, Sys2Proof.core.run n s = .next t ∧ t.HasEnded := by
  induction hm : s.turnsLeft using fewerTurns_wf.induction generalizing s with
  | _ m ih =>
    obtain ⟨t, hstep, hend | ⟨ht, hless⟩⟩ := h.step
    · exact ⟨1, t, run_succ hstep 0, hend⟩
    · obtain ⟨n, u, hrun, hend⟩ := ih _ (hm ▸ hless) ht rfl
      exact ⟨n + 1, u, (run_succ hstep n).trans hrun, hend⟩

end Turns

/-- Settles O59. -/
theorem everyDecodeEnds : Obligations.EveryDecodeEnds :=
  fun _ hr hb hf => State.WillEnd.run_ends ⟨hr, hb, hf⟩

end Sys2Proof.Machine
end

section
/-! PROOFS. The outcome of a decode is a function of its inputs (O60). Two decodes with the same inputs are followed side by
side: their engines stand at the same place with the same report (`SameCourse`), and hold the same bytes wherever the
decode has written or will read (`SameData`). Each stage keeps the first, every move of the two engines the second. -/

namespace Sys2Proof.Machine

/-! What the two engines share. -/

/-- A state without its memories and counters, and without what no decode reads. -/
def State.course (s : State) : State :=
  { s with
    mem := ⟨[], [], [], [], [], [], [], []⟩, rgbaValid := false, pass := 0, r := 0, i := 0, c := 0, k := 0,
    irqEn := false, bus := none, shown := ⟨0, 0, 0⟩, resets := 0, draws := 0 }

/-- Two states agree on the configuration, the report, the cursor and GEOM, and on the counters that their stage reads. -/
structure SameCourse (s t : State) : Prop where
  course : t.course = s.course
  pass : s.stage ≠ .configure → t.pass = s.pass
  row : s.stage = .row ∨ s.stage = .scatter ∨ s.stage = .retire → t.r = s.r
  column : s.stage = .scatter → t.c = s.c
  pixel : s.stage = .expand ∨ s.stage = .composite → t.k = s.k

section Course

variable {s t : State} (h : SameCourse s t)
include h

/-- What reads the course alone is the same in both. -/
theorem SameCourse.reads {α : Type} (f : State → α) (hf : ∀ u : State, f u.course = f u) : f t = f s := by
  rw [← hf t, h.course, hf]

theorem SameCourse.status_eq : t.status = s.status := h.reads State.status fun _ => rfl

theorem SameCourse.stage_eq : t.stage = s.stage := h.reads State.stage fun _ => rfl

theorem SameCourse.geom_eq : t.geom = s.geom := h.reads State.geom fun _ => rfl

theorem SameCourse.pos_eq : t.pos = s.pos := h.reads State.pos fun _ => rfl

theorem SameCourse.schedule_eq : t.schedule = s.schedule := h.reads State.schedule fun _ => rfl

theorem SameCourse.streamLen_eq : t.streamLen = s.streamLen := h.reads State.streamLen fun _ => rfl

theorem SameCourse.W_eq : t.W = s.W := h.reads State.W fun _ => rfl

theorem SameCourse.H_eq : t.H = s.H := h.reads State.H fun _ => rfl

theorem SameCourse.L_eq : t.L = s.L := h.reads State.L fun _ => rfl

theorem SameCourse.NP_eq : t.NP = s.NP := h.reads State.NP fun _ => rfl

theorem SameCourse.NT_eq : t.NT = s.NT := h.reads State.NT fun _ => rfl

theorem SameCourse.pb_eq : t.pb = s.pb := h.reads State.pb fun _ => rfl

theorem SameCourse.passes_eq : t.passes = s.passes := h.reads State.passes fun _ => rfl

theorem SameCourse.configCheck_eq : t.configCheck = s.configCheck := h.reads State.configCheck fun _ => rfl

variable (hs : s.stage ≠ .configure)
include hs

theorem SameCourse.geometry_eq : t.geometry = s.geometry := by
  simp only [State.geometry, h.passes_eq, h.pass hs]

theorem SameCourse.subWidth_eq : t.subWidth = s.subWidth := by
  simp only [State.subWidth, h.geometry_eq hs, h.W_eq]

theorem SameCourse.subHeight_eq : t.subHeight = s.subHeight := by
  simp only [State.subHeight, h.geometry_eq hs, h.H_eq]

theorem SameCourse.SL_eq : t.SL = s.SL := by
  simp only [State.SL, h.subWidth_eq hs, h.pb_eq]

end Course

/-! Every stage keeps it. -/

section Expansion

variable (s : State)

/-- Whether or not it runs, the expansion changes the stage, the table and RGBA_VALID alone. -/
theorem expandStage_eq_with :
    expandStage s = { s with mem := (expandStage s).mem, rgbaValid := true, stage := .composite } := by
  cases hv : s.rgbaValid with
  | false => exact expandStage_run s hv
  | true => rw [expandStage_skip s hv, ← hv]

theorem expandStage_course : (expandStage s).course = { s.course with stage := .composite } := by
  rw [expandStage_eq_with]; rfl

@[simp] theorem expandStage_stage : (expandStage s).stage = .composite := by rw [expandStage_eq_with]

@[simp] theorem expandStage_pass : (expandStage s).pass = s.pass := by rw [expandStage_eq_with]

@[simp] theorem expandStage_k : (expandStage s).k = s.k := by rw [expandStage_eq_with]

end Expansion

section Stages

variable {s t : State} (h : SameCourse s t)
include h

/-- The same fault raised in both. -/
theorem SameCourse.faulted (f : FaultCause) (p v : Word) :
    SameCourse (raiseFault f p v s) (raiseFault f p v t) :=
  ⟨(congrArg (fun u => (raiseFault f p v u).course) h.course :), h.pass, h.row, h.column, h.pixel⟩

/-- The configuration check reads no memory (R233, R257). -/
theorem SameCourse.configured : SameCourse (configure s) (configure t) := by
  rcases hc : s.configCheck with _ | n
  · rw [configure_ok s hc, configure_ok t (h.configCheck_eq.trans hc)]
    exact ⟨congrArg (fun u => { u with pos := 0, geom := u.derivedGeom, stage := .beginPass }) h.course, fun _ => rfl,
      by simp, by simp, by simp⟩
  · rw [configure_fail s n hc, configure_fail t n (h.configCheck_eq.trans hc)]
    exact SameCourse.faulted (s := { s with pos := 0 }) (t := { t with pos := 0 })
      ⟨congrArg (fun u => { u with pos := 0 }) h.course, h.pass, h.row, h.column, h.pixel⟩ _ _ _

theorem SameCourse.passBegun (hs : s.stage = .beginPass) : SameCourse (beginPass s) (beginPass t) := by
  have hne : s.stage ≠ .configure := by simp [hs]
  have hpass := h.pass hne
  rcases Nat.lt_or_ge s.pass s.passes.length with hp | hp
  · have hp' : t.pass < t.passes.length := by rwa [hpass, h.passes_eq]
    by_cases he : s.subWidth = 0 ∨ s.subHeight = 0
    · rw [beginPass_empty s hp he, beginPass_empty t hp' (by rwa [h.subWidth_eq hne, h.subHeight_eq hne])]
      exact ⟨h.course, fun _ => congrArg (· + 1) hpass, h.row, h.column, h.pixel⟩
    · have hw : 0 < s.subWidth := by omega
      have hh : 0 < s.subHeight := by omega
      rw [beginPass_row s hp hw hh, beginPass_row t hp' (h.subWidth_eq hne ▸ hw) (h.subHeight_eq hne ▸ hh)]
      exact ⟨congrArg (fun u => { u with stage := .row }) h.course, fun _ => hpass, fun _ => rfl, by simp, by simp⟩
  · rw [beginPass_end s hp, beginPass_end t (by rwa [hpass, h.passes_eq])]
    exact ⟨congrArg (fun u => { u with stage := if u.geom.indexed then .expand else .composite }) h.course,
      fun _ => hpass, by rcases s.geom.indexed <;> simp, by rcases s.geom.indexed <;> simp, fun _ => rfl⟩

theorem SameCourse.scattered (hs : s.stage = .scatter) : SameCourse (scatterStage s) (scatterStage t) := by
  have hne : s.stage ≠ .configure := by simp [hs]
  have hcol := h.column hs
  rcases Nat.lt_or_ge s.c s.subWidth with hc | hc
  · rw [scatterStage_pixel s hc, scatterStage_pixel t (by rwa [hcol, h.subWidth_eq hne])]
    exact ⟨h.course, h.pass, h.row, fun _ => congrArg (· + 1) hcol, h.pixel⟩
  · rw [scatterStage_end s hc, scatterStage_end t (by rwa [hcol, h.subWidth_eq hne])]
    exact ⟨congrArg (fun u => { u with stage := .retire }) h.course, fun _ => h.pass hne, fun _ => h.row (by simp [hs]),
      by simp, by simp⟩

theorem SameCourse.retired (hs : s.stage = .retire) : SameCourse (retireStage s) (retireStage t) := by
  have hne : s.stage ≠ .configure := by simp [hs]
  have hrow := h.row (by simp [hs])
  rcases Nat.lt_or_ge (s.r + 1) s.subHeight with hr | hr
  · rw [retireStage_row s hr, retireStage_row t (by rwa [hrow, h.subHeight_eq hne])]
    exact ⟨congrArg (fun u => { u with stage := .row }) h.course, fun _ => h.pass hne, fun _ => congrArg (· + 1) hrow,
      by simp, by simp⟩
  · rw [retireStage_last s hr, retireStage_last t (by rwa [hrow, h.subHeight_eq hne])]
    exact ⟨congrArg (fun u => { u with stage := .beginPass }) h.course, fun _ => congrArg (· + 1) (h.pass hne),
      by simp, by simp, by simp⟩

/-- The expansion moves on whether or not it runs (R191). -/
theorem SameCourse.expanded (hs : s.stage = .expand) : SameCourse (expandStage s) (expandStage t) := by
  refine ⟨?_, fun _ => ?_, by simp, by simp, fun _ => ?_⟩
  · rw [expandStage_course, expandStage_course, h.course]
  · rw [expandStage_pass, expandStage_pass, h.pass (by simp [hs])]
  · rw [expandStage_k, expandStage_k, h.pixel (.inl hs)]

/-- A stream that has ended in both. -/
theorem SameCourse.corrupted : SameCourse (corruptFile s) (corruptFile t) := by
  rw [corruptFile, corruptFile, h.streamLen_eq]
  exact h.faulted _ _ _

theorem SameCourse.advanced : SameCourse s.advance t.advance :=
  ⟨congrArg (fun u => { u with pos := u.pos + 1 }) h.course, h.pass, h.row, h.column, h.pixel⟩

/-- The row loop reads no memory to find its way: it ends where the stream or the row does (R120, R121). -/
theorem SameCourse.unfilteredBytes (pred : Byte → Byte → Byte → Byte) (n : Nat) :
    SameCourse (unfilterBytes pred n s) (unfilterBytes pred n t) := by
  induction n generalizing s t with
  | zero => exact h
  | succ n ih =>
    rcases Nat.lt_or_ge s.pos.toNat s.L with hp | hp
    · rw [unfilterBytes_succ pred n hp, unfilterBytes_succ pred n (by rwa [h.pos_eq, h.L_eq])]
      exact ih ⟨h.advanced.course, h.pass, h.row, h.column, h.pixel⟩
    · rw [unfilterBytes_end pred n hp, unfilterBytes_end pred n (by rwa [h.pos_eq, h.L_eq])]
      exact h.corrupted

/-- A row is followed by its scatter, or the decode has ended in both (R165). -/
theorem SameCourse.rowUnfiltered (hs : s.stage = .row) (pred : Byte → Byte → Byte → Byte) :
    SameCourse (afterRow (unfilterRow pred s)) (afterRow (unfilterRow pred t)) := by
  have hne : s.stage ≠ .configure := by simp [hs]
  have hrow : SameCourse (unfilterRow pred s) (unfilterRow pred t) := by
    rw [unfilterRow, unfilterRow, h.SL_eq hne]
    exact SameCourse.unfilteredBytes (s := { s with i := 0 }) (t := { t with i := 0 })
      ⟨h.course, h.pass, h.row, h.column, h.pixel⟩ pred s.SL
  have hstage : (unfilterRow pred s).stage = .row := by
    rw [unfilterRow, unfilterBytes_eq]; exact hs
  by_cases hb : (unfilterRow pred s).status.busy = true
  · rw [afterRow, if_pos hb, afterRow, if_pos (by rwa [hrow.status_eq])]
    exact ⟨congrArg (fun u => { u with stage := .scatter }) hrow.course, fun _ => hrow.pass (by simp [hstage]),
      fun _ => hrow.row (.inl hstage), fun _ => rfl, by simp⟩
  · rw [afterRow, if_neg hb, afterRow, if_neg (by rwa [hrow.status_eq])]
    exact hrow

/-- The fetch of a record goes one way in both when the tag is the same. -/
theorem SameCourse.rowFetched (hs : s.stage = .row)
    (htag : s.pos.toNat < s.L → t.load .IN t.pos.toNat = s.load .IN s.pos.toNat) :
    ∃ s' t', rowStage s = .next s' ∧ rowStage t = .next t' ∧ SameCourse s' t' := by
  have hlt : s.pos.toNat < s.L → t.pos.toNat < t.L := by rw [h.pos_eq, h.L_eq]; exact id
  rcases rowStage_cases s with ⟨hp, he⟩ | ⟨hp, hd, he⟩ | ⟨i, hp, hi, hd, he⟩
  · refine ⟨_, corruptFile t, he, ?_, h.corrupted⟩
    simp only [rowStage, streamByte?_none t (by rwa [h.pos_eq, h.L_eq])]
  · refine ⟨_, invalidFilter (t.load .IN t.pos.toNat) t.advance, he, ?_, ?_⟩
    · simp only [rowStage, streamByte?_some t (hlt hp), htag hp, hd]
    · rw [htag hp, invalidFilter, invalidFilter, h.advanced.pos_eq]
      exact h.advanced.faulted _ _ _
  · refine ⟨_, afterRow (unfilterRow (predictorOf i) t.advance), he, ?_, h.advanced.rowUnfiltered hs _⟩
    simp only [rowStage, streamByte?_some t (hlt hp), htag hp, hd, exec_row i hi, onNext]

/-- A turn of the composite loop goes one way in both when the index of the pixel is the same. -/
theorem SameCourse.composited (hb : s.status.busy = true) (hs : s.stage = .composite)
    (hindex : s.k < s.W * s.H → t.load .RASTER t.k = s.load .RASTER s.k) :
    SameCourse (compositeStage s) (compositeStage t) := by
  have hb' : t.status.busy = true := by rwa [h.status_eq]
  have hk' := h.pixel (.inr hs)
  rcases Nat.lt_or_ge s.k (s.W * s.H) with hk | hk
  · have hkt : t.k < t.W * t.H := by rwa [hk', h.W_eq, h.H_eq]
    by_cases hi : s.geom.indexed = true → (s.load .RASTER s.k).toNat < s.NP
    · have hit : t.geom.indexed = true → (t.load .RASTER t.k).toNat < t.NP := by
        rwa [h.geom_eq, h.NP_eq, hindex hk]
      rw [compositeStage_pixel s hb hk hi, compositeStage_pixel t hb' hkt hit, compositePixel_eq s s.k hi,
        compositePixel_eq t t.k hit]
      exact ⟨h.course, h.pass, h.row, h.column, fun _ => congrArg (· + 1) hk'⟩
    · obtain ⟨hx, hge⟩ := Classical.not_imp.mp hi
      rw [Nat.not_lt] at hge
      rw [compositeStage_fault s hk hx hge,
        compositeStage_fault t hkt (by rwa [h.geom_eq]) (by rwa [h.NP_eq, hindex hk]), hindex hk, hk']
      exact h.faulted _ _ _
  · rw [compositeStage_end s hk, compositeStage_end t (by rwa [hk', h.W_eq, h.H_eq])]
    exact ⟨(congrArg (fun u => u.finish.course) h.course :), h.pass, h.row, h.column, h.pixel⟩

/-- An action of a BUSY engine keeps the course, when the two hold the same byte wherever the engine goes by one: at the
cursor, and at the index of a pixel. -/
theorem SameCourse.engineAction (hb : s.status.busy = true)
    (htag : s.stage = .row → s.pos.toNat < s.L → t.load .IN t.pos.toNat = s.load .IN s.pos.toNat)
    (hindex : s.stage = .composite → s.k < s.W * s.H → t.load .RASTER t.k = s.load .RASTER s.k) :
    ∃ s' t', engineAction s = .next s' ∧ engineAction t = .next t' ∧ SameCourse s' t' := by
  have hb' : t.status.busy = true := by rwa [h.status_eq]
  have hstage := h.stage_eq
  cases hs : s.stage with
  | configure => exact ⟨_, _, engineAction_configure s hb hs, engineAction_configure t hb' (hstage.trans hs), h.configured⟩
  | beginPass =>
    exact ⟨_, _, engineAction_beginPass s hb hs, engineAction_beginPass t hb' (hstage.trans hs), h.passBegun hs⟩
  | row =>
    rw [engineAction_row s hb hs, engineAction_row t hb' (hstage.trans hs)]
    exact h.rowFetched hs (htag hs)
  | scatter =>
    exact ⟨_, _, engineAction_scatter s hb hs, engineAction_scatter t hb' (hstage.trans hs), h.scattered hs⟩
  | retire => exact ⟨_, _, engineAction_retire s hb hs, engineAction_retire t hb' (hstage.trans hs), h.retired hs⟩
  | expand => exact ⟨_, _, engineAction_expand s hb hs, engineAction_expand t hb' (hstage.trans hs), h.expanded hs⟩
  | composite =>
    exact ⟨_, _, engineAction_composite s hb hs, engineAction_composite t hb' (hstage.trans hs),
      h.composited hb hs (hindex hs)⟩

end Stages

end Sys2Proof.Machine
end

section
/-! PROOFS. The bytes of two decodes with the same inputs (O60): wherever the decode has written or will read, both hold the
same. A move of the two engines along the same course keeps that, part by part, and at the end in DONE the results are the
same. -/

namespace Sys2Proof.Machine

/-- Every sample that the decode has scattered is the same. -/
def SameSamples (s t : State) : Prop :=
  ∀ q g r c j, s.HasPixel q g r c → s.Scattered q r c → j < s.pb →
    t.load .RASTER (s.pixelIndex g r c + j) = s.load .RASTER (s.pixelIndex g r c + j)

/-- Two states hold the same bytes where a decode reads its inputs (R238), in the scanline at hand and the one before it, at
every sample scattered, and at every output byte composited. -/
structure SameData (s t : State) : Prop where
  stream : ∀ a, a < s.L → t.load .IN a = s.load .IN a
  palette : ∀ a, a < 3 * s.NP → t.load .PLTE a = s.load .PLTE a
  alphas : ∀ a, a < min s.NT s.NP → t.load .TRNS a = s.load .TRNS a
  cur : s.stage = .scatter ∨ s.stage = .retire → ∀ n, n < s.SL → t.load .CUR n = s.load .CUR n
  prev : s.stage = .row ∨ s.stage = .scatter ∨ s.stage = .retire → 0 < s.r →
    ∀ n, n < s.SL → t.load .PREV n = s.load .PREV n
  samples : SameSamples s t
  output : s.stage = .composite → ∀ a, a < 4 * s.k → t.load .OUT a = s.load .OUT a

/-- Two states hold the same results of a decode (R238). -/
structure SameResults (s t : State) : Prop where
  raster : ∀ a, a < s.W * s.H * s.pb → t.load .RASTER a = s.load .RASTER a
  out : ∀ a, a < 4 * (s.W * s.H) → t.load .OUT a = s.load .OUT a
  rgba : ∀ a, a < 4 * s.NP → t.load .RGBA a = s.load .RGBA a

/-! The modes of the compositor (R95, R210). -/

/-- A decode past its check has the parameters of a row of the table of color types. -/
theorem State.Running.exists_row {s : State} (h : s.Running) :
    ∃ row, row ∈ colorTable ∧ s.pb = row.pixelBytes ∧ s.geom.colors.toNat = row.colors ∧
      s.geom.hasAlpha = row.hasAlpha ∧ s.geom.indexed = decide (0 < s.NP) := by
  obtain ⟨colors, hasAlpha, hinfo, -⟩ := configCheck_none h.checked
  have hlegal : ¬∀ row, row ∈ colorTable → s.format.colorType ≠ row.colorType := fun hn => by
    rw [colorInfo_eq_none hn] at hinfo
    cases hinfo
  push Not at hlegal
  obtain ⟨row, hrow, hc⟩ := hlegal
  rw [State.pb, h.geom]
  exact ⟨row, hrow, derivedGeom_of_row hrow hc⟩

/-- The samples that a grayscale and a truecolor pixel read are among those of the pixel. -/
theorem State.Running.channels {s : State} (h : s.Running) :
    (s.geom.colors = 1 → s.geom.hasAlpha = true → 1 < s.pb) ∧
      (s.geom.colors ≠ 1 → 2 < s.pb ∧ (s.geom.hasAlpha = true → 3 < s.pb)) := by
  obtain ⟨row, hrow, hpb, hcolors, halpha, -⟩ := h.exists_row
  have hone : s.geom.colors = 1 ↔ row.colors = 1 := by
    rw [← hcolors, ← BitVec.toNat_inj]
    rfl
  rw [Ne, hone, hpb, halpha]
  clear hpb hcolors halpha hone
  revert row
  decide

/-- A sample of a pixel lies among the samples of the image. -/
theorem sampleOfPixel_lt {k n pb j : Nat} (hk : k < n) (hj : j < pb) : k * pb + j < n * pb :=
  calc k * pb + j < k * pb + pb := Nat.add_lt_add_left hj _
    _ = (k + 1) * pb := (Nat.succ_mul k pb).symm
    _ ≤ n * pb := Nat.mul_le_mul_right pb hk

section Pixel

variable {s t : State} {k : Nat}

/-- A pixel composited from the same samples and the same table is the same. -/
theorem load_out_eq_of_pixelOk (hs : s.PixelOk k) (ht : t.PixelOk k) (h : SameCourse s t) (hrun : s.Running)
    (hk : k < s.W * s.H) (hraster : ∀ a, a < s.W * s.H * s.pb → t.load .RASTER a = s.load .RASTER a)
    (hrgba : ∀ a, a < 4 * s.NP → t.load .RGBA a = s.load .RGBA a) {n : Nat} (hn : n < 4) :
    t.load .OUT (4 * k + n) = s.load .OUT (4 * k + n) := by
  obtain ⟨hpb, -⟩ := hrun.bounds
  obtain ⟨hgray, htrue⟩ := hrun.channels
  have hsample (j : Nat) (hj : j < s.pb) : t.load .RASTER (k * s.pb + j) = s.load .RASTER (k * s.pb + j) :=
    hraster _ (sampleOfPixel_lt hk hj)
  have hlast : ¬n < 3 → n = 3 := by omega
  cases hi : s.geom.indexed with
  | true =>
    obtain ⟨hidx, hbytes⟩ := (pixelOk_indexed hi).mp hs
    obtain ⟨-, hbytes'⟩ := (pixelOk_indexed (h.geom_eq ▸ hi)).mp ht
    have hk' : k < s.W * s.H * s.pb := hk.trans_le (Nat.le_mul_of_pos_right _ hpb)
    rw [hbytes n hn, hbytes' n hn, hraster k hk', hrgba _ (by omega)]
  | false =>
    by_cases hc : s.geom.colors = 1
    · obtain ⟨hcolor, halpha⟩ := (pixelOk_gray hi hc).mp hs
      obtain ⟨hcolor', halpha'⟩ := (pixelOk_gray (h.geom_eq ▸ hi) (h.geom_eq ▸ hc)).mp ht
      rw [h.pb_eq] at hcolor' halpha'
      by_cases h3 : n < 3
      · rw [hcolor n h3, hcolor' n h3]
        exact hsample 0 hpb
      · rw [hlast h3, halpha, halpha', h.geom_eq]
        split_ifs with hx
        · exact hsample 1 (hgray hc hx)
        · rfl
    · obtain ⟨hcolor, halpha⟩ := (pixelOk_truecolor hi hc).mp hs
      obtain ⟨hcolor', halpha'⟩ := (pixelOk_truecolor (h.geom_eq ▸ hi) (h.geom_eq ▸ hc)).mp ht
      obtain ⟨hthree, hfour⟩ := htrue hc
      rw [h.pb_eq] at hcolor' halpha'
      by_cases h3 : n < 3
      · rw [hcolor n h3, hcolor' n h3]
        exact hsample n (by omega)
      · rw [hlast h3, halpha, halpha', h.geom_eq]
        split_ifs with hx
        · exact hsample 3 (hfour hx)
        · rfl

end Pixel

/-! What the two hold alike, read from its parts. -/

section Data

variable {s t : State}

/-- After the passes RASTER is the same: every sample of the image has been scattered (R168). -/
theorem SameSamples.raster (h : SameSamples s t) (hs : s.stage = .expand ∨ s.stage = .composite) (a : Nat)
    (ha : a < s.W * s.H * s.pb) : t.load .RASTER a = s.load .RASTER a := by
  obtain ⟨x, y, j, hx, hy, hj, rfl⟩ := exists_sample_eq ha
  obtain ⟨q, g, r, c, hpixel, rfl, rfl⟩ := exists_hasPixel s hx hy
  exact h q g r c j hpixel (scattered_afterPasses hs) hj

/-- Tables of the same palette and transparency list are the same (R190). -/
theorem rgba_eq_of_tableHolds (h : SameCourse s t) (hs : s.TableHolds) (ht : t.TableHolds)
    (hpalette : ∀ a, a < 3 * s.NP → t.load .PLTE a = s.load .PLTE a)
    (halphas : ∀ a, a < min s.NT s.NP → t.load .TRNS a = s.load .TRNS a) (a : Nat) (ha : a < 4 * s.NP) :
    t.load .RGBA a = s.load .RGBA a := by
  obtain ⟨j, n, hn, rfl⟩ : ∃ j n, n < 4 ∧ a = 4 * j + n := ⟨a / 4, a % 4, by omega, by omega⟩
  obtain ⟨h0, h1, h2, h3⟩ := hs j (by omega)
  obtain ⟨h0', h1', h2', h3'⟩ := ht j (by rw [h.NP_eq]; omega)
  match n with
  | 0 => exact h0'.trans ((hpalette _ (by omega)).trans h0.symm)
  | 1 => exact h1'.trans ((hpalette _ (by omega)).trans h1.symm)
  | 2 => exact h2'.trans ((hpalette _ (by omega)).trans h2.symm)
  | 3 =>
    rw [h3, h3', h.NT_eq]
    split_ifs with hj
    · exact halphas j (by omega)
    · rfl

/-- While both composite the tables are the same: RGBA_VALID vouches for them, unless there is no palette (R43, R191). -/
theorem rgba_eq_of_composite (h : SameCourse s t) (hs : s.Inv) (ht : t.Inv) (hb : s.status.busy = true)
    (hstage : s.stage = .composite) (hpalette : ∀ a, a < 3 * s.NP → t.load .PLTE a = s.load .PLTE a)
    (halphas : ∀ a, a < min s.NT s.NP → t.load .TRNS a = s.load .TRNS a) (a : Nat) (ha : a < 4 * s.NP) :
    t.load .RGBA a = s.load .RGBA a := by
  have hstage' : t.stage = .composite := h.stage_eq.trans hstage
  have hrun := hs.running hb (by simp [hstage])
  have hrun' := ht.running (by rwa [h.status_eq]) (by simp [hstage'])
  obtain ⟨row, -, -, -, -, hindexed⟩ := hrun.exists_row
  have hi : s.geom.indexed = true := hindexed.trans (decide_eq_true (by omega))
  obtain ⟨-, hvalid⟩ := (placeOk_composite hstage).mp hrun.place
  obtain ⟨-, hvalid'⟩ := (placeOk_composite hstage').mp hrun'.place
  exact rgba_eq_of_tableHolds h (hs.table (hvalid hi)) (ht.table (hvalid' (h.geom_eq ▸ hi))) hpalette halphas a ha

/-- The row that the fetch of a record leaves in CUR is the same: lane by lane it depends on the stream and on the row
before alone (R131). -/
theorem SameData.fetchedRow (hd : SameData s t) (h : SameCourse s t) (hs : s.stage = .row) {i : Instr}
    (hi : i.isRow = true) (hl : s.pos.toNat + 1 + s.SL ≤ s.L) (n : Nat) (hn : n < s.SL) :
    (unfilterRow (predictorOf i) t.advance).load .CUR n = (unfilterRow (predictorOf i) s.advance).load .CUR n := by
  have hSL := h.SL_eq (by simp [hs])
  have hadv : s.advance.pos.toNat = s.pos.toNat + 1 := advance_pos_toNat s (by omega)
  have hadv' : t.advance.pos.toNat = s.pos.toNat + 1 := (congrArg BitVec.toNat h.advanced.pos_eq).trans hadv
  have hl' : t.advance.pos.toNat + t.advance.SL ≤ t.advance.L := by
    show t.advance.pos.toNat + t.SL ≤ t.L
    rwa [hadv', hSL, h.L_eq]
  obtain ⟨u, v, hu, hv, hcur⟩ := lanesAreIndependent i s.advance t.advance (n % s.pb) hi h.pb_eq.symm hSL.symm
    (h.row (.inl hs)).symm (hadv ▸ hl) hl' fun m hm _ => by
      rw [hadv, hadv']
      exact ⟨(hd.stream _ (by change m < s.SL at hm; omega)).symm, fun h0 => (hd.prev (.inl hs) h0 m hm).symm⟩
  rw [exec_row i hi] at hu hv
  cases hu
  cases hv
  exact (hcur n hn rfl).symm

/-- The tag at the cursor is the same. -/
theorem SameData.tag (hd : SameData s t) (h : SameCourse s t) (hp : s.pos.toNat < s.L) :
    t.load .IN t.pos.toNat = s.load .IN s.pos.toNat := by
  rw [h.pos_eq]
  exact hd.stream _ hp

end Data

/-! The moves of the two engines. -/

/-- The scatter of a pixel, as RASTER shows it (R165). -/
theorem EngineMove.load_pixel {s t : State} (h : EngineMove s t) (hs : s.stage = .scatter) (hc : s.c < s.subWidth)
    (a : Nat) :
    t.load .RASTER a =
      if s.scatterIndex ≤ a ∧ a < s.scatterIndex + s.pb then s.load .CUR (s.c * s.pb + (a - s.scatterIndex))
      else s.load .RASTER a := by
  cases h with
  | pixel _ _ => exact load_scatter s a
  | rowScattered _ hend => exact absurd hc (Nat.not_lt.mpr hend)
  | _ => simp_all

/-- The check leads to the first pass (R236). -/
theorem EngineMove.of_configure {s t : State} (h : EngineMove s t) (hs : s.stage = .configure)
    (hb : t.status.busy = true) : t.stage = .beginPass ∧ t.pass = 0 := by
  cases h with
  | checkPasses _ _ => exact ⟨rfl, rfl⟩
  | checkFails _ _ _ => cases hb
  | _ => simp_all

/-- A row of a pass is no stage that the check leads to. -/
theorem EngineMove.ne_configure {s t : State} (h : EngineMove s t) (hb : t.status.busy = true)
    (ht : t.stage = .row ∨ t.stage = .scatter ∨ t.stage = .retire) : s.stage ≠ .configure := by
  intro hs
  obtain ⟨hbegin, -⟩ := h.of_configure hs hb
  simp [hbegin] at ht

/-- The composite loop ends in DONE at its last pixel only (R211). -/
theorem EngineMove.lastPixel_of_done {s t : State} (h : EngineMove s t) (hs : s.stage = .composite)
    (hd : s.status.done = false) (ht : t.status.done = true) : s.W * s.H ≤ s.k := by
  have hne : t.status.done ≠ s.status.done := by rw [ht, hd]; decide
  cases h with
  | decodeEnds _ hk => exact hk
  | composited _ _ hi => exact absurd (by rw [compositePixel_eq s s.k hi]) hne
  | indexFault _ _ _ _ => exact absurd rfl hne
  | _ => simp_all

/-- A tag decodes to filter instructions only (R92). -/
theorem isRow_of_decode_tag {t : Byte} {i : Instr} (h : decode (.tag t) = .instr i) : i.isRow = true := by
  rcases decodeTag_cases t with ⟨j, hj, hrow⟩ | hill
  · rw [h] at hj
    cases hj
    exact hrow
  · rw [h] at hill
    cases hill

section RowMove

variable {s t : State} (h : RowMove s t)
include h

/-- A move from the fetch of a record within a pass. -/
theorem RowMove.of_row (hs : s.stage = .row) (hn : ¬(t.stage = .row ∧ t.r = 0)) :
    (∃ i, decode (.tag (s.load .IN s.pos.toNat)) = .instr i ∧ s.pos.toNat + 1 + s.SL ≤ s.L ∧
      ∀ n, t.load .CUR n = (unfilterRow (predictorOf i) s.advance).load .CUR n) ∧
    ∀ n, t.load .PREV n = s.load .PREV n := by
  cases h with
  | begins ht hr => exact absurd ⟨ht, hr⟩ hn
  | fetched i _ _ _ hd hl hcur hprev => exact ⟨⟨i, hd, hl, hcur⟩, hprev⟩
  | scatters hs' _ _ _ _ => exact absurd (hs.symm.trans hs') (by decide)
  | retired hs' _ _ _ _ => exact absurd (hs.symm.trans hs') (by decide)

/-- A move from the scatter within a pass. -/
theorem RowMove.of_scatter (hs : s.stage = .scatter) (hn : ¬(t.stage = .row ∧ t.r = 0)) :
    (∀ n, t.load .CUR n = s.load .CUR n) ∧ ∀ n, t.load .PREV n = s.load .PREV n := by
  cases h with
  | begins ht hr => exact absurd ⟨ht, hr⟩ hn
  | scatters _ _ _ hcur hprev => exact ⟨hcur, hprev⟩
  | fetched _ hs' _ _ _ _ _ _ => exact absurd (hs.symm.trans hs') (by decide)
  | retired hs' _ _ _ _ => exact absurd (hs.symm.trans hs') (by decide)

/-- A move from the retirement within a pass. -/
theorem RowMove.of_retire (hs : s.stage = .retire) (hn : ¬(t.stage = .row ∧ t.r = 0)) :
    ∀ n, n < s.SL → t.load .PREV n = s.load .CUR n := by
  cases h with
  | begins ht hr => exact absurd ⟨ht, hr⟩ hn
  | retired _ _ _ _ hprev => exact hprev
  | fetched _ hs' _ _ _ _ _ _ => exact absurd (hs.symm.trans hs') (by decide)
  | scatters hs' _ _ _ _ => exact absurd (hs.symm.trans hs') (by decide)

end RowMove

section Inputs

variable {s t s' t' : State} (hs : EngineMove s s') (ht : EngineMove t t') (hd : SameData s t)
include hs ht hd

/-! The inputs are the same after a move: no move writes them (R70, R71). -/

theorem EngineMove.sameStream (a : Nat) (ha : a < s'.L) : t'.load .IN a = s'.load .IN a := by
  rw [hs.load_eq (.inl rfl), ht.load_eq (.inl rfl)]
  exact hd.stream a (hs.L_eq ▸ ha)

theorem EngineMove.samePalette (a : Nat) (ha : a < 3 * s'.NP) : t'.load .PLTE a = s'.load .PLTE a := by
  have hNP : s'.NP = s.NP := congrArg BitVec.toNat hs.palCount_eq
  rw [hs.load_eq (by simp), ht.load_eq (by simp)]
  exact hd.palette a (hNP ▸ ha)

theorem EngineMove.sameAlphas (a : Nat) (ha : a < min s'.NT s'.NP) : t'.load .TRNS a = s'.load .TRNS a := by
  have hNP : s'.NP = s.NP := congrArg BitVec.toNat hs.palCount_eq
  have hNT : s'.NT = s.NT := congrArg BitVec.toNat hs.trnsCount_eq
  rw [hs.load_eq (by simp), ht.load_eq (by simp)]
  exact hd.alphas a (by rwa [← hNP, ← hNT])

end Inputs

section Moves

variable {s t s' t' : State} (hs : EngineMove s s') (ht : EngineMove t t') (h : SameCourse s t)
  (hd : SameData s t) (hb : s'.status.busy = true)
include hs ht h hd hb

/-- The scattered samples are the same: scattered from the same scanline to the same place, or before (R165). -/
theorem EngineMove.sameSamples : SameSamples s' t' := by
  intro q g r c j hx hsc hj
  by_cases hne : s.stage = .configure
  · obtain ⟨hbegin, hpass⟩ := hs.of_configure hne hb
    rw [scattered_beginPass hbegin, hpass] at hsc
    exact absurd hsc (Nat.not_lt_zero q)
  obtain ⟨hW, -, -, hpb, -⟩ := hs.image_eq hne
  rw [hs.hasPixel_iff hne] at hx
  rw [hpb] at hj
  simp only [State.pixelIndex, hW, hpb]
  have hcase := hs.scattered_cases hne hx hsc
  have hscatter : (t.stage = .scatter ∧ t.c < t.subWidth) ↔ (s.stage = .scatter ∧ s.c < s.subWidth) := by
    rw [h.stage_eq, h.subWidth_eq hne]
    exact and_congr_right fun hst => by rw [h.column hst]
  by_cases hn : s.stage = .scatter ∧ s.c < s.subWidth
  · obtain ⟨hst, hc⟩ := hn
    obtain ⟨hst', hc'⟩ := hscatter.mpr ⟨hst, hc⟩
    have hindex : t.scatterIndex = s.scatterIndex := by
      simp only [State.scatterIndex, h.W_eq, h.pb_eq, h.geometry_eq hne, h.row (.inr (.inl hst)), h.column hst]
    rw [hs.load_pixel hst hc, ht.load_pixel hst' hc', hindex, h.pb_eq, h.column hst]
    split_ifs with hin
    · exact hd.cur (.inl hst) _ (pixelByte_lt hc (by omega))
    · rcases hcase with hold | ⟨-, rfl, rfl, rfl⟩
      · exact hd.samples q g r c j hx hold hj
      · obtain ⟨rfl, -⟩ := hx.of_pass
        exact absurd ⟨Nat.le_add_right _ _, Nat.add_lt_add_left hj _⟩ hin
  · rw [hs.load_raster hn, ht.load_raster fun hc => hn (hscatter.mp hc)]
    exact hd.samples q g r c j hx (hcase.resolve_right fun hc => hn hc.1) hj

variable (h' : SameCourse s' t')
include h'

/-- The scanline at hand is the same: fetched by one instruction from the same stream, or kept (R120, R165). -/
theorem EngineMove.sameCur (hstage : s'.stage = .scatter ∨ s'.stage = .retire) (n : Nat) (hn : n < s'.SL) :
    t'.load .CUR n = s'.load .CUR n := by
  have hne := hs.ne_configure hb (.inr hstage)
  have hrow : s'.stage ≠ .row := by rcases hstage with he | he <;> simp [he]
  have hmove' : RowMove t t' := ht.rowMove (by rwa [h'.status_eq]) (by rw [h'.stage_eq]; exact .inr hstage)
  have hbegins : ¬(t'.stage = .row ∧ t'.r = 0) := fun hc => hrow (h'.stage_eq ▸ hc.1)
  cases hs.rowMove hb (.inr hstage) with
  | begins he _ => exact absurd he hrow
  | retired _ he _ _ _ => exact absurd he hrow
  | fetched i hfrom hp _ htag hl hcur _ =>
    obtain ⟨-, hSL, -⟩ := hs.scanline_eq (raw := fun _ _ _ => 0) hne hp
    obtain ⟨⟨i', htag', -, hcur'⟩, -⟩ := hmove'.of_row (h.stage_eq.trans hfrom) hbegins
    have hi : i' = i := by
      rw [hd.tag h (by omega), htag] at htag'
      cases htag'
      rfl
    rw [hcur, hcur', hi]
    exact hd.fetchedRow h hfrom (isRow_of_decode_tag htag) hl n (hSL ▸ hn)
  | scatters hfrom hp _ hcur _ =>
    obtain ⟨-, hSL, -⟩ := hs.scanline_eq (raw := fun _ _ _ => 0) hne hp
    obtain ⟨hcur', -⟩ := hmove'.of_scatter (h.stage_eq.trans hfrom) hbegins
    rw [hcur, hcur']
    exact hd.cur (.inl hfrom) n (hSL ▸ hn)

/-- The scanline before is the same: retired from the same row, or kept (R132). -/
theorem EngineMove.samePrev (hstage : s'.stage = .row ∨ s'.stage = .scatter ∨ s'.stage = .retire) (h0 : 0 < s'.r)
    (n : Nat) (hn : n < s'.SL) : t'.load .PREV n = s'.load .PREV n := by
  have hne := hs.ne_configure hb hstage
  have hmove' : RowMove t t' := ht.rowMove (by rwa [h'.status_eq]) (by rwa [h'.stage_eq])
  have hbegins : ¬(t'.stage = .row ∧ t'.r = 0) := fun hc => by
    have hr := h'.row hstage
    omega
  cases hs.rowMove hb hstage with
  | begins _ hr => omega
  | fetched i hfrom hp hr _ _ _ hprev =>
    obtain ⟨-, hSL, -⟩ := hs.scanline_eq (raw := fun _ _ _ => 0) hne hp
    obtain ⟨-, hprev'⟩ := hmove'.of_row (h.stage_eq.trans hfrom) hbegins
    rw [hprev, hprev']
    exact hd.prev (.inl hfrom) (hr ▸ h0) n (hSL ▸ hn)
  | scatters hfrom hp hr _ hprev =>
    obtain ⟨-, hSL, -⟩ := hs.scanline_eq (raw := fun _ _ _ => 0) hne hp
    obtain ⟨-, hprev'⟩ := hmove'.of_scatter (h.stage_eq.trans hfrom) hbegins
    rw [hprev, hprev']
    exact hd.prev (.inr (.inl hfrom)) (hr ▸ h0) n (hSL ▸ hn)
  | retired hfrom _ hp hr hprev =>
    obtain ⟨-, hSL, -⟩ := hs.scanline_eq (raw := fun _ _ _ => 0) hne hp
    have hn' : n < s.SL := hSL ▸ hn
    rw [hprev n hn', hmove'.of_retire (h.stage_eq.trans hfrom) hbegins n (by rwa [h.SL_eq hne])]
    exact hd.cur (.inr hfrom) n hn'

/-- The output bytes are the same: composited from the same samples and the same table, or before (R211). -/
theorem EngineMove.sameOutput (hi : s.Inv) (hit : t.Inv) (hbusy : s.status.busy = true)
    (hsamples : SameSamples s' t') (hstage : s'.stage = .composite) (a : Nat) (ha : a < 4 * s'.k) :
    t'.load .OUT a = s'.load .OUT a := by
  have hbusy' : t.status.busy = true := by rwa [h.status_eq]
  have hb' : t'.status.busy = true := by rwa [h'.status_eq]
  have hi' := hs.inv hi hbusy
  have hit' := ht.inv hit hbusy'
  have hk := h'.pixel (.inr hstage)
  rcases hs.composite_cases (hi.running hbusy) hb hstage with h0 | ⟨hfrom, hpixel⟩
  · omega
  have hks := h.pixel (.inr hfrom)
  rcases ht.composite_cases (hit.running hbusy') hb' (h'.stage_eq.trans hstage) with h0 | ⟨-, hpixel'⟩
  · omega
  rw [hpixel.k_eq] at ha
  rcases Nat.lt_or_ge a (4 * s.k) with hlt | hge
  · rw [hpixel.frame .OUT a (by omega), hpixel'.frame .OUT a (by omega)]
    exact hd.output hfrom a hlt
  · obtain ⟨n, rfl⟩ := Nat.exists_eq_add_of_le hge
    have hrun := hi'.running hb (by simp [hstage])
    obtain ⟨hle, -⟩ := (placeOk_composite hstage).mp hrun.place
    exact load_out_eq_of_pixelOk hpixel.pixelOk (hks ▸ hpixel'.pixelOk) h' hrun (by have := hpixel.k_eq; omega)
      (hsamples.raster (.inr hstage))
      (rgba_eq_of_composite h' hi' hit' hb hstage (hs.samePalette ht hd) (hs.sameAlphas ht hd)) (by omega)

/-- A move of the two engines keeps the bytes the same. -/
theorem EngineMove.sameData (hi : s.Inv) (hit : t.Inv) (hbusy : s.status.busy = true) : SameData s' t' :=
  have hsamples := hs.sameSamples ht h hd hb
  { stream := hs.sameStream ht hd
    palette := hs.samePalette ht hd
    alphas := hs.sameAlphas ht hd
    cur := hs.sameCur ht h hd hb h'
    prev := hs.samePrev ht h hd hb h'
    samples := hsamples
    output := hs.sameOutput ht h hd hb h' hi hit hbusy hsamples }

end Moves

/-- A decode that ends in DONE leaves the same results: RASTER and OUT are whole, and the table is current. -/
theorem sameResults_of_done {s t s' t' : State} (hs : EngineMove s s') (ht : EngineMove t t') (h : SameCourse s t)
    (h' : SameCourse s' t') (hd : SameData s t) (hi : s.Inv) (hit : t.Inv) (hb : s.status.busy = true)
    (hdone : s'.status.done = true) : SameResults s' t' := by
  have ⟨hbefore, _⟩ := hi.oneFlag
  rw [hb, Bool.true_and] at hbefore
  obtain ⟨hstage, he⟩ := hs.finishes_of_done hbefore hdone
  obtain ⟨-, he'⟩ := ht.finishes_of_done (by rwa [h.status_eq]) (by rwa [h'.status_eq])
  have hk := hs.lastPixel_of_done hstage hbefore hdone
  have hrgba := rgba_eq_of_composite h hi hit hb hstage hd.palette hd.alphas
  rw [he, he']
  exact
    { raster := hd.samples.raster (.inr hstage)
      out := fun a ha => hd.output hstage a (Nat.lt_of_lt_of_le ha (Nat.mul_le_mul_left 4 hk))
      rgba := hrgba }

/-! Two runs. -/

/-- Two machines on the same course with no turn but the engine's to come: while they decode their bytes are the same, and
in DONE their results are. -/
structure Alike (s t : State) : Prop where
  noTurns : s.schedule = []
  course : SameCourse s t
  inv : s.Inv
  inv' : t.Inv
  data : s.status.busy = true → SameData s t
  results : s.status.done = true → SameResults s t

/-- With no turn to come it is the engine's. -/
theorem step_of_noTurns {s : State} (h : s.schedule = []) : step s = engineAction s := by
  simp only [step, h]

/-- A step of one is matched by a step of the other. -/
theorem Alike.step {s t s' : State} (h : Alike s t) (hstep : step s = .next s') :
    ∃ t', step t = .next t' ∧ Alike s' t' := by
  rw [step_of_noTurns h.noTurns] at hstep
  rw [step_of_noTurns (h.course.schedule_eq.trans h.noTurns)]
  cases hb : s.status.busy with
  | false =>
    rw [engineAction_idle s hb] at hstep
    cases hstep
    exact ⟨t, engineAction_idle t (h.course.status_eq ▸ hb), h⟩
  | true =>
    have hd := h.data hb
    have hb' : t.status.busy = true := h.course.status_eq ▸ hb
    obtain ⟨u, t', hu, ht', hcourse⟩ := h.course.engineAction hb (fun _ => hd.tag h.course) fun hs hk => by
      rw [h.course.pixel (.inr hs)]
      obtain ⟨hpb, -⟩ := (h.inv.running hb (by simp [hs])).bounds
      exact hd.samples.raster (.inr hs) _ (hk.trans_le (Nat.le_mul_of_pos_right _ hpb))
    obtain rfl : u = s' := by simpa [hu] using hstep
    obtain ⟨v, hv, hmove⟩ := engineAction_moves hb
    obtain rfl : v = u := by simpa [hu] using hv.symm
    obtain ⟨w, hw, hmove'⟩ := engineAction_moves hb'
    obtain rfl : w = t' := by simpa [ht'] using hw.symm
    exact ⟨_, ht',
      { noTurns := hmove.schedule_eq.trans h.noTurns
        course := hcourse
        inv := hmove.inv h.inv hb
        inv' := hmove'.inv h.inv' hb'
        data := fun hbusy => hmove.sameData hmove' h.course hd hbusy hcourse h.inv h.inv' hb
        results := sameResults_of_done hmove hmove' h.course hcourse hd h.inv h.inv' hb }⟩

/-- A run of one is matched by a run of the other. -/
theorem Alike.run {s t u : State} (h : Alike s t) {n : Nat} (hrun : Sys2Proof.core.run n s = .next u) :
    ∃ v, Sys2Proof.core.run n t = .next v ∧ Alike u v := by
  induction n generalizing s t with
  | zero =>
    cases hrun
    exact ⟨t, rfl, h⟩
  | succ n ih =>
    obtain ⟨s', hs', -⟩ := step_moves s
    obtain ⟨t', ht', h'⟩ := h.step hs'
    rw [run_succ hs'] at hrun
    obtain ⟨v, hv, hend⟩ := ih h' hrun
    exact ⟨v, (run_succ ht' n).trans hv, hend⟩

/-! The beginning of a decode. -/

/-- Two decodes at their beginning with the same inputs are alike, but for the cursor, which step 1 of a decode sets. -/
theorem SameDecode.alike {s t : State} (h : SameDecode s t) (hi : s.Inv) (hit : t.Inv) (hb : s.status.busy = true)
    (hs : s.stage = .configure) : Alike s { t with pos := s.pos } := by
  obtain ⟨hwidth, hheight, hformat, hlen, hpal, htrns, hcaps, hstream, hpalette, halphas, hstatus, hstage, hgeom, hcode,
    herrPos, hval, hsched, hsched'⟩ := h
  have ⟨hdone, _⟩ := hi.oneFlag
  rw [hb, Bool.true_and] at hdone
  exact
    { noTurns := hsched
      course := ⟨by simp only [State.course, hwidth, hheight, hformat, hlen, hpal, htrns, hcaps, hstatus, hstage, hgeom,
        hcode, herrPos, hval, hsched, hsched'], by simp [hs], by simp [hs], by simp [hs], by simp [hs]⟩
      inv := hi
      inv' := ⟨hit.caps, hit.canonical, hit.inside, hit.oneFlag, fun _ hne => absurd (hstage.trans hs) hne, hit.table⟩
      data := fun _ => ⟨hstream, hpalette, halphas, by simp [hs], by simp [hs],
        fun q g r c j _ hsc _ => by simp [State.Scattered, hs] at hsc, by simp [hs]⟩
      results := fun hd => absurd (hdone.symm.trans hd) Bool.false_ne_true }

/-- The first step of a decode does not read the cursor (R236, step 1). -/
theorem step_configure_pos {s : State} (hb : s.status.busy = true) (hs : s.stage = .configure) (hn : s.schedule = [])
    (p : Word) : step { s with pos := p } = step s := by
  rw [step_of_noTurns hn, engineAction_configure s hb hs, step_of_noTurns (s := { s with pos := p }) hn,
    engineAction_configure { s with pos := p } hb hs]
  rfl

/-- A run from the beginning of a decode forgets the cursor that it began with. -/
theorem run_configure_pos {s v : State} (hb : s.status.busy = true) (hs : s.stage = .configure) (hn : s.schedule = [])
    {p : Word} {n : Nat} (hrun : Sys2Proof.core.run n { s with pos := p } = .next v) :
    ∃ t, Sys2Proof.core.run n s = .next t ∧ v = { t with pos := v.pos } ∧ (0 < n → t.pos = v.pos) := by
  cases n with
  | zero =>
    cases hrun
    exact ⟨s, rfl, rfl, fun h0 => absurd h0 (Nat.lt_irrefl 0)⟩
  | succ n =>
    obtain ⟨s', hs', -⟩ := step_moves s
    rw [run_succ ((step_configure_pos hb hs hn p).trans hs')] at hrun
    exact ⟨v, (run_succ hs' n).trans hrun, rfl, fun _ => rfl⟩

/-- Settles O60: the two decodes are alike but for the cursor, which step 1 sets in both. -/
theorem inputsDetermineTheResult : Obligations.InputsDetermineTheResult := by
  intro s₁ s₂ t₁ n hi₁ hi₂ hb hs hsame hrun
  have halike := hsame.alike hi₁ hi₂ hb hs
  obtain ⟨v, hv, hend⟩ := halike.run hrun
  obtain ⟨t₂, ht₂, hpos, hcursor⟩ := run_configure_pos (s := s₂) (halike.course.status_eq ▸ hb)
    (halike.course.stage_eq.trans hs) (halike.course.schedule_eq.trans halike.noTurns) hv
  have hcourse := hend.course
  have hresults := hend.results
  rw [hpos] at hcourse hresults
  exact ⟨t₂, ht₂, hcourse.status_eq, hcourse.reads State.errCode fun _ => rfl, hcourse.reads State.errPos fun _ => rfl,
    hcourse.reads State.errVal fun _ => rfl, hcourse.geom_eq, fun h0 => (hcursor h0).trans hend.course.pos_eq,
    fun hd => ⟨(hresults hd).raster, (hresults hd).out, (hresults hd).rgba⟩⟩

end Sys2Proof.Machine
end

section
/-! PROOFS. The faults and the interrupt output: no step stops the machine (O9), what a fault records (O42), and when the level
of `irq` is 1 (O44). -/

namespace Sys2Proof.Machine

/-- Settles O9, by the move that each state's turn makes. -/
theorem everyStepGoesOn : Obligations.EveryStepGoesOn := fun s =>
  have ⟨t, hstep, _⟩ := step_moves s
  ⟨t, hstep⟩

/-- Settles O42: the code is the cause's own, and the rest is what `raiseFault` assigns. -/
theorem faultEntry : Obligations.FaultEntry := by
  intro f p v s
  refine ⟨?_, rfl⟩
  rw [raiseFault_errCode]
  cases f <;> rfl

/-! The level of `irq` (R258). -/

section Level

variable {s : State}

theorem irq_eq_true_iff : s.irq = true ↔ s.irqEn = true ∧ (s.status.done = true ∨ s.status.fault = true) := by
  simp only [State.irq, Bool.and_eq_true, Bool.or_eq_true]

/-- With the interrupt disabled the level is 0, whatever ended. -/
theorem irq_eq_false_of_irqEn (h : s.irqEn = false) : s.irq = false := by
  simp only [State.irq, h, Bool.false_and]

/-- With nothing to report the level is 0, enabled or not. -/
theorem irq_eq_false_of_noReport (hd : s.status.done = false) (hf : s.status.fault = false) : s.irq = false := by
  simp only [State.irq, hd, hf, Bool.or_self, Bool.and_false]

theorem irq_clearReport : s.clearReport.irq = false := irq_eq_false_of_noReport rfl rfl

theorem irq_beginDecode : s.beginDecode.irq = false := irq_eq_false_of_noReport rfl rfl

end Level

/-- A word write to IRQ_EN is accepted in either phase (R241). -/
theorem hostWriteReg_irqEn (v : Word) (s : State) :
    hostWriteReg 0x08#6 .word v s = .next { s with irqEn := v.getLsbD 0 } := rfl

/-- Settles O44: START and CLEAR end the report, and the write and the reset disable the interrupt. -/
theorem interruptLevel : Obligations.InterruptLevel := by
  refine ⟨fun s => irq_eq_true_iff, fun s t rest hb h => ?start, fun s t rest hb h => ?clear,
    fun s s' t v hturn hv h => ?disable, irq_eq_false_of_irqEn rfl⟩
  case start =>
    rw [exec_start_idle rest hb] at h
    cases h
    exact irq_beginDecode
  case clear =>
    rw [exec_clear_idle rest hb] at h
    cases h
    exact irq_clearReport
  case disable =>
    have hstep : step s = .next { s' with irqEn := v.getLsbD 0 } :=
      (step_of_hostTurn hturn).trans (hostWriteReg_irqEn v s')
    rw [hstep] at h
    cases h
    exact irq_eq_false_of_irqEn hv

end Sys2Proof.Machine
end

section
/-! PROOFS. The reset input and the configuration it leaves: the reset input answers the reset state from any state (O46), and
a START of the reset state ends in CONFIG_ERROR with check 1 (O47). -/

namespace Sys2Proof.Machine

/-! The reset input (R280, R281). -/

/-- The reset input takes its turn before the engine and the host. -/
theorem step_reset {s : State} {rest : List Turn} (h : s.schedule = .reset :: rest) :
    step s = .next (hardReset { s with schedule := rest }) := by
  simp only [step, h]

/-- After the reset input no byte of memory is written, as in the reset state. -/
theorem not_written_hardReset (s : State) (sp : Space) (a : Nat) : ¬(hardReset s).written sp a :=
  not_written_resetWith s.caps sp a

/-- Settles O46, by the turn of the reset input: `hardReset` is the reset state but for the turns and the two counters. -/
theorem resetInput : Obligations.ResetInput := fun _ _ h =>
  ⟨_, step_reset h, rfl, not_written_hardReset _⟩

/-! A START of the reset state (R282). -/

/-- The reset state's bit depth is 0, so a decode that starts from it fails the first check (R233). -/
theorem resetWith_beginDecode_configCheck (c : Caps) : (State.resetWith c).beginDecode.configCheck = some 1 :=
  if_pos (by decide : (0 : Byte) ≠ 8)

/-- The decode that START begins in the reset state ends in its first step, at check 1 (R257). -/
theorem step_resetWith_beginDecode (c : Caps) :
    step (State.resetWith c).beginDecode =
      .next (raiseFault .configError 0 1 { (State.resetWith c).beginDecode with pos := 0 }) :=
  (step_configure rfl rfl rfl).trans
    (congrArg Host.Outcome.next (configure_fail _ 1 (resetWith_beginDecode_configCheck c)))

/-- Settles O47: the reset state is IDLE, so START is accepted, and the decode's first step reports check 1. -/
theorem resetConfigurationCannotDecode : Obligations.ResetConfigurationCannotDecode := fun rest =>
  ⟨State.reset.beginDecode, _, exec_start_idle rest rfl, step_resetWith_beginDecode Config.caps, rfl, rfl, rfl, rfl, rfl⟩

end Sys2Proof.Machine
end
